-- ==== Sys2Proof/Word.lean ====
section
/-! DEFINITION. The two data widths of the block (spec/00_scope.md R6, R8, R9): the 8-bit byte and the 128-bit word, and
the two fixed lengths of the format. Arithmetic that a test could show wrong stands in Sys2Proof/Machine. -/

namespace Sys2Proof

/-- A byte, `b[7:0]` (R8). -/
abbrev Byte := BitVec 8

/-- A 128-bit pattern, the width `W = 128` of every value (R6, R9). -/
abbrev Word := BitVec 128

/-- `ONES = 2^128 − 1`, the all-ones word (R9). -/
abbrev ones : Word := BitVec.allOnes 128

/-- `MAXLEN = 19`: the longest encoding and the decoder's scan ceiling (R6). -/
abbrev maxLen : Nat := 19

end Sys2Proof
end

