-- ==== Sys2Proof/Config.lean ====
section
/-! DEFINITION. What one implementation of the block fixes (spec/00_scope.md R7: ADDR_W and P_EXCESS, both left open), and the
free values of the model: constants with no body, so that nothing can prove what they are. -/

namespace Sys2Proof

/-- `P_EXCESS ∈ {Discard, Overflow}` (R7): what a decoder does with data bits of a terminating 19th byte above bit 127. -/
inductive PExcess where
  | discard
  | overflow
deriving DecidableEq, Repr, Inhabited

/-- The two open parameters of R7. "The model takes each as an argument": the state carries them, no step changes them,
and a statement about every state is a statement about every value of both (log entry 1). -/
structure Config where
  /-- `ADDR_W`, the width in bits of a host memory address. -/
  addrW : Nat
  /-- `P_EXCESS`. -/
  pExcess : PExcess
deriving DecidableEq, Repr

/-- The address width of the machine that State.reset starts: open (R7), so without a value here (log entry 1). -/
opaque Config.hostAddrW : Nat

/-- The P_EXCESS of the machine that State.reset starts: open (R7), so without a value here (log entry 1). -/
opaque Config.hostPExcess : PExcess

/-- Free bytes: what a byte of DST holds after a reset in the middle of a buffer encode (R231(a)), what a byte reads as that
another agent writes meanwhile (R55(b)), and what its write leaves in a window in use (R236(b)). Log entry 4. -/
opaque Config.freeByte : Nat → BitVec 8

/-- Free counts: how far a stream command had come when a reset hit it (R231(b), (c)), and which of two writers of a byte
came last (R55(a)). Log entry 4. -/
opaque Config.freeCount : Nat → Nat

/-- Free contents of RESP after a reset event (R31, R230). Log entry 4. -/
opaque Config.freeResp : Nat → BitVec 144

end Sys2Proof
end

