-- ==== Sys2Proof/Syntax.lean ====
section
/-! DEFINITION. The commands (spec/30_encoding.md R71, one constructor per row of spec/opcode_table.json), the request that carries
one with its operands (spec/10_state.md R21), and the assembler's statements and pseudo-operations as abstract
terms (R76, R77). -/

namespace Sys2Proof

/-- The 24 commands of R71. A command word has no operand field (R72): the operands are fields of the request port. -/
inductive Instr where
  /-- UENC.COUNT (R102) -/ | uencCount
  /-- UENC.TRY (R103) -/ | uencTry
  /-- UENC (R104) -/ | uenc
  /-- UENC.SINK (R105) -/ | uencSink
  /-- UDEC.TRY (R122) -/ | udecTry
  /-- UDEC (R123) -/ | udec
  /-- UDEC.SRC (R124) -/ | udecSrc
  /-- SENC.COUNT (R142) -/ | sencCount
  /-- SENC.TRY (R143) -/ | sencTry
  /-- SENC (R144) -/ | senc
  /-- SENC.SINK (R145) -/ | sencSink
  /-- SDEC.TRY (R162) -/ | sdecTry
  /-- SDEC (R163) -/ | sdec
  /-- SDEC.SRC (R164) -/ | sdecSrc
  /-- NARROW.U8 (R188) -/ | narrowU8
  /-- NARROW.U32 (R189) -/ | narrowU32
  /-- NARROW.U64 (R190) -/ | narrowU64
  /-- NARROW.U128 (R191) -/ | narrowU128
  /-- CLS.U (R186) -/ | clsU
  /-- NARROW.S8 (R192) -/ | narrowS8
  /-- NARROW.S32 (R193) -/ | narrowS32
  /-- NARROW.S64 (R194) -/ | narrowS64
  /-- NARROW.S128 (R195) -/ | narrowS128
  /-- CLS.S (R187) -/ | clsS
deriving DecidableEq, Repr

/-- The signedness `s` of a command: it belongs to the opcode, not to the operand (R72, R181). -/
inductive Sign where
  | unsigned
  | signed
deriving DecidableEq, Repr

/-- The fields of the request port (R21). Addresses and lengths are naturals; `Request.wf` says that each is below
`2^ADDR_W`, the port's range (log entry 11). -/
structure Request where
  /-- command opcode -/
  op : BitVec 8
  /-- value operand -/
  val : Word
  /-- first host address of the destination window -/
  dbase : Nat
  /-- destination capacity in bytes -/
  dcap : Nat
  /-- first host address of the source window -/
  sbase : Nat
  /-- source length in bytes -/
  slen : Nat
deriving DecidableEq, Repr

/-- A value literal of R76: a decimal literal, or the digits of a `0x` literal, first digit first. -/
inductive ValLit where
  | dec (z : Int)
  | hex (digits : List (Fin 16))
deriving DecidableEq, Repr

/-- One line of assembler (R76): a mnemonic with the operands written after it; `dst=<dbase>:<dcap>`, `src=<sbase>:<slen>`. -/
structure Stmt where
  instr : Instr
  val : Option ValLit
  dst : Option (Nat × Nat)
  src : Option (Nat × Nat)
deriving DecidableEq, Repr

/-- The pseudo-operations of R77: `UENC.ALLOC #v` and `SENC.ALLOC #v`. -/
inductive Pseudo where
  | uencAlloc (v : Word)
  | sencAlloc (v : Word)
deriving DecidableEq, Repr

end Sys2Proof
end

