-- ==== Sys2Proof/WellFormed.lean ====
section
/-! DEFINITION. Which requests the port can carry (spec/10_state.md R21), which operands a command reads (R22), and which assembler
statements are commands at all (spec/30_encoding.md R76). Every constructor of Instr is well formed: it has no field. -/

namespace Sys2Proof

/-- The commands that read `val` (R22). -/
def Instr.readsVal : Instr → Bool
  | .uencCount | .uencTry | .uenc | .uencSink => true
  | .udecTry | .udec | .udecSrc => false
  | .sencCount | .sencTry | .senc | .sencSink => true
  | .sdecTry | .sdec | .sdecSrc => false
  | .narrowU8 | .narrowU32 | .narrowU64 | .narrowU128 | .clsU => true
  | .narrowS8 | .narrowS32 | .narrowS64 | .narrowS128 | .clsS => true

/-- The commands that read `dbase` and `dcap`: the buffer encodes (R22). -/
def Instr.readsDst : Instr → Bool
  | .uencTry | .uenc | .sencTry | .senc => true
  | .uencCount | .uencSink | .udecTry | .udec | .udecSrc | .sencCount | .sencSink | .sdecTry | .sdec | .sdecSrc => false
  | .narrowU8 | .narrowU32 | .narrowU64 | .narrowU128 | .clsU => false
  | .narrowS8 | .narrowS32 | .narrowS64 | .narrowS128 | .clsS => false

/-- The commands that read `sbase` and `slen`: the buffer decodes (R22). -/
def Instr.readsSrc : Instr → Bool
  | .udecTry | .udec | .sdecTry | .sdec => true
  | .uencCount | .uencTry | .uenc | .uencSink | .udecSrc | .sencCount | .sencTry | .senc | .sencSink | .sdecSrc => false
  | .narrowU8 | .narrowU32 | .narrowU64 | .narrowU128 | .clsU => false
  | .narrowS8 | .narrowS32 | .narrowS64 | .narrowS128 | .clsS => false

/-- The commands that reach the byte sink (R22). -/
def Instr.usesSink : Instr → Bool
  | .uencSink | .sencSink => true
  | .uencCount | .uencTry | .uenc | .udecTry | .udec | .udecSrc => false
  | .sencCount | .sencTry | .senc | .sdecTry | .sdec | .sdecSrc => false
  | .narrowU8 | .narrowU32 | .narrowU64 | .narrowU128 | .clsU => false
  | .narrowS8 | .narrowS32 | .narrowS64 | .narrowS128 | .clsS => false

/-- The commands that reach the byte source (R22). -/
def Instr.usesSource : Instr → Bool
  | .udecSrc | .sdecSrc => true
  | .uencCount | .uencTry | .uenc | .uencSink | .udecTry | .udec => false
  | .sencCount | .sencTry | .senc | .sencSink | .sdecTry | .sdec => false
  | .narrowU8 | .narrowU32 | .narrowU64 | .narrowU128 | .clsU => false
  | .narrowS8 | .narrowS32 | .narrowS64 | .narrowS128 | .clsS => false

/-- How a command reads `val` (R21, R72). -/
def Instr.sign : Instr → Sign
  | .uencCount | .uencTry | .uenc | .uencSink | .udecTry | .udec | .udecSrc => .unsigned
  | .narrowU8 | .narrowU32 | .narrowU64 | .narrowU128 | .clsU => .unsigned
  | .sencCount | .sencTry | .senc | .sencSink | .sdecTry | .sdec | .sdecSrc => .signed
  | .narrowS8 | .narrowS32 | .narrowS64 | .narrowS128 | .clsS => .signed

/-- The request port can carry `r`: addresses have ADDR_W bits, lengths are below `2^ADDR_W` (R21). -/
def Request.wf (c : Config) (r : Request) : Bool :=
  decide (r.dbase < 2 ^ c.addrW) && decide (r.dcap < 2 ^ c.addrW) &&
    (decide (r.sbase < 2 ^ c.addrW) && decide (r.slen < 2 ^ c.addrW))

/-- The literal rules of R76: a decimal literal lies in the range of the command's signedness; a `0x` literal has one to
32 hex digits. -/
def ValLit.inRange (sg : Sign) : ValLit → Bool
  | .dec z =>
    match sg with
    | .unsigned => decide (0 ≤ z) && decide (z ≤ 2 ^ 128 - 1)
    | .signed => decide (-(2 ^ 127) ≤ z) && decide (z ≤ 2 ^ 127 - 1)
  | .hex ds => decide (1 ≤ ds.length) && decide (ds.length ≤ 32)

/-- An assembler statement is a command (R76): it writes exactly the operands R76 gives the mnemonic, its literal is in
range, and its addresses and lengths are ones the port can carry. -/
def Stmt.wf (c : Config) (st : Stmt) : Bool :=
  (st.val.isSome == st.instr.readsVal) && (st.dst.isSome == st.instr.readsDst) &&
    (st.src.isSome == st.instr.readsSrc) &&
    st.val.all (·.inRange st.instr.sign) &&
    st.dst.all (fun w => decide (w.1 < 2 ^ c.addrW) && decide (w.2 < 2 ^ c.addrW)) &&
    st.src.all (fun w => decide (w.1 < 2 ^ c.addrW) && decide (w.2 < 2 ^ c.addrW))

end Sys2Proof
end

