-- ==== Sys2Proof/Decode.lean ====
section
/-! DEFINITION. The command decoder (spec/30_encoding.md R75), total on every 8-bit value; the encoder, written from the
opcode map (R71); the mnemonics; and the assembler (R76, R77). -/

namespace Sys2Proof

/-- Why a command word is no command. -/
inductive DecodeError where
  /-- one of the 232 reserved opcodes of R73; the machine answers IllegalCommand (R205) -/
  | reserved
deriving DecidableEq, Repr

/-- The encoder of group 00: signedness bit 5, variant bits 1:0 (R70). -/
def decodeEnc (s : Bool) (var : BitVec 2) : Instr :=
  match s, var with
  | false, 0b00#2 => .uencCount
  | false, 0b01#2 => .uencTry
  | false, 0b10#2 => .uenc
  | false, 0b11#2 => .uencSink
  | true, 0b00#2 => .sencCount
  | true, 0b01#2 => .sencTry
  | true, 0b10#2 => .senc
  | true, 0b11#2 => .sencSink

/-- The decoder of group 00: signedness bit 5, variant bits 1:0, variant 11 reserved (R70). -/
def decodeDec (s : Bool) (var : BitVec 2) : Except DecodeError Instr :=
  match s, var with
  | false, 0b00#2 => .ok .udecTry
  | false, 0b01#2 => .ok .udec
  | false, 0b10#2 => .ok .udecSrc
  | true, 0b00#2 => .ok .sdecTry
  | true, 0b01#2 => .ok .sdec
  | true, 0b10#2 => .ok .sdecSrc
  | _, 0b11#2 => .error .reserved

/-- The narrowing commands of group 01: signedness bit 3, width code bits 1:0 (R70). -/
def decodeNarrow (s : Bool) (w : BitVec 2) : Instr :=
  match s, w with
  | false, 0b00#2 => .narrowU8
  | false, 0b01#2 => .narrowU32
  | false, 0b10#2 => .narrowU64
  | false, 0b11#2 => .narrowU128
  | true, 0b00#2 => .narrowS8
  | true, 0b01#2 => .narrowS32
  | true, 0b10#2 => .narrowS64
  | true, 0b11#2 => .narrowS128

/-- `DecodeOp(op[7:0])` of R75: total on every 8-bit value. -/
def decode (op : BitVec 8) : Except DecodeError Instr :=
  if op.extractLsb' 6 2 = 0b00#2 ∧ op.extractLsb' 2 2 = 0b00#2 then
    if op.getLsbD 4 then decodeDec (op.getLsbD 5) (op.extractLsb' 0 2)
    else .ok (decodeEnc (op.getLsbD 5) (op.extractLsb' 0 2))
  else if op.extractLsb' 6 2 = 0b01#2 ∧ op.extractLsb' 4 2 = 0b00#2 then
    if op.getLsbD 2 then
      if op.extractLsb' 0 2 = 0b00#2 then .ok (if op.getLsbD 3 then .clsS else .clsU)
      else .error .reserved
    else .ok (decodeNarrow (op.getLsbD 3) (op.extractLsb' 0 2))
  else .error .reserved

/-- The opcode map of R71. -/
def encode : Instr → BitVec 8
  | .uencCount => 0x00
  | .uencTry => 0x01
  | .uenc => 0x02
  | .uencSink => 0x03
  | .udecTry => 0x10
  | .udec => 0x11
  | .udecSrc => 0x12
  | .sencCount => 0x20
  | .sencTry => 0x21
  | .senc => 0x22
  | .sencSink => 0x23
  | .sdecTry => 0x30
  | .sdec => 0x31
  | .sdecSrc => 0x32
  | .narrowU8 => 0x40
  | .narrowU32 => 0x41
  | .narrowU64 => 0x42
  | .narrowU128 => 0x43
  | .clsU => 0x44
  | .narrowS8 => 0x48
  | .narrowS32 => 0x49
  | .narrowS64 => 0x4A
  | .narrowS128 => 0x4B
  | .clsS => 0x4C

/-- What the decoder reads from an instruction of `nbits` bits whose bits are `w`: a command is one 8-bit opcode and
nothing follows it (R74). -/
def decodeTableWord (nbits w : Nat) : Option Instr :=
  (decode (BitVec.ofNat 8 (w % 2 ^ nbits))).toOption

/-- The mnemonics of R71. -/
def Instr.mnemonic : Instr → String
  | .uencCount => "UENC.COUNT"
  | .uencTry => "UENC.TRY"
  | .uenc => "UENC"
  | .uencSink => "UENC.SINK"
  | .udecTry => "UDEC.TRY"
  | .udec => "UDEC"
  | .udecSrc => "UDEC.SRC"
  | .sencCount => "SENC.COUNT"
  | .sencTry => "SENC.TRY"
  | .senc => "SENC"
  | .sencSink => "SENC.SINK"
  | .sdecTry => "SDEC.TRY"
  | .sdec => "SDEC"
  | .sdecSrc => "SDEC.SRC"
  | .narrowU8 => "NARROW.U8"
  | .narrowU32 => "NARROW.U32"
  | .narrowU64 => "NARROW.U64"
  | .narrowU128 => "NARROW.U128"
  | .clsU => "CLS.U"
  | .narrowS8 => "NARROW.S8"
  | .narrowS32 => "NARROW.S32"
  | .narrowS64 => "NARROW.S64"
  | .narrowS128 => "NARROW.S128"
  | .clsS => "CLS.S"

/-- The number that hex digits stand for, first digit most significant. -/
def hexValue (ds : List (Fin 16)) : Nat := ds.foldl (fun n d => 16 * n + d.val) 0

/-- The pattern a literal is stored as (R76): a decimal literal as its 128-bit two's-complement pattern, a `0x` literal
as the raw pattern. -/
def ValLit.pattern : ValLit → Word
  | .dec z => BitVec.ofInt 128 z
  | .hex ds => BitVec.ofNat 128 (hexValue ds)

/-- The request an assembler statement stands for, or nothing where it is an assembly error. Omitted operands read as
0 (R76). -/
def assemble (c : Config) (st : Stmt) : Option Request :=
  if st.wf c then
    some { op := encode st.instr
           val := (st.val.map ValLit.pattern).getD 0
           dbase := (st.dst.map Prod.fst).getD 0
           dcap := (st.dst.map Prod.snd).getD 0
           sbase := (st.src.map Prod.fst).getD 0
           slen := (st.src.map Prod.snd).getD 0 }
  else none

/-- The first command of a pseudo-operation: the count (R77). -/
def Pseudo.countRequest : Pseudo → Request
  | .uencAlloc v => { op := encode .uencCount, val := v, dbase := 0, dcap := 0, sbase := 0, slen := 0 }
  | .sencAlloc v => { op := encode .sencCount, val := v, dbase := 0, dcap := 0, sbase := 0, slen := 0 }

/-- The second command of a pseudo-operation: the strict encode into the window `A:n` that the host allocated (R77). -/
def Pseudo.encodeRequest (base n : Nat) : Pseudo → Request
  | .uencAlloc v => { op := encode .uenc, val := v, dbase := base, dcap := n, sbase := 0, slen := 0 }
  | .sencAlloc v => { op := encode .senc, val := v, dbase := base, dcap := n, sbase := 0, slen := 0 }

end Sys2Proof
end

