-- ==== Sys2Proof/Machine/State.lean ====
section
/-! DEFINITION. The machine's state as plain data (spec/10_state.md R20-R32; spec/20_memory.md R40, R47, R48), the state after
reset, and the reasons a step can stop. -/

namespace Sys2Proof.Machine

/-- The SizeClass tiers of R15 and R182; `SizeClass.code` in Ops.lean numbers them. -/
inductive SizeClass where
  | bits8
  | bits32
  | bits64
  | bits128
deriving DecidableEq, Repr

/-- The error kinds of R201; `ErrorKind.code` in Ops.lean numbers them. -/
inductive ErrorKind where
  | none
  | bufferTooSmall
  | incompleteInput
  | overflow
  | narrowingFailure
  | illegalCommand
deriving DecidableEq, Repr

/-- The result record `res = (rval, fits8, fits32, fits64, sclass)` of R24. -/
structure ResultRec where
  rval : Word
  fits8 : Bool
  fits32 : Bool
  fits64 : Bool
  sclass : SizeClass
deriving DecidableEq, Repr

/-- The response register RESP (R23). The reserved bit 15 is no field: it reads 0, in `Resp.packed`. `err` and `n` stay
bit fields, since after reset they may hold codes that no command writes (R31). -/
structure Resp where
  valid : Bool
  ok : Bool
  err : BitVec 3
  n : BitVec 5
  res : ResultRec
deriving DecidableEq, Repr

/-- The byte sink, the external collaborator of R47: what it has received, first byte first, and how many more bytes it
will accept before it holds the block for good (`none`: it accepts every byte; log entry 9). -/
structure Sink where
  received : List Byte
  room : Option Nat
deriving DecidableEq, Repr

/-- What the byte source does once its bytes are gone (R48): it signals exhaustion, or it never answers (log entry 9). -/
inductive SourceEnd where
  | exhausted
  | silent
deriving DecidableEq, Repr

/-- The byte source, the external collaborator of R48: the bytes it still yields, next byte first, its position (R32(a))
and what follows the last byte. -/
structure Source where
  bytes : List Byte
  pos : Nat
  atEnd : SourceEnd
deriving DecidableEq, Repr

/-- The decoders' working registers between two bytes (R28): accumulator, bit offset, index of the next byte. -/
structure Scan where
  acc : Word
  shift : Nat
  i : Nat
deriving DecidableEq, Repr

/-- A sink encode in progress (R28, `out`): the bytes of the encoding still to hand over, and how many have gone. -/
structure SinkTransfer where
  left : List Byte
  sent : Nat
deriving DecidableEq, Repr

/-- A source decode in progress: its signedness and its working registers (R28). -/
structure SourceTransfer where
  sign : Sign
  scan : Scan
deriving DecidableEq, Repr

/-- A stream command that has begun and has not yet written RESP: stream commands take one step per sink or source
byte (spec/92_eei_decisions.md D1; log entry 5). -/
inductive Transfer where
  | sink (t : SinkTransfer)
  | source (t : SourceTransfer)
deriving DecidableEq, Repr

/-- The reset input (R230, R231; log entry 8). `between`: reset finds the block idle, the presented request not yet begun. `during`:
reset hits the presented request while it runs. While a stream command is in progress both abort it. -/
inductive ResetLine where
  | low
  | between
  | during
deriving DecidableEq, Repr

/-- The state: the block's own (R20(a)-(c)), and the three spaces of the host that it reaches (R40). -/
structure State where
  /-- the two open parameters of R7, which no step changes -/
  cfg : Config
  /-- the requests the host has presented and the block has not yet taken, oldest first: the block holds a new request
  until the current command has written RESP (R234; log entry 7) -/
  port : List Request
  /-- the request port's fields as the current command reads them (R21) -/
  req : Request
  /-- the reset input -/
  rst : ResetLine
  /-- the stream command in progress, with its working registers (R28) -/
  busy : Option Transfer
  /-- the response register RESP (R23) -/
  resp : Resp
  /-- host memory (R40(a)): the listed bytes; `Memory.unlisted` is what the others read as -/
  mem : List Host.Cell
  /-- the byte sink (R40(b)) -/
  sink : Sink
  /-- the byte source (R40(c)) -/
  source : Source
  /-- what other agents write into host memory while the next step runs, in order (R55; none in a run without races; log entry 10) -/
  foreign : List Host.Cell
  /-- the model's own counter: how many free values have been drawn (log entry 4) -/
  draws : Nat
deriving DecidableEq, Repr

/-- Why the machine has no next step. -/
inductive Fault where
  /-- the byte sink does not accept the byte that UENC.SINK or SENC.SINK hands it: the command has no next step until
  the sink acts ("Stuck", R47, R218). Safe: nothing is lost, the state before the step stands -/
  | sinkHolds
  /-- the byte source neither yields nor signals to UDEC.SRC or SDEC.SRC: the command has no next step ("stuck", R48,
  R218). Safe: nothing is lost, the state before the step stands -/
  | sourceSilent
deriving DecidableEq, Repr

/-- Why a command has no meaning. -/
inductive Refusal where
  /-- an instruction the model gives no meaning; no arm of `exec` answers it now. Safe: it only stops -/
  | notModelled (mnemonic : String)
  /-- a window that does not fit the address space, in a buffer encode or decode: "A command whose window does not fit
  has no meaning in this spec: the model refuses it" (R41, R206, R218). Safe: it only stops -/
  | windowDoesNotFit
deriving DecidableEq, Repr

/-- The machine right after reset (R31, R230, R232): RESP.valid is 0 and the block is idle with no command in progress.
Every other value is the model's, not the spec's: RESP's other fields, unspecified in R31, are zero (log entry 2), and so
are the inputs, which the host drives; the host's spaces, which reset does not touch, are the emptiest ones (log
entry 3). The two open parameters have no value that can be read here (log entry 1). -/
def State.reset : State where
  cfg := { addrW := Config.hostAddrW, pExcess := Config.hostPExcess }
  port := []
  req := { op := 0, val := 0, dbase := 0, dcap := 0, sbase := 0, slen := 0 }
  rst := .low
  busy := none
  resp := { valid := false, ok := false, err := 0, n := 0,
            res := { rval := 0, fits8 := false, fits32 := false, fits64 := false, sclass := .bits8 } }
  mem := []
  sink := { received := [], room := none }
  source := { bytes := [], pos := 0, atEnd := .exhausted }
  foreign := []
  draws := 0

end Sys2Proof.Machine
end

