-- ==== Sys2Proof/Machine/Operands.lean ====
section
/-! DEFINITION. How a command reads its operands: the two readings of a 128-bit pattern (spec/00_scope.md R9, R10), the fit of a
window and the address of its i-th byte (spec/20_memory.md R41, R42). -/

namespace Sys2Proof.Machine

/-- `uval(x) = x`: the pattern read as unsigned (R9). -/
def uval (x : Word) : Nat := x.toNat

/-- `sval(x)`: the pattern read as two's complement, `x − 2^128` if `x[127] = 1` and `x` otherwise (R9). -/
def sval (x : Word) : Int := if x.getLsbD 127 then (x.toNat : Int) - 2 ^ 128 else (x.toNat : Int)

/-- A window lies inside the address space: `base + len ≤ 2^ADDR_W`; it never wraps (R41). -/
def windowFits (c : Config) (base len : Nat) : Bool := decide (base + len ≤ 2 ^ c.addrW)

/-- `EA(base, i) = base + i` (R42). -/
def effAddr (base i : Nat) : Nat := base + i

/-- The destination window of the current command fits (R41). -/
def dstFits (s : State) : Bool := windowFits s.cfg s.req.dbase s.req.dcap

/-- The source window of the current command fits (R41). -/
def srcFits (s : State) : Bool := windowFits s.cfg s.req.sbase s.req.slen

end Sys2Proof.Machine
end

