-- ==== Sys2Proof/Machine/Flags.lean ====
section
/-! DEFINITION. The flags and the SizeClass (spec/44_classifier.md R180-R182), and DEFAULT_RES (spec/10_state.md R25). `ok` is
written by `respond` in Ops.lean. -/

namespace Sys2Proof.Machine

/-- `fitsN(s, x)` of R180, for `N` in 8, 32, 64: the range of width `N` in the value's own signedness. -/
def fitsIn (sg : Sign) (width : Nat) (x : Word) : Bool :=
  match sg with
  | .unsigned => decide (uval x ≤ 2 ^ width - 1)
  | .signed => decide (-(2 ^ (width - 1)) ≤ sval x) && decide (sval x ≤ 2 ^ (width - 1) - 1)

/-- The smallest tier that holds, Bits128 if none of the narrower ones does (R181). -/
def sizeClassOf (f8 f32 f64 : Bool) : SizeClass :=
  if f8 then .bits8 else if f32 then .bits32 else if f64 then .bits64 else .bits128

/-- The result record `(x, Classify(s, x))` of R181. -/
def classify (sg : Sign) (x : Word) : ResultRec :=
  { rval := x
    fits8 := fitsIn sg 8 x
    fits32 := fitsIn sg 32 x
    fits64 := fitsIn sg 64 x
    sclass := sizeClassOf (fitsIn sg 8 x) (fitsIn sg 32 x) (fitsIn sg 64 x) }

/-- `DEFAULT_RES` (R25): what every failed command and every command without a result value writes. -/
def defaultRes : ResultRec := { rval := 0, fits8 := true, fits32 := true, fits64 := true, sclass := .bits8 }

end Sys2Proof.Machine
end

