-- ==== Sys2Proof/Machine/Ops.lean ====
section
/-! DEFINITION. The named operations over host memory, sink, source, port and RESP (spec/20_memory.md R43-R48; spec/00_scope.md R11,
R12; spec/10_state.md R23). The block takes no exception and returns from none (spec/60_exceptions.md R200, R209, R210): an error is a
response, and `raiseError` is its one shared operation. -/

namespace Sys2Proof.Machine

/-! ### Host memory -/

/-- Host memory: cells with strictly rising addresses, none equal to what an unlisted address reads as. -/
abbrev Memory := List Host.Cell

/-- What a byte of host memory that nothing has written reads as. The spec gives none (log entry 3). -/
def Memory.unlisted : Byte := 0

/-- The canonical form from address `lo` on. -/
def Memory.wfFrom (lo : Nat) : List Host.Cell → Bool
  | [] => true
  | (a, b) :: m => decide (lo ≤ a) && (b != Memory.unlisted && Memory.wfFrom (a + 1) m)

/-- The canonical form: addresses strictly rising, no byte that an unlisted address reads as anyway. -/
def Memory.wf (m : List Host.Cell) : Bool := Memory.wfFrom 0 m

/-- Every listed address lies in the address space `0 .. 2^ADDR_W − 1` (R40(a)). -/
def Memory.within (c : Config) (m : List Host.Cell) : Bool := m.all fun cell => decide (cell.1 < 2 ^ c.addrW)

/-- `MemRead(addr, 1)` (R43). -/
def memRead : List Host.Cell → Nat → Byte
  | [], _ => Memory.unlisted
  | (a, b) :: m, x => if x = a then b else memRead m x

/-- `MemWrite(addr, 1, v)` (R44), keeping the canonical form. -/
def memWrite : List Host.Cell → Nat → Byte → List Host.Cell
  | [], x, v => if v = Memory.unlisted then [] else [(x, v)]
  | (a, b) :: m, x, v =>
    if x < a then
      if v = Memory.unlisted then (a, b) :: m else (x, v) :: (a, b) :: m
    else if x = a then
      if v = Memory.unlisted then m else (x, v) :: m
    else (a, b) :: memWrite m x v

/-- The writes of one buffer encode: the bytes in order, the first at `base`, each once, in increasing index (R46). -/
def memWriteBytes (m : List Host.Cell) (base : Nat) : List Byte → List Host.Cell
  | [] => m
  | b :: bs => memWriteBytes (memWrite m base b) (base + 1) bs

/-! ### Sink and source -/

/-- `SinkPut(b)` (R47): the sink with one byte more, or nothing where the sink does not accept it. -/
def sinkPut (k : Sink) (b : Byte) : Option Sink :=
  match k.room with
  | none => some { k with received := k.received ++ [b] }
  | some 0 => none
  | some (r + 1) => some { received := k.received ++ [b], room := some r }

/-- The answer to one `SourceGet()`. -/
inductive SourceReply where
  /-- a byte, and the source after it: its position has advanced by one -/
  | byte (b : Byte) (rest : Source)
  | exhausted
  /-- the source neither yields nor signals -/
  | silent
deriving DecidableEq, Repr

/-- `SourceGet()` (R48). -/
def sourceGet (c : Source) : SourceReply :=
  match c.bytes with
  | b :: bs => .byte b { c with bytes := bs, pos := c.pos + 1 }
  | [] =>
    match c.atEnd with
    | .exhausted => .exhausted
    | .silent => .silent

/-! ### Responses -/

/-- `RESP.err` codes (R201). -/
def ErrorKind.code : ErrorKind → BitVec 3
  | .none => 0
  | .bufferTooSmall => 1
  | .incompleteInput => 2
  | .overflow => 3
  | .narrowingFailure => 4
  | .illegalCommand => 5

/-- `RESP.sclass` codes (R182). -/
def SizeClass.code : SizeClass → BitVec 2
  | .bits8 => 0
  | .bits32 => 1
  | .bits64 => 2
  | .bits128 => 3

/-- The tier a `sclass` code stands for (R182). -/
def SizeClass.ofCode (c : BitVec 2) : SizeClass :=
  if c = 0 then .bits8 else if c = 1 then .bits32 else if c = 2 then .bits64 else .bits128

/-- RESP as the 144-bit number the host reads: the packed layout of R23, reserved bit 15 reading 0. -/
def Resp.packed (r : Resp) : BitVec 144 :=
  r.res.rval ++ 0#1 ++ r.res.sclass.code ++ BitVec.ofBool r.res.fits64 ++ BitVec.ofBool r.res.fits32 ++
    BitVec.ofBool r.res.fits8 ++ r.n ++ r.err ++ BitVec.ofBool r.ok ++ BitVec.ofBool r.valid

/-- The fields of a packed RESP (R23). -/
def Resp.ofPacked (w : BitVec 144) : Resp :=
  { valid := w.getLsbD 0
    ok := w.getLsbD 1
    err := w.extractLsb' 2 3
    n := w.extractLsb' 5 5
    res := { rval := w.extractLsb' 16 128
             fits8 := w.getLsbD 10
             fits32 := w.getLsbD 11
             fits64 := w.getLsbD 12
             sclass := SizeClass.ofCode (w.extractLsb' 13 2) } }

/-- `respond(ok, err, n, res)` (R12): writes RESP whole and ends the command. -/
def respond (ok : Bool) (err : ErrorKind) (n : Nat) (res : ResultRec) (s : State) : State :=
  { s with
    resp := { valid := true, ok := ok, err := err.code, n := BitVec.ofNat 5 n, res := res }
    busy := none }

/-- `raise <ErrorKind>`: `respond(0, code(ErrorKind), 0, DEFAULT_RES)` (R12). -/
def raiseError (k : ErrorKind) (s : State) : State := respond false k 0 defaultRes s

/-- How a safe command fails: the kind is withheld (R26(b), R203). -/
def safeFailure (s : State) : State := respond false .none 0 defaultRes s

/-- How a command without a result value succeeds: `respond(1, NONE, n, DEFAULT_RES)` (R25). -/
def respondCount (n : Nat) (s : State) : State := respond true .none n defaultRes s

/-- How a command with a result value succeeds: `respond(1, NONE, n, (x, Classify(s, x)))` (R24). -/
def respondValue (sg : Sign) (n : Nat) (x : Word) (s : State) : State := respond true .none n (classify sg x) s

/-! ### The request port -/

/-- The block takes the presented request: its fields are the ones the command reads, the held ones move up (R21, R234). -/
def takeRequest (r : Request) (rest : List Request) (s : State) : State := { s with req := r, port := rest }

/-- A request whose opcode is reserved: IllegalCommand, with no memory, sink or source access (R73, R205). -/
def execReserved (s : State) : Host.Outcome State Fault Refusal := .next (raiseError .illegalCommand s)

end Sys2Proof.Machine
end

