-- ==== Sys2Proof/Machine/Leb128.lean ====
section
/-! DEFINITION. The LEB128 byte format (spec/30_encoding.md R60-R66) and the four shared algorithms: `UEncBytes` (R100), `SEncBytes`
(R140), `UDecScan` (R120) and `SDecScan` (R160), with the operations the commands of one kind share. -/

namespace Sys2Proof.Machine

/-! ### Bytes -/

/-- Bit 7, the continuation bit `C`: more bytes follow (R60). -/
def continues (b : Byte) : Bool := b.getLsbD 7

/-- Bits 6..0, the data bits `D` (R60). -/
def dataBits (b : Byte) : BitVec 7 := b.extractLsb' 0 7

/-- The chunk `v[6:0]` of R100 and R140. -/
def chunk (v : Word) : BitVec 7 := v.extractLsb' 0 7

/-- `zext_8(c)`: the last byte of an encoding, bit 7 clear. -/
def lastByte (c : BitVec 7) : Byte := c.setWidth 8

/-- `0x80 | zext_8(c)`: a byte with the continuation bit set. -/
def moreByte (c : BitVec 7) : Byte := 0x80#8 ||| c.setWidth 8

/-! ### Encoders -/

/-- The loop of R100; the first argument bounds the passes. -/
def uEncLoop : Nat → Word → List Byte
  | 0, _ => []
  | f + 1, v =>
    if v >>> 7 ≠ 0 then moreByte (chunk v) :: uEncLoop f (v >>> 7)
    else [lastByte (chunk v)]

/-- `UEncBytes(u)` (R100): the loop runs at most 19 times. -/
def uEncBytes (u : Word) : List Byte := uEncLoop maxLen u

/-- `UCount(u) = len(UEncBytes(u))` (R101). -/
def uCount (u : Word) : Nat := (uEncBytes u).length

/-- The termination test of R140, after the arithmetic shift: `v` is the shifted value, `c` the chunk. -/
def signedStop (v : Word) (c : BitVec 7) : Bool :=
  (decide (v = 0) && !c.getLsbD 6) || (decide (v = ones) && c.getLsbD 6)

/-- The loop of R140; the first argument bounds the passes. -/
def sEncLoop : Nat → Word → List Byte
  | 0, _ => []
  | f + 1, v =>
    if signedStop (v.sshiftRight 7) (chunk v) then [lastByte (chunk v)]
    else moreByte (chunk v) :: sEncLoop f (v.sshiftRight 7)

/-- `SEncBytes(x)` (R140): the loop runs at most 19 times. -/
def sEncBytes (x : Word) : List Byte := sEncLoop maxLen x

/-- `SCount(x) = len(SEncBytes(x))` (R141). -/
def sCount (x : Word) : Nat := (sEncBytes x).length

/-- The encoding of a value in the signedness `sg`. -/
def encodingOf : Sign → Word → List Byte
  | .unsigned => uEncBytes
  | .signed => sEncBytes

/-! ### Decoders -/

/-- `acc <- 0 ; shift <- 0`, before byte 0 (R120, R160). -/
def Scan.start : Scan := { acc := 0, shift := 0, i := 0 }

/-- The data bits of a terminating 19th byte that lie above bit 127 carry something: unsigned `b[6:2] ≠ 0` (R120);
signed `b[6:1]` neither all 0 nor all 1 (R160). -/
def excess (sg : Sign) (b : Byte) : Bool :=
  match sg with
  | .unsigned => b.extractLsb' 2 5 != 0#5
  | .signed => b.extractLsb' 1 6 != 0#6 && b.extractLsb' 1 6 != 0b111111#6

/-- The sign extension of R160: if `shift < 128` and bit 6 of the last byte is set, bits `shift..127` become 1. -/
def signFill (acc : Word) (shift : Nat) (b : Byte) : Word :=
  if shift < 128 ∧ b.getLsbD 6 = true then acc ||| (ones <<< shift) else acc

/-- The value of a scan whose last byte is `b` (R120, R160). -/
def scanValue (sg : Sign) (acc : Word) (shift : Nat) (b : Byte) : Word :=
  match sg with
  | .unsigned => acc
  | .signed => signFill acc shift b

/-- What reading one byte does to a scan. -/
inductive ScanStep where
  | more (sc : Scan)
  | ok (acc : Word) (n : Nat)
  | overflow
deriving DecidableEq, Repr

/-- One pass of the loop of R120 and R160, with the byte `b` just read; the 19-byte ceiling stands after byte 18. -/
def scanByte (sg : Sign) (p : PExcess) (sc : Scan) (b : Byte) : ScanStep :=
  let acc := sc.acc ||| ((dataBits b).setWidth 128 <<< sc.shift)
  if continues b then
    if sc.i < 18 then .more { acc := acc, shift := sc.shift + 7, i := sc.i + 1 } else .overflow
  else if sc.i = 18 ∧ p = .overflow ∧ excess sg b = true then .overflow
  else .ok (scanValue sg acc (sc.shift + 7) b) (sc.i + 1)

/-- How a scan ends. -/
inductive ScanEnd where
  | ok (acc : Word) (n : Nat)
  | incomplete
  | overflow
deriving DecidableEq, Repr

/-- The loop of R120 and R160 over a getter that answers at once (`none` is `Exhausted`); the first argument bounds the
passes. -/
def scanLoop (sg : Sign) (p : PExcess) (get : Nat → Option Byte) : Nat → Scan → ScanEnd
  | 0, _ => .overflow
  | f + 1, sc =>
    match get sc.i with
    | none => .incomplete
    | some b =>
      match scanByte sg p sc b with
      | .more sc' => scanLoop sg p get f sc'
      | .ok acc n => .ok acc n
      | .overflow => .overflow

/-- `UDecScan(get)` (R120). -/
def uDecScan (p : PExcess) (get : Nat → Option Byte) : ScanEnd := scanLoop .unsigned p get maxLen Scan.start

/-- `SDecScan(get)` (R160). -/
def sDecScan (p : PExcess) (get : Nat → Option Byte) : ScanEnd := scanLoop .signed p get maxLen Scan.start

/-- `getBuf(i)` (R121): the byte at `sbase + i` inside the source window, `Exhausted` past it. -/
def getBuf (s : State) (i : Nat) : Option Byte :=
  if i < s.req.slen then some (memRead s.mem (effAddr s.req.sbase i)) else none

/-! ### What the commands of one kind share -/

/-- A buffer encode of `bytes` (R103, R104, R143, R144): the window must fit (R206); the capacity test comes before any
write, and `onSmall` is how the command fails it. -/
def encodeToBuffer (bytes : List Byte) (onSmall : State → State) (s : State) : Host.Outcome State Fault Refusal :=
  if dstFits s then
    if s.req.dcap < bytes.length then .next (onSmall s)
    else .next (respondCount bytes.length { s with mem := memWriteBytes s.mem (effAddr s.req.dbase 0) bytes })
  else .refused .windowDoesNotFit

/-- The end of a strict decode (R123, R163). -/
def finishStrict (sg : Sign) (e : ScanEnd) (s : State) : State :=
  match e with
  | .ok acc n => respondValue sg n acc s
  | .incomplete => raiseError .incompleteInput s
  | .overflow => raiseError .overflow s

/-- The end of a safe decode (R122, R162): the kind is withheld. -/
def finishSafe (sg : Sign) (e : ScanEnd) (s : State) : State :=
  match e with
  | .ok acc n => respondValue sg n acc s
  | .incomplete => safeFailure s
  | .overflow => safeFailure s

/-- One step of a sink encode: hand over one byte; with the last one the command ends, RESP.n counting the calls
(R105, R145). A transfer with nothing left, which no run reaches, ends at once. -/
def sinkStep (t : SinkTransfer) (s : State) : Host.Outcome State Fault Refusal :=
  match t.left with
  | [] => .next (respondCount t.sent s)
  | b :: rest =>
    match sinkPut s.sink b with
    | none => .fault .sinkHolds
    | some k =>
      match rest with
      | [] => .next (respondCount (t.sent + 1) { s with sink := k })
      | _ :: _ => .next { s with sink := k, busy := some (.sink { left := rest, sent := t.sent + 1 }) }

/-- One step of a source decode: pull one byte, or meet exhaustion; a pulled byte stays consumed (R124, R164). -/
def sourceStep (t : SourceTransfer) (s : State) : Host.Outcome State Fault Refusal :=
  match sourceGet s.source with
  | .silent => .fault .sourceSilent
  | .exhausted => .next (finishStrict t.sign .incomplete s)
  | .byte b src =>
    match scanByte t.sign s.cfg.pExcess t.scan b with
    | .more sc => .next { s with source := src, busy := some (.source { sign := t.sign, scan := sc }) }
    | .ok acc n => .next (finishStrict t.sign (.ok acc n) { s with source := src })
    | .overflow => .next (finishStrict t.sign .overflow { s with source := src })

/-- The next step of a stream command in progress. -/
def transferStep (t : Transfer) (s : State) : Host.Outcome State Fault Refusal :=
  match t with
  | .sink t => sinkStep t s
  | .source t => sourceStep t s

end Sys2Proof.Machine
end

