-- ==== Sys2Proof/Machine/Reset.lean ====
section
/-! DEFINITION. Reset as an event (spec/70_reset_and_hazards.md R230, R231): what it clears, and what a command it hits has done by
then. Everything the spec leaves unspecified there is a free value of Config, drawn at the state's counter. -/

namespace Sys2Proof.Machine

/-- How many free values one reset draws: a byte for each of the 19 bytes an encode may have been writing. -/
def drawsPerReset : Nat := maxLen

/-- A reset of the block itself (R230, R31): RESP.valid is 0, every other field of RESP is a draw (log entry 4), no command is in
progress. Host memory, sink, source and port belong to the host and stay. -/
def resetBlock (s : State) : State :=
  { s with
    rst := .low
    busy := none
    resp := { Resp.ofPacked (Config.freeResp s.draws) with valid := false }
    draws := s.draws + drawsPerReset }

/-- A number drawn from `0 .. most`. -/
def drawUpTo (most : Nat) (s : State) : Nat := Config.freeCount s.draws % (most + 1)

/-- How many of the sink's bytes `k` may still be: no more than the sink accepts. -/
def sinkLimit (k : Sink) (n : Nat) : Nat :=
  match k.room with
  | none => n
  | some r => min n r

/-- The sink after it has accepted `bs`. -/
def sinkAfter (k : Sink) (bs : List Byte) : Sink :=
  { received := k.received ++ bs, room := k.room.map (· - bs.length) }

/-- How many bytes a source decode would still pull from `bytes`. -/
def pullCount (sg : Sign) (p : PExcess) : Scan → List Byte → Nat
  | _, [] => 0
  | sc, b :: bs =>
    match scanByte sg p sc b with
    | .more sc' => pullCount sg p sc' bs + 1
    | .ok _ _ => 1
    | .overflow => 1

/-- The source after `k` pulls. -/
def sourceAfter (c : Source) (k : Nat) : Source := { c with bytes := c.bytes.drop k, pos := c.pos + k }

/-- A stream command aborted by reset (R231(b), (c)): the sink has received some further bytes of the encoding, in
order; the source has lost some further bytes, at most those the command would have pulled. -/
def abortTransfer (t : Transfer) (s : State) : State :=
  match t with
  | .sink t => { s with sink := sinkAfter s.sink (t.left.take (sinkLimit s.sink (drawUpTo t.left.length s))) }
  | .source t =>
    { s with source := sourceAfter s.source (drawUpTo (pullCount t.sign s.cfg.pExcess t.scan s.source.bytes) s) }

/-- `n` free bytes from the draw `d` on. -/
def freeBytes (d n : Nat) : List Byte := (List.range n).map fun k => Config.freeByte (d + k)

/-- A buffer encode aborted by reset (R231(a)): each byte of `DST[0 .. n−1]` holds any value, if the encoding fits; a
command that would have failed writes nothing. -/
def abortEncode (bytes : List Byte) (s : State) : Host.Outcome State Fault Refusal :=
  if dstFits s then
    if s.req.dcap < bytes.length then .next s
    else .next { s with mem := memWriteBytes s.mem (effAddr s.req.dbase 0) (freeBytes s.draws bytes.length) }
  else .refused .windowDoesNotFit

/-- A buffer decode aborted by reset has no partial effect (R231(d)). -/
def abortDecode (s : State) : Host.Outcome State Fault Refusal :=
  if srcFits s then .next s else .refused .windowDoesNotFit

/-- The partial effects of a command that reset hits while it runs (R231). -/
def abortCommand (i : Instr) (s : State) : Host.Outcome State Fault Refusal :=
  match i with
  | .uencTry | .uenc => abortEncode (uEncBytes s.req.val) s
  | .sencTry | .senc => abortEncode (sEncBytes s.req.val) s
  | .uencSink => .next (abortTransfer (.sink { left := uEncBytes s.req.val, sent := 0 }) s)
  | .sencSink => .next (abortTransfer (.sink { left := sEncBytes s.req.val, sent := 0 }) s)
  | .udecSrc => .next (abortTransfer (.source { sign := .unsigned, scan := Scan.start }) s)
  | .sdecSrc => .next (abortTransfer (.source { sign := .signed, scan := Scan.start }) s)
  | .udecTry | .udec | .sdecTry | .sdec => abortDecode s
  | .uencCount | .sencCount => .next s
  | .narrowU8 | .narrowU32 | .narrowU64 | .narrowU128 | .clsU => .next s
  | .narrowS8 | .narrowS32 | .narrowS64 | .narrowS128 | .clsS => .next s

/-- The reset event hits the presented request `r` while it runs (R231). -/
def resetDuring (r : Request) (rest : List Request) (s : State) : Host.Outcome State Fault Refusal :=
  match decode r.op with
  | .error .reserved => .next (resetBlock (takeRequest r rest s))
  | .ok i =>
    match abortCommand i (takeRequest r rest s) with
    | .next s' => .next (resetBlock s')
    | .fault e => .fault e
    | .refused e => .refused e

/-- The reset event; the reset input falls again (log entry 8). -/
def resetStep (s : State) : Host.Outcome State Fault Refusal :=
  match s.busy, s.rst, s.port with
  | some t, _, _ => .next (resetBlock (abortTransfer t s))
  | none, .during, r :: rest => resetDuring r rest s
  | none, _, _ => .next (resetBlock s)

end Sys2Proof.Machine
end

