-- ==== Sys2Proof/Machine/Environment.lean ====
section
/-! DEFINITION. What the host, its collaborators and other agents do between two steps (spec/70_reset_and_hazards.md R233,
R236, R237; spec/10_state.md R21): the inputs of the block. No step of the block does any of this. -/

namespace Sys2Proof.Machine

/-- One action of the outside world. -/
inductive HostAction where
  /-- presents a request on the port; it is held behind the ones already there (R21, R234) -/
  | present (r : Request)
  /-- writes a byte of the host's own memory (R233(1)) -/
  | poke (a : Nat) (b : Byte)
  /-- another agent writes a byte of host memory while the block's next step runs (R55) -/
  | foreignWrite (a : Nat) (b : Byte)
  /-- the source gets further bytes to yield, after those it has (R48) -/
  | feed (bs : List Byte)
  /-- what the source does once its bytes are gone (R48) -/
  | endSource (e : SourceEnd)
  /-- how many more bytes the sink will accept (R47) -/
  | sinkRoom (room : Option Nat)
  /-- raises the reset input (R230, R231) -/
  | raiseReset (line : ResetLine)
deriving DecidableEq, Repr

/-- A host action on the state. A request the port cannot carry (R21) and a write outside the address space (R40) are no
actions: nothing happens (log entry 11). -/
def hostAct (a : HostAction) (s : State) : State :=
  match a with
  | .present r => if r.wf s.cfg then { s with port := s.port ++ [r] } else s
  | .poke x b => if x < 2 ^ s.cfg.addrW then { s with mem := memWrite s.mem x b } else s
  | .foreignWrite x b => if x < 2 ^ s.cfg.addrW then { s with foreign := s.foreign ++ [(x, b)] } else s
  | .feed bs => { s with source := { s.source with bytes := s.source.bytes ++ bs } }
  | .endSource e => { s with source := { s.source with atEnd := e } }
  | .sinkRoom room => { s with sink := { s.sink with room := room } }
  | .raiseReset line => { s with rst := line }

/-- What the host may read of RESP (R235(a)): nothing while `RESP.valid = 0`, else the packed register. -/
def hostReadResp (s : State) : Option (BitVec 144) := if s.resp.valid then some s.resp.packed else none

end Sys2Proof.Machine
end

