-- ==== Sys2Proof/Machine/Classifier.lean ====
section
/-! DEFINITION. The classifier's commands (spec/44_classifier.md R183-R195). -/

namespace Sys2Proof.Machine

/-- The classification accessors and the 128-bit accessors: `respond(1, NONE, 0, (val, Classify(s, val)))` (R183, R185). -/
def answerClassified (sg : Sign) (s : State) : State := respondValue sg 0 s.req.val s

/-- A checked narrowing accessor (R184): `fits` is the flag of its width. -/
def narrow (sg : Sign) (fits : ResultRec → Bool) (s : State) : State :=
  if fits (classify sg s.req.val) then answerClassified sg s else raiseError .narrowingFailure s

/-- CLS.U (R186). -/
def execClsU (s : State) : Host.Outcome State Fault Refusal := .next (answerClassified .unsigned s)

/-- CLS.S (R187). -/
def execClsS (s : State) : Host.Outcome State Fault Refusal := .next (answerClassified .signed s)

/-- NARROW.U8 (R188). -/
def execNarrowU8 (s : State) : Host.Outcome State Fault Refusal := .next (narrow .unsigned ResultRec.fits8 s)

/-- NARROW.U32 (R189). -/
def execNarrowU32 (s : State) : Host.Outcome State Fault Refusal := .next (narrow .unsigned ResultRec.fits32 s)

/-- NARROW.U64 (R190). -/
def execNarrowU64 (s : State) : Host.Outcome State Fault Refusal := .next (narrow .unsigned ResultRec.fits64 s)

/-- NARROW.U128 (R191). -/
def execNarrowU128 (s : State) : Host.Outcome State Fault Refusal := .next (answerClassified .unsigned s)

/-- NARROW.S8 (R192). -/
def execNarrowS8 (s : State) : Host.Outcome State Fault Refusal := .next (narrow .signed ResultRec.fits8 s)

/-- NARROW.S32 (R193). -/
def execNarrowS32 (s : State) : Host.Outcome State Fault Refusal := .next (narrow .signed ResultRec.fits32 s)

/-- NARROW.S64 (R194). -/
def execNarrowS64 (s : State) : Host.Outcome State Fault Refusal := .next (narrow .signed ResultRec.fits64 s)

/-- NARROW.S128 (R195). -/
def execNarrowS128 (s : State) : Host.Outcome State Fault Refusal := .next (answerClassified .signed s)

end Sys2Proof.Machine
end

