-- ==== Sys2Proof/Machine/SignedDecoder.lean ====
section
/-! DEFINITION. The signed decoder's commands (spec/43_signed_decoder.md R161-R164). -/

namespace Sys2Proof.Machine

/-- SDEC.TRY (R162). -/
def execSdecTry (s : State) : Host.Outcome State Fault Refusal :=
  if srcFits s then .next (finishSafe .signed (sDecScan s.cfg.pExcess (getBuf s)) s)
  else .refused .windowDoesNotFit

/-- SDEC (R163). -/
def execSdec (s : State) : Host.Outcome State Fault Refusal :=
  if srcFits s then .next (finishStrict .signed (sDecScan s.cfg.pExcess (getBuf s)) s)
  else .refused .windowDoesNotFit

/-- SDEC.SRC (R164): its first pull; `transferStep` makes the others, one a step (D1). -/
def execSdecSrc (s : State) : Host.Outcome State Fault Refusal :=
  sourceStep { sign := .signed, scan := Scan.start } s

end Sys2Proof.Machine
end

