-- ==== Sys2Proof/Machine/SignedEncoder.lean ====
section
/-! DEFINITION. The signed encoder's commands (spec/42_signed_encoder.md R142-R145). -/

namespace Sys2Proof.Machine

/-- SENC.COUNT (R142). -/
def execSencCount (s : State) : Host.Outcome State Fault Refusal := .next (respondCount (sCount s.req.val) s)

/-- SENC.TRY (R143). -/
def execSencTry (s : State) : Host.Outcome State Fault Refusal := encodeToBuffer (sEncBytes s.req.val) safeFailure s

/-- SENC (R144). -/
def execSenc (s : State) : Host.Outcome State Fault Refusal :=
  encodeToBuffer (sEncBytes s.req.val) (raiseError .bufferTooSmall) s

/-- SENC.SINK (R145): its first byte; `transferStep` hands over the others, one a step (D1). -/
def execSencSink (s : State) : Host.Outcome State Fault Refusal :=
  sinkStep { left := sEncBytes s.req.val, sent := 0 } s

end Sys2Proof.Machine
end

