-- ==== Sys2Proof/Machine/UnsignedDecoder.lean ====
section
/-! DEFINITION. The unsigned decoder's commands (spec/41_unsigned_decoder.md R122-R124). -/

namespace Sys2Proof.Machine

/-- UDEC.TRY (R122). -/
def execUdecTry (s : State) : Host.Outcome State Fault Refusal :=
  if srcFits s then .next (finishSafe .unsigned (uDecScan s.cfg.pExcess (getBuf s)) s)
  else .refused .windowDoesNotFit

/-- UDEC (R123). -/
def execUdec (s : State) : Host.Outcome State Fault Refusal :=
  if srcFits s then .next (finishStrict .unsigned (uDecScan s.cfg.pExcess (getBuf s)) s)
  else .refused .windowDoesNotFit

/-- UDEC.SRC (R124): its first pull; `transferStep` makes the others, one a step (D1). -/
def execUdecSrc (s : State) : Host.Outcome State Fault Refusal :=
  sourceStep { sign := .unsigned, scan := Scan.start } s

end Sys2Proof.Machine
end

