-- ==== Sys2Proof/Machine/UnsignedEncoder.lean ====
section
/-! DEFINITION. The unsigned encoder's commands (spec/40_unsigned_encoder.md R102-R105). -/

namespace Sys2Proof.Machine

/-- UENC.COUNT (R102). -/
def execUencCount (s : State) : Host.Outcome State Fault Refusal := .next (respondCount (uCount s.req.val) s)

/-- UENC.TRY (R103). -/
def execUencTry (s : State) : Host.Outcome State Fault Refusal := encodeToBuffer (uEncBytes s.req.val) safeFailure s

/-- UENC (R104). -/
def execUenc (s : State) : Host.Outcome State Fault Refusal :=
  encodeToBuffer (uEncBytes s.req.val) (raiseError .bufferTooSmall) s

/-- UENC.SINK (R105): its first byte; `transferStep` hands over the others, one a step (D1). -/
def execUencSink (s : State) : Host.Outcome State Fault Refusal :=
  sinkStep { left := uEncBytes s.req.val, sent := 0 } s

end Sys2Proof.Machine
end

