-- ==== Sys2Proof/Machine/Dispatch.lean ====
section
/-! DEFINITION. The meaning of every command: one arm per constructor of Instr. The command reads its operands from `s.req`. -/

namespace Sys2Proof.Machine

def exec (i : Instr) (s : State) : Host.Outcome State Fault Refusal :=
  match i with
  | .uencCount => Sys2Proof.Machine.execUencCount s
  | .uencTry => Sys2Proof.Machine.execUencTry s
  | .uenc => Sys2Proof.Machine.execUenc s
  | .uencSink => Sys2Proof.Machine.execUencSink s
  | .udecTry => Sys2Proof.Machine.execUdecTry s
  | .udec => Sys2Proof.Machine.execUdec s
  | .udecSrc => Sys2Proof.Machine.execUdecSrc s
  | .sencCount => Sys2Proof.Machine.execSencCount s
  | .sencTry => Sys2Proof.Machine.execSencTry s
  | .senc => Sys2Proof.Machine.execSenc s
  | .sencSink => Sys2Proof.Machine.execSencSink s
  | .sdecTry => Sys2Proof.Machine.execSdecTry s
  | .sdec => Sys2Proof.Machine.execSdec s
  | .sdecSrc => Sys2Proof.Machine.execSdecSrc s
  | .narrowU8 => Sys2Proof.Machine.execNarrowU8 s
  | .narrowU32 => Sys2Proof.Machine.execNarrowU32 s
  | .narrowU64 => Sys2Proof.Machine.execNarrowU64 s
  | .narrowU128 => Sys2Proof.Machine.execNarrowU128 s
  | .clsU => Sys2Proof.Machine.execClsU s
  | .narrowS8 => Sys2Proof.Machine.execNarrowS8 s
  | .narrowS32 => Sys2Proof.Machine.execNarrowS32 s
  | .narrowS64 => Sys2Proof.Machine.execNarrowS64 s
  | .narrowS128 => Sys2Proof.Machine.execNarrowS128 s
  | .clsS => Sys2Proof.Machine.execClsS s

end Sys2Proof.Machine
end

