-- ==== Sys2Proof/Machine/Block.lean ====
section
/-! DEFINITION. What one step of the block does when no other agent writes host memory meanwhile (spec/20_memory.md R54;
spec/92_eei_decisions.md D1): a buffer, count or classifier command is one step, a stream command one step per sink or source byte; a
raised reset input comes first. -/

namespace Sys2Proof.Machine

/-- Runs the request just taken from the port: a reserved opcode is decided first, from `op` alone (R206). -/
def runRequest (s : State) : Host.Outcome State Fault Refusal :=
  match decode s.req.op with
  | .ok i => exec i s
  | .error .reserved => execReserved s

/-- A step of the block when reset is not raised: a stream command in progress goes on, a new request being held
(R234); else the oldest presented request is taken and run; else the block is idle (R232). -/
def blockStep (s : State) : Host.Outcome State Fault Refusal :=
  match s.busy, s.port with
  | some t, _ => transferStep t s
  | none, r :: rest => runRequest (takeRequest r rest s)
  | none, [] => .next s

/-- One step of the block. -/
def stepAlone (s : State) : Host.Outcome State Fault Refusal :=
  match s.rst with
  | .low => blockStep s
  | .between => resetStep s
  | .during => resetStep s

end Sys2Proof.Machine
end

