-- ==== Sys2Proof/Machine/Races.lean ====
section
/-! DEFINITION. Other agents that write host memory while a command runs (spec/20_memory.md R55,
spec/70_reset_and_hazards.md R236(b), spec/60_exceptions.md R215, R218): a race on a byte of the command's windows is a draw,
a write to any other byte just happens. What another agent
reads of DST (R55(c)) only that agent could tell (log entry 10). -/

namespace Sys2Proof.Machine

/-- The command that the next step begins, with its request. -/
def startedCommand (s : State) : Option (Instr × Request) :=
  match s.rst, s.busy, s.port with
  | .between, _, _ => none
  | _, some _, _ => none
  | _, none, [] => none
  | _, none, r :: _ =>
    match decode r.op with
    | .ok i => some (i, r)
    | .error .reserved => none

/-- The next step begins a buffer decode. -/
def startsDecode (s : State) : Bool :=
  match startedCommand s with
  | some (i, _) => i.readsSrc
  | none => false

/-- The command that the next step begins may read the byte at `a`: a byte of SRC (R45). -/
def mayRead (s : State) (a : Nat) : Bool :=
  match startedCommand s with
  | some (i, r) => i.readsSrc && (decide (r.sbase ≤ a) && decide (a < r.sbase + r.slen))
  | none => false

/-- The byte at `a` lies in DST of the command that the next step begins (R41). -/
def inDst (s : State) (a : Nat) : Bool :=
  match startedCommand s with
  | some (i, r) => i.readsDst && (decide (r.dbase ≤ a) && decide (a < r.dbase + r.dcap))
  | none => false

/-- The command that the next step begins writes the byte at `a`: a byte of `DST[0 .. n−1]`, if the encoding fits (R46). -/
def writesByte (s : State) (a : Nat) : Bool :=
  match startedCommand s with
  | some (i, r) =>
    let n := (encodingOf i.sign r.val).length
    i.readsDst && decide (n ≤ r.dcap) && (decide (r.dbase ≤ a) && decide (a < r.dbase + n))
  | none => false

/-- What another agent writes to the byte at `a` may leave any value there (R236(b), D17, I6): the byte lies in a window that
the command uses, and it is none of those that R55(a) speaks of. -/
def anyValueAfter (s : State) (a : Nat) : Bool := (mayRead s a || inDst s a) && !writesByte s a

/-- Host memory as the command reads it: a byte it may read and another agent writes reads as any value (R55(b)). The free
values start at the draw `d`. -/
def memSeen (s : State) : Nat → List Host.Cell → List Host.Cell → List Host.Cell
  | _, [], m => m
  | d, (a, _) :: ws, m => memSeen s (d + 1) ws (if mayRead s a then memWrite m a (Config.freeByte d) else m)

/-- The byte at `a` after the command and another agent's write of `v` to it, `m` being the memory the command leaves: either
writer's value if the command writes it too (R55(a)), any value at any other byte of its windows (R236(b)), and elsewhere
`v`. -/
def otherWrite (s : State) (d a : Nat) (v : Byte) (m : List Host.Cell) : List Host.Cell :=
  if writesByte s a = true ∧ Config.freeCount d % 2 = 0 then m
  else memWrite m a (if anyValueAfter s a then Config.freeByte d else v)

/-- Host memory after the writes of the other agents. The free values start at the draw `d`. -/
def memAfter (s : State) : Nat → List Host.Cell → List Host.Cell → List Host.Cell
  | _, [], m => m
  | d, (a, v) :: ws, m => memAfter s (d + 1) ws (otherWrite s d a v m)

/-- One step while other agents write host memory: each of their writes has one draw for what the command reads, and one for
what it leaves. A decode writes no memory itself, so what it saw does not stay. -/
def stepAmongOthers (s : State) : Host.Outcome State Fault Refusal :=
  let k := s.foreign.length
  match stepAlone { s with mem := memSeen s s.draws s.foreign s.mem, foreign := [], draws := s.draws + 2 * k } with
  | .next t => .next { t with mem := memAfter s (s.draws + k) s.foreign (if startsDecode s then s.mem else t.mem) }
  | .fault e => .fault e
  | .refused e => .refused e

/-- One step, with or without other agents. -/
def stepWith (s : State) : Host.Outcome State Fault Refusal :=
  match s.foreign with
  | [] => stepAlone s
  | _ :: _ => stepAmongOthers s

end Sys2Proof.Machine
end

