-- ==== Sys2Proof/Machine/Step.lean ====
section
/-! DEFINITION. One step of the machine, and how a command is put where the next step runs it. -/

namespace Sys2Proof.Machine

/-- One step (R54, R55). -/
def step (s : State) : Host.Outcome State Fault Refusal := stepWith s

/-- `s` with the command `w` on the request port, its operands the ones presented (or the port's last ones): the block is
idle and reset is not raised, so the next step runs it (log entry 7). -/
def State.withFetchWord (s : State) (nbits w : Nat) : State :=
  let op := BitVec.ofNat 8 (w % 2 ^ nbits)
  { s with
    rst := .low
    busy := none
    port :=
      match s.port with
      | r :: rest => { r with op := op } :: rest
      | [] => [{ s.req with op := op }] }

end Sys2Proof.Machine
end

