-- ==== Sys2Proof/Safety.lean ====
section
/-! DEFINITION. The terms the claims use: runs of steps and of host actions, the invariant of a safe state, and the spec's closed
forms (R66, R101, R141, R180) and answers, written in plain arithmetic and apart from the machine's own loops. -/

namespace Sys2Proof.Machine

/-! ### Runs -/

/-- `k` steps, stopping at the first stop. -/
def run : Nat → State → Host.Outcome State Fault Refusal
  | 0, s => .next s
  | k + 1, s =>
    match step s with
    | .next s' => run k s'
    | .fault e => .fault e
    | .refused e => .refused e

/-- One event of a whole history: the outside world acts, or the block takes a step. -/
inductive Event where
  | host (a : HostAction)
  | step
deriving DecidableEq, Repr

/-- A history: host actions may stand between any two steps, also inside a stream command. -/
def runEvents : List Event → State → Host.Outcome State Fault Refusal
  | [], s => .next s
  | .host a :: es, s => runEvents es (hostAct a s)
  | .step :: es, s =>
    match step s with
    | .next s' => runEvents es s'
    | .fault e => .fault e
    | .refused e => .refused e

/-- The next state changed by `f`; a stop stays as it is. -/
def mapNext (f : State → State) : Host.Outcome State Fault Refusal → Host.Outcome State Fault Refusal
  | .next s => .next (f s)
  | .fault e => .fault e
  | .refused e => .refused e

/-! ### Answers, field by field (R23-R26) -/

/-- The value range of width `width` in the signedness `sg` (R180). -/
def inRange (sg : Sign) (width : Nat) (x : Word) : Bool :=
  match sg with
  | .unsigned => decide (x.toNat < 2 ^ width)
  | .signed => decide (-(2 ^ (width - 1)) ≤ x.toInt) && decide (x.toInt < 2 ^ (width - 1))

/-- The result record of value `x`: every flag is the range of its width, the class is the least that holds (R181). -/
def resultOf (sg : Sign) (x : Word) : ResultRec :=
  { rval := x
    fits8 := inRange sg 8 x
    fits32 := inRange sg 32 x
    fits64 := inRange sg 64 x
    sclass := if inRange sg 8 x then .bits8 else if inRange sg 32 x then .bits32
      else if inRange sg 64 x then .bits64 else .bits128 }

/-- The result record of a failure and of a command without a result value (R25). -/
def zeroResult : ResultRec := { rval := 0, fits8 := true, fits32 := true, fits64 := true, sclass := .bits8 }

/-- RESP after a count or an encode of `n` bytes. -/
def encodedAnswer (n : Nat) : Resp := { valid := true, ok := true, err := 0, n := BitVec.ofNat 5 n, res := zeroResult }

/-- RESP after a command with the result value `x`. -/
def valueAnswer (n : Nat) (sg : Sign) (x : Word) : Resp :=
  { valid := true, ok := true, err := 0, n := BitVec.ofNat 5 n, res := resultOf sg x }

/-- RESP after a failure (R26(b)-(d)): the code is 0 for a safe command. -/
def errorAnswer (code : BitVec 3) : Resp := { valid := true, ok := false, err := code, n := 0, res := zeroResult }

/-! ### The format in closed form -/

/-- `n` is the least `n ≥ 1` with `u < 2^(7n)` (R101). -/
def UnsignedLen (x : Word) (n : Nat) : Prop :=
  1 ≤ n ∧ x.toNat < 2 ^ (7 * n) ∧ ∀ m, 1 ≤ m → m < n → 2 ^ (7 * m) ≤ x.toNat

/-- `n` is the least `n ≥ 1` with `−2^(7n−1) ≤ z < 2^(7n−1)` (R141). -/
def SignedLen (x : Word) (n : Nat) : Prop :=
  1 ≤ n ∧ (-(2 ^ (7 * n - 1)) ≤ x.toInt ∧ x.toInt < 2 ^ (7 * n - 1)) ∧
    ∀ m, 1 ≤ m → m < n → ¬(-(2 ^ (7 * m - 1)) ≤ x.toInt ∧ x.toInt < 2 ^ (7 * m - 1))

/-- The length of an encoding in the signedness `sg`. -/
def EncLen : Sign → Word → Nat → Prop
  | .unsigned => UnsignedLen
  | .signed => SignedLen

/-- Byte `k` of an `n`-byte encoding: value bits `7k+6 .. 7k` of the value read in its signedness, and the continuation
bit on every byte but the last (R49, R61). -/
def encByte (sg : Sign) (x : Word) (n k : Nat) : Byte :=
  let more := if k + 1 < n then 128 else 0
  match sg with
  | .unsigned => BitVec.ofNat 8 (x.toNat / 2 ^ (7 * k) % 128 + more)
  | .signed => BitVec.ofNat 8 ((x.toInt / 2 ^ (7 * k) % 128).toNat + more)

/-- The first `j` bytes of an `n`-byte encoding. -/
def encBytes (sg : Sign) (x : Word) (n j : Nat) : List Byte := (List.range j).map (encByte sg x n)

/-- `Σ_{k<n} D(e_k) · 2^(7k)`, the data bits of `n` bytes (R66). -/
def chunkSum (get : Nat → Byte) : Nat → Nat
  | 0 => 0
  | n + 1 => chunkSum get n + (get n).toNat % 128 * 2 ^ (7 * n)

/-- The value of `n` scanned bytes (R66): modulo 2^128, and in the signed reading `2^(7n)` less when `7n < 128` and bit 6
of the last byte is set. -/
def decodedValue (sg : Sign) (get : Nat → Byte) (n : Nat) : Word :=
  match sg with
  | .unsigned => BitVec.ofNat 128 (chunkSum get n)
  | .signed =>
    BitVec.ofInt 128 ((chunkSum get n : Int) - if n ≤ 18 ∧ 64 ≤ (get (n - 1)).toNat % 128 then 2 ^ (7 * n) else 0)

/-- A terminating 19th byte `b` fits 128 bits: unsigned, it is below 4; signed, its bits 6..1 are all equal (R120, R160). -/
def LastByteFits : Sign → Byte → Prop
  | .unsigned, b => b.toNat < 4
  | .signed, b => b.toNat < 2 ∨ (126 ≤ b.toNat ∧ b.toNat < 128)

/-- `n` bytes are a whole encoding: every byte but the last continues, the last does not, and a 19th byte is one that
`P_EXCESS` lets pass. -/
def WholeEncoding (sg : Sign) (p : PExcess) (get : Nat → Byte) (n : Nat) : Prop :=
  1 ≤ n ∧ n ≤ 19 ∧ (∀ k, k + 1 < n → 128 ≤ (get k).toNat) ∧ (get (n - 1)).toNat < 128 ∧
    (n = 19 → p = .overflow → LastByteFits sg (get 18))

/-- The two cases of Overflow: 19 bytes that all continue, or under `P_EXCESS = Overflow` a 19th byte that terminates
with bits above bit 127. -/
def OverlongEncoding (sg : Sign) (p : PExcess) (get : Nat → Byte) : Prop :=
  (∀ k, k < 18 → 128 ≤ (get k).toNat) ∧
    (128 ≤ (get 18).toNat ∨ ((get 18).toNat < 128 ∧ p = .overflow ∧ ¬LastByteFits sg (get 18)))

/-- The sink after `n` accepted bytes `bs`. -/
def sinkGot (k : Sink) (bs : List Byte) (n : Nat) : Sink := { received := k.received ++ bs, room := k.room.map (· - n) }

/-- The source after `n` pulls. -/
def sourceGave (c : Source) (n : Nat) : Source := { c with bytes := c.bytes.drop n, pos := c.pos + n }

/-! ### The invariant -/

/-- RESP holds a command's answer (R24, R26): on success NONE, a count of at most 19 and the classification of its value
in one signedness; on failure `n = 0`, DEFAULT_RES and a code that R201 lists. -/
def Resp.Coherent (r : Resp) : Prop :=
  (r.ok = true → r.err = 0 ∧ r.n.toNat ≤ 19 ∧ ∃ sg, r.res = resultOf sg r.res.rval) ∧
    (r.ok = false → r.err.toNat ≤ 5 ∧ r.n = 0 ∧ r.res = zeroResult)

/-- A stream command in progress stands between two of its at most 19 bytes (R28): some are gone, some may come. -/
def Transfer.InProgress : Transfer → Prop
  | .sink t => 1 ≤ t.sent ∧ 1 ≤ t.left.length ∧ t.sent + t.left.length ≤ 19
  | .source t =>
    1 ≤ t.scan.i ∧ t.scan.i ≤ 18 ∧ t.scan.shift = 7 * t.scan.i ∧ t.scan.acc.toNat < 2 ^ (7 * t.scan.i)

/-- The invariant of a safe state: host memory is in canonical form and inside the address space (R40), RESP holds an
answer unless `valid = 0` (R31), a stream command in progress stands between two bytes, every held request is one the
port can carry (R21), and other agents write inside the address space too. -/
structure State.Inv (s : State) : Prop where
  memory_canonical : Memory.wf s.mem = true
  memory_in_space : Memory.within s.cfg s.mem = true
  resp_coherent : s.resp.valid = true → s.resp.Coherent
  transfer_in_progress : ∀ t, s.busy = some t → t.InProgress
  port_carries : ∀ r ∈ s.port, r.wf s.cfg = true
  foreign_in_space : ∀ c ∈ s.foreign, c.1 < 2 ^ s.cfg.addrW

end Sys2Proof.Machine
end

