-- ==== Sys2Proof/Certificates/Slice0/Obligations.lean ====
section
/-! DEFINITION. The statements for the provers. Each docstring names the rule of spec/ that its statement formalises. -/

open Sys2Proof Sys2Proof.Machine

/-! ### Decoding and the step -/

/-- R71, R75: the decoder and the opcode map agree in both directions, on every 8-bit word and every command. -/
def Obligations.DecodeInvertsEncode : Prop :=
  ∀ (op : BitVec 8) (i : Instr), decode op = .ok i ↔ encode i = op

/-- R73: the reserved opcodes are exactly the listed ranges, 232 of them. -/
def Obligations.ReservedOpcodesAreTheListedRanges : Prop :=
  (∀ op : BitVec 8, decode op = .error .reserved ↔
    (0x04 ≤ op.toNat ∧ op.toNat ≤ 0x0F) ∨ (0x13 ≤ op.toNat ∧ op.toNat ≤ 0x1F) ∨
    (0x24 ≤ op.toNat ∧ op.toNat ≤ 0x2F) ∨ (0x33 ≤ op.toNat ∧ op.toNat ≤ 0x3F) ∨
    (0x45 ≤ op.toNat ∧ op.toNat ≤ 0x47) ∨ (0x4D ≤ op.toNat ∧ op.toNat ≤ 0x4F) ∨
    (0x50 ≤ op.toNat ∧ op.toNat ≤ 0xFF)) ∧
  ((List.range 256).filter fun w => decodeTableWord 8 w = none).length = 232

/-- R70: words written out bit by bit from the layout, one of each family. -/
def Obligations.LayoutWordsDecode : Prop :=
  decode 0b00000011#8 = .ok .uencSink ∧ decode 0b00010010#8 = .ok .udecSrc ∧
  decode 0b00100001#8 = .ok .sencTry ∧ decode 0b00110001#8 = .ok .sdec ∧
  decode 0b01000010#8 = .ok .narrowU64 ∧ decode 0b01001011#8 = .ok .narrowS128 ∧
  decode 0b01000100#8 = .ok .clsU ∧ decode 0b01001100#8 = .ok .clsS

/-- R54, R21: when reset is not raised, no stream command is in progress and no other agent writes, a step takes the oldest presented request
and is exactly the meaning of the command its opcode decodes to, run on that request's fields. That the port holds its
requests in a list is the model's own reading (log entry 7). -/
def Obligations.StepRunsPresentedCommand : Prop :=
  ∀ (s : State) (r : Request) (rest : List Request) (i : Instr),
    s.foreign = [] → s.rst = .low → s.busy = none → s.port = r :: rest → decode r.op = .ok i →
    step s = exec i { s with req := r, port := rest }

/-- R205: a reserved opcode writes respond(0, 5, 0, DEFAULT_RES) and makes no memory, sink or source access: only RESP
and the port change. -/
def Obligations.ReservedOpcodeAnswersIllegalCommand : Prop :=
  ∀ (s : State) (r : Request) (rest : List Request),
    s.foreign = [] → s.rst = .low → s.busy = none → s.port = r :: rest → decode r.op = .error .reserved →
    step s = .next { s with req := r, port := rest, busy := none, resp := errorAnswer 5 }

/-- R232 and the model's reading of it (log entry 6): with no request presented the idle block stays as it is, and the next
request the host presents is the one it takes. -/
def Obligations.IdleBlockTakesNextPresented : Prop :=
  ∀ (s : State) (r : Request),
    s.foreign = [] → s.rst = .low → s.busy = none → s.port = [] → r.wf s.cfg = true →
    step s = .next s ∧ step (hostAct (.present r) s) = runRequest { s with req := r, port := [] }

/-- R234, R27: while a stream command is in progress, a step neither loses nor looks at the held requests, keeps the
request port's fields and host memory, and leaves RESP alone until it ends the command. That the port holds its requests
in a list is the model's own reading (log entry 7). -/
def Obligations.HeldRequestsWait : Prop :=
  ∀ (s : State) (t : Transfer), s.foreign = [] → s.rst = .low → s.busy = some t →
    (∀ held, step { s with port := held } = mapNext (fun u => { u with port := held }) (step s)) ∧
    ∀ u, step s = .next u →
      u.port = s.port ∧ u.req = s.req ∧ u.mem = s.mem ∧ u.cfg = s.cfg ∧ (u.busy ≠ none → u.resp = s.resp) ∧
        (u.busy = none → u.resp.valid = true)

/-! ### Encoders -/

/-- R102, R101: UENC.COUNT answers the least `n ≥ 1` with `u < 2^(7n)`, at most 19, and changes nothing but RESP. -/
def Obligations.UencCountIsLeastLength : Prop :=
  ∀ s : State, ∃ n, n ≤ 19 ∧ UnsignedLen s.req.val n ∧
    exec .uencCount s = .next { s with busy := none, resp := encodedAnswer n }

/-- R142, R141: SENC.COUNT answers the least `n ≥ 1` with `−2^(7n−1) ≤ z < 2^(7n−1)`, at most 19, and changes nothing but
RESP. -/
def Obligations.SencCountIsLeastLength : Prop :=
  ∀ s : State, ∃ n, n ≤ 19 ∧ SignedLen s.req.val n ∧
    exec .sencCount s = .next { s with busy := none, resp := encodedAnswer n }

/-- R103, R104: UENC.TRY and UENC into a window that fits: with `dcap < n` nothing is written and the failure is
reported with code 0 and BufferTooSmall (1); else exactly `DST[0 .. n−1]` hold the encoding and every other byte and every
other part of the state is as before. -/
def Obligations.UnsignedBufferEncodeStoresEncoding : Prop :=
  ∀ s : State, Memory.wf s.mem = true → s.req.dbase + s.req.dcap ≤ 2 ^ s.cfg.addrW →
    ∃ n, n ≤ 19 ∧ UnsignedLen s.req.val n ∧
      (s.req.dcap < n →
        exec .uencTry s = .next { s with busy := none, resp := errorAnswer 0 } ∧
        exec .uenc s = .next { s with busy := none, resp := errorAnswer 1 }) ∧
      (n ≤ s.req.dcap → ∃ m,
        exec .uencTry s = .next { s with busy := none, mem := m, resp := encodedAnswer n } ∧
        exec .uenc s = .next { s with busy := none, mem := m, resp := encodedAnswer n } ∧
        (∀ k, k < n → memRead m (s.req.dbase + k) = encByte .unsigned s.req.val n k) ∧
        ∀ a, a < s.req.dbase ∨ s.req.dbase + n ≤ a → memRead m a = memRead s.mem a)

/-- R143, R144: the same of SENC.TRY and SENC with the signed encoding. -/
def Obligations.SignedBufferEncodeStoresEncoding : Prop :=
  ∀ s : State, Memory.wf s.mem = true → s.req.dbase + s.req.dcap ≤ 2 ^ s.cfg.addrW →
    ∃ n, n ≤ 19 ∧ SignedLen s.req.val n ∧
      (s.req.dcap < n →
        exec .sencTry s = .next { s with busy := none, resp := errorAnswer 0 } ∧
        exec .senc s = .next { s with busy := none, resp := errorAnswer 1 }) ∧
      (n ≤ s.req.dcap → ∃ m,
        exec .sencTry s = .next { s with busy := none, mem := m, resp := encodedAnswer n } ∧
        exec .senc s = .next { s with busy := none, mem := m, resp := encodedAnswer n } ∧
        (∀ k, k < n → memRead m (s.req.dbase + k) = encByte .signed s.req.val n k) ∧
        ∀ a, a < s.req.dbase ∨ s.req.dbase + n ≤ a → memRead m a = memRead s.mem a)

/-- R105, R47: UENC.SINK hands the sink the bytes of the encoding in order, one a step, RESP unchanged until the last
one, with which it answers `n`; nothing else changes. A sink that accepts fewer than `n` bytes has those, and the command
is stuck. Which step moves which byte is the model's reading of D1 (log entry 5). -/
def Obligations.UencSinkHandsOverEncoding : Prop :=
  ∀ s : State, s.foreign = [] → s.rst = .low → ∃ n, 1 ≤ n ∧ n ≤ 19 ∧ UnsignedLen s.req.val n ∧
    ((∀ r, s.sink.room = some r → n ≤ r) → ∃ t, exec .uencSink s = .next t ∧
      (∀ j, j + 1 < n → ∃ u, run j t = .next u ∧ u.busy ≠ none ∧
        { u with busy := none } =
          { s with busy := none, sink := sinkGot s.sink (encBytes .unsigned s.req.val n (j + 1)) (j + 1) }) ∧
      run (n - 1) t = .next { s with
        busy := none, sink := sinkGot s.sink (encBytes .unsigned s.req.val n n) n, resp := encodedAnswer n }) ∧
    (s.sink.room = some 0 → exec .uencSink s = .fault .sinkHolds) ∧
    ∀ r, s.sink.room = some (r + 1) → r + 1 < n → ∃ t u, exec .uencSink s = .next t ∧ run r t = .next u ∧
      u.sink.received = s.sink.received ++ encBytes .unsigned s.req.val n (r + 1) ∧ step u = .fault .sinkHolds

/-- R145, R47: the same of SENC.SINK with the signed encoding (steps: log entry 5). -/
def Obligations.SencSinkHandsOverEncoding : Prop :=
  ∀ s : State, s.foreign = [] → s.rst = .low → ∃ n, 1 ≤ n ∧ n ≤ 19 ∧ SignedLen s.req.val n ∧
    ((∀ r, s.sink.room = some r → n ≤ r) → ∃ t, exec .sencSink s = .next t ∧
      (∀ j, j + 1 < n → ∃ u, run j t = .next u ∧ u.busy ≠ none ∧
        { u with busy := none } =
          { s with busy := none, sink := sinkGot s.sink (encBytes .signed s.req.val n (j + 1)) (j + 1) }) ∧
      run (n - 1) t = .next { s with
        busy := none, sink := sinkGot s.sink (encBytes .signed s.req.val n n) n, resp := encodedAnswer n }) ∧
    (s.sink.room = some 0 → exec .sencSink s = .fault .sinkHolds) ∧
    ∀ r, s.sink.room = some (r + 1) → r + 1 < n → ∃ t u, exec .sencSink s = .next t ∧ run r t = .next u ∧
      u.sink.received = s.sink.received ++ encBytes .signed s.req.val n (r + 1) ∧ step u = .fault .sinkHolds

/-- R106(c), R146(b): in a stored encoding the last byte of UENC is 0x00 only for the value 0, and bit 6 of the last byte
of SENC is bit 127 of the value. -/
def Obligations.LastStoredByteTellsZeroAndSign : Prop :=
  ∀ s t : State, Memory.wf s.mem = true → t.resp.ok = true →
    (exec .uenc s = .next t →
      (memRead t.mem (s.req.dbase + (t.resp.n.toNat - 1)) = 0 ↔ s.req.val = 0)) ∧
    (exec .senc s = .next t →
      (memRead t.mem (s.req.dbase + (t.resp.n.toNat - 1))).getLsbD 6 = s.req.val.getLsbD 127)

/-! ### Decoders -/

/-- R122, R123, R66: UDEC.TRY and UDEC of a window that fits: `n` bytes of a whole encoding inside the window give its
value, `n` and the unsigned classification; a window that ends first gives IncompleteInput (2), an overlong encoding
Overflow (3), and the safe form withholds the code; only RESP changes. -/
def Obligations.UnsignedBufferDecodeAnswers : Prop :=
  ∀ s : State, s.req.sbase + s.req.slen ≤ 2 ^ s.cfg.addrW →
    let get := fun k => memRead s.mem (s.req.sbase + k)
    (∀ n, n ≤ s.req.slen → WholeEncoding .unsigned s.cfg.pExcess get n →
      exec .udecTry s = .next { s with busy := none, resp := valueAnswer n .unsigned (decodedValue .unsigned get n) } ∧
      exec .udec s = .next { s with busy := none, resp := valueAnswer n .unsigned (decodedValue .unsigned get n) }) ∧
    (s.req.slen < 19 → (∀ k, k < s.req.slen → 128 ≤ (get k).toNat) →
      exec .udecTry s = .next { s with busy := none, resp := errorAnswer 0 } ∧
      exec .udec s = .next { s with busy := none, resp := errorAnswer 2 }) ∧
    (19 ≤ s.req.slen → OverlongEncoding .unsigned s.cfg.pExcess get →
      exec .udecTry s = .next { s with busy := none, resp := errorAnswer 0 } ∧
      exec .udec s = .next { s with busy := none, resp := errorAnswer 3 })

/-- R162, R163, R66: the same of SDEC.TRY and SDEC, with the sign extension, the signed classification and the signed
test of a 19th byte. -/
def Obligations.SignedBufferDecodeAnswers : Prop :=
  ∀ s : State, s.req.sbase + s.req.slen ≤ 2 ^ s.cfg.addrW →
    let get := fun k => memRead s.mem (s.req.sbase + k)
    (∀ n, n ≤ s.req.slen → WholeEncoding .signed s.cfg.pExcess get n →
      exec .sdecTry s = .next { s with busy := none, resp := valueAnswer n .signed (decodedValue .signed get n) } ∧
      exec .sdec s = .next { s with busy := none, resp := valueAnswer n .signed (decodedValue .signed get n) }) ∧
    (s.req.slen < 19 → (∀ k, k < s.req.slen → 128 ≤ (get k).toNat) →
      exec .sdecTry s = .next { s with busy := none, resp := errorAnswer 0 } ∧
      exec .sdec s = .next { s with busy := none, resp := errorAnswer 2 }) ∧
    (19 ≤ s.req.slen → OverlongEncoding .signed s.cfg.pExcess get →
      exec .sdecTry s = .next { s with busy := none, resp := errorAnswer 0 } ∧
      exec .sdec s = .next { s with busy := none, resp := errorAnswer 3 })

/-- R124, R48: UDEC.SRC pulls one byte a step. A whole encoding gives its value and `n` after `n` pulls; exhaustion gives
IncompleteInput after every byte is pulled; an overlong encoding gives Overflow after 19 pulls; pulled bytes stay
consumed; nothing but RESP and the source changes. A source that falls silent leaves the command stuck. Which step pulls
which byte is the model's reading of D1 (log entry 5). -/
def Obligations.UdecSrcPullsAndAnswers : Prop :=
  ∀ s : State, s.foreign = [] → s.rst = .low →
    let get := fun k => s.source.bytes.getD k 0
    let len := s.source.bytes.length
    (∀ n, n ≤ len → WholeEncoding .unsigned s.cfg.pExcess get n → ∃ t, exec .udecSrc s = .next t ∧
      run (n - 1) t = .next { s with
        busy := none, source := sourceGave s.source n
        resp := valueAnswer n .unsigned (decodedValue .unsigned get n) }) ∧
    (19 ≤ len → OverlongEncoding .unsigned s.cfg.pExcess get → ∃ t, exec .udecSrc s = .next t ∧
      run 18 t = .next { s with busy := none, source := sourceGave s.source 19, resp := errorAnswer 3 }) ∧
    (len < 19 → (∀ k, k < len → 128 ≤ (get k).toNat) →
      (s.source.atEnd = .exhausted → ∃ t, exec .udecSrc s = .next t ∧
        run len t = .next { s with busy := none, source := sourceGave s.source len, resp := errorAnswer 2 }) ∧
      (s.source.atEnd = .silent → len = 0 → exec .udecSrc s = .fault .sourceSilent) ∧
      (s.source.atEnd = .silent → 0 < len → ∃ t u, exec .udecSrc s = .next t ∧ run (len - 1) t = .next u ∧
        u.source = sourceGave s.source len ∧ u.resp = s.resp ∧ step u = .fault .sourceSilent))

/-- R164, R48: the same of SDEC.SRC in the signed reading (steps: log entry 5). -/
def Obligations.SdecSrcPullsAndAnswers : Prop :=
  ∀ s : State, s.foreign = [] → s.rst = .low →
    let get := fun k => s.source.bytes.getD k 0
    let len := s.source.bytes.length
    (∀ n, n ≤ len → WholeEncoding .signed s.cfg.pExcess get n → ∃ t, exec .sdecSrc s = .next t ∧
      run (n - 1) t = .next { s with
        busy := none, source := sourceGave s.source n
        resp := valueAnswer n .signed (decodedValue .signed get n) }) ∧
    (19 ≤ len → OverlongEncoding .signed s.cfg.pExcess get → ∃ t, exec .sdecSrc s = .next t ∧
      run 18 t = .next { s with busy := none, source := sourceGave s.source 19, resp := errorAnswer 3 }) ∧
    (len < 19 → (∀ k, k < len → 128 ≤ (get k).toNat) →
      (s.source.atEnd = .exhausted → ∃ t, exec .sdecSrc s = .next t ∧
        run len t = .next { s with busy := none, source := sourceGave s.source len, resp := errorAnswer 2 }) ∧
      (s.source.atEnd = .silent → len = 0 → exec .sdecSrc s = .fault .sourceSilent) ∧
      (s.source.atEnd = .silent → 0 < len → ∃ t u, exec .sdecSrc s = .next t ∧ run (len - 1) t = .next u ∧
        u.source = sourceGave s.source len ∧ u.resp = s.resp ∧ step u = .fault .sourceSilent))

/-- R45, R125(b), (c): a buffer decode changes no memory; a success has `1 ≤ n ≤ 19` and `n ≤ slen` and depends on the
first `n` bytes of the window only, a failure on at most the first `min(slen, 19)`. -/
def Obligations.BufferDecodeReadsOnlyItsBytes : Prop :=
  ∀ (i : Instr) (s t : State) (m : List Host.Cell), i.readsSrc = true → exec i s = .next t →
    (t.resp.ok = true → 1 ≤ t.resp.n.toNat ∧ t.resp.n.toNat ≤ 19 ∧ t.resp.n.toNat ≤ s.req.slen) ∧
    ((∀ k, k < (if t.resp.ok then t.resp.n.toNat else min s.req.slen 19) →
        memRead m (s.req.sbase + k) = memRead s.mem (s.req.sbase + k)) →
      exec i { s with mem := m } = .next { t with mem := m })

/-- R165(d): when the unsigned and the signed decode of one window both succeed they consume the same bytes; the values
are the same if the last byte has bit 6 clear or `n = 19`, and else differ by the sign fill of bits `7n .. 127`. -/
def Obligations.SignedAndUnsignedDecodesAgreeUpToFill : Prop :=
  ∀ s t u : State, exec .udec s = .next t → exec .sdec s = .next u → t.resp.ok = true → u.resp.ok = true →
    t.resp.n = u.resp.n ∧
    u.resp.res.rval =
      if (memRead s.mem (s.req.sbase + (t.resp.n.toNat - 1))).getLsbD 6 = true ∧ t.resp.n ≠ 19
      then t.resp.res.rval ||| (ones <<< (7 * t.resp.n.toNat)) else t.resp.res.rval

/-! ### Round trips -/

/-- R106(b): what UENC or UENC.TRY stored, UDEC and UDEC.TRY of the same window read back: the value itself, and the same
count, under either value of P_EXCESS. -/
def Obligations.UnsignedRoundTrip : Prop :=
  ∀ (s t : State) (e d : Instr), Memory.wf s.mem = true → e = .uenc ∨ e = .uencTry → d = .udec ∨ d = .udecTry →
    exec e s = .next t → t.resp.ok = true →
    exec d { t with req := { t.req with sbase := s.req.dbase, slen := s.req.dcap } } =
      .next { t with
        req := { t.req with sbase := s.req.dbase, slen := s.req.dcap }
        resp := valueAnswer t.resp.n.toNat .unsigned s.req.val }

/-- R146(c): the same of SENC or SENC.TRY and SDEC and SDEC.TRY. -/
def Obligations.SignedRoundTrip : Prop :=
  ∀ (s t : State) (e d : Instr), Memory.wf s.mem = true → e = .senc ∨ e = .sencTry → d = .sdec ∨ d = .sdecTry →
    exec e s = .next t → t.resp.ok = true →
    exec d { t with req := { t.req with sbase := s.req.dbase, slen := s.req.dcap } } =
      .next { t with
        req := { t.req with sbase := s.req.dbase, slen := s.req.dcap }
        resp := valueAnswer t.resp.n.toNat .signed s.req.val }

/-! ### Classifier -/

/-- R186, R187, R191, R195: the classification accessors and the 128-bit accessors never fail: they answer `val` with its
classification in the opcode's signedness and change nothing but RESP. -/
def Obligations.ClassificationAndWidestAccessorsAnswer : Prop :=
  ∀ s : State,
    exec .clsU s = .next { s with busy := none, resp := valueAnswer 0 .unsigned s.req.val } ∧
    exec .clsS s = .next { s with busy := none, resp := valueAnswer 0 .signed s.req.val } ∧
    exec .narrowU128 s = .next { s with busy := none, resp := valueAnswer 0 .unsigned s.req.val } ∧
    exec .narrowS128 s = .next { s with busy := none, resp := valueAnswer 0 .signed s.req.val }

/-- R188, R189, R190: an unsigned narrowing accessor answers `val` and its classification when `uval(val)` is in the
range of its width, else NarrowingFailure (4), and changes nothing but RESP. -/
def Obligations.UnsignedNarrowingChecksItsRange : Prop :=
  ∀ s : State, ∀ w ∈ [(Instr.narrowU8, 255), (.narrowU32, 4294967295), (.narrowU64, 18446744073709551615)],
    exec w.1 s = .next { s with
      busy := none
      resp := if w.2 < s.req.val.toNat then errorAnswer 4 else valueAnswer 0 .unsigned s.req.val }

/-- R192, R193, R194: the same of the signed narrowing accessors, with `sval(val)` and the signed ranges. -/
def Obligations.SignedNarrowingChecksItsRange : Prop :=
  ∀ s : State, ∀ w ∈ [(Instr.narrowS8, (127 : Int)), (.narrowS32, 2147483647), (.narrowS64, 9223372036854775807)],
    exec w.1 s = .next { s with
      busy := none
      resp := if s.req.val.toInt < -w.2 - 1 ∨ w.2 < s.req.val.toInt then errorAnswer 4
        else valueAnswer 0 .signed s.req.val }

/-- R196(b): after a successful narrowing the low N bits of `rval`, extended in the accessor's signedness, are `val`. -/
def Obligations.NarrowingIsLossless : Prop :=
  ∀ s t : State, t.resp.ok = true →
    (exec .narrowU8 s = .next t → (t.resp.res.rval.extractLsb' 0 8).setWidth 128 = s.req.val) ∧
    (exec .narrowU32 s = .next t → (t.resp.res.rval.extractLsb' 0 32).setWidth 128 = s.req.val) ∧
    (exec .narrowU64 s = .next t → (t.resp.res.rval.extractLsb' 0 64).setWidth 128 = s.req.val) ∧
    (exec .narrowS8 s = .next t → (t.resp.res.rval.extractLsb' 0 8).signExtend 128 = s.req.val) ∧
    (exec .narrowS32 s = .next t → (t.resp.res.rval.extractLsb' 0 32).signExtend 128 = s.req.val) ∧
    (exec .narrowS64 s = .next t → (t.resp.res.rval.extractLsb' 0 64).signExtend 128 = s.req.val)

/-- R196(a), R181: in the classification of any value the flags nest, `fits8 ⇒ fits32 ⇒ fits64`, and the SizeClass code
counts the flags that are 0: it is the least tier that fits. -/
def Obligations.SizeClassIsLeastTier : Prop :=
  ∀ (sg : Sign) (x : Word),
    ((classify sg x).fits8 = true → (classify sg x).fits32 = true) ∧
    ((classify sg x).fits32 = true → (classify sg x).fits64 = true) ∧
    (classify sg x).sclass.code.toNat =
      (if (classify sg x).fits8 then 0 else 1) + (if (classify sg x).fits32 then 0 else 1) +
        (if (classify sg x).fits64 then 0 else 1)

/-- R25: DEFAULT_RES is Classify(U, 0), which equals Classify(S, 0). -/
def Obligations.DefaultResultClassifiesZero : Prop :=
  defaultRes = classify .unsigned 0 ∧ defaultRes = classify .signed 0 ∧ defaultRes.rval = 0 ∧
    defaultRes.fits8 = true ∧ defaultRes.fits32 = true ∧ defaultRes.fits64 = true ∧ defaultRes.sclass.code = 0

/-! ### Whole-machine rules -/

/-- R201, R203: what a command that ends may report. A command that ends has `valid = 1` and a coherent RESP (R26); a
failed safe command reports no kind, a failed strict command a kind that R201 lists for it, and the counts, the sink
encodes, CLS and the 128-bit accessors never fail. -/
def Obligations.ErrorKindsByCommand : Prop :=
  ∀ (i : Instr) (s t : State), exec i s = .next t → t.busy = none →
    t.resp.valid = true ∧ t.resp.Coherent ∧
    (t.resp.ok = false →
      (t.resp.err = 0 ∧ (i = .uencTry ∨ i = .sencTry ∨ i = .udecTry ∨ i = .sdecTry)) ∨
      (t.resp.err = 1 ∧ (i = .uenc ∨ i = .senc)) ∨
      ((t.resp.err = 2 ∨ t.resp.err = 3) ∧ (i = .udec ∨ i = .udecSrc ∨ i = .sdec ∨ i = .sdecSrc)) ∨
      (t.resp.err = 4 ∧ (i = .narrowU8 ∨ i = .narrowU32 ∨ i = .narrowU64 ∨
        i = .narrowS8 ∨ i = .narrowS32 ∨ i = .narrowS64)))

/-- R27, R20: no command reads RESP: with another RESP before it, a command does the same, and leaves the same state but
for an RESP it has not yet written. -/
def Obligations.RespIsNeverRead : Prop :=
  ∀ (i : Instr) (s : State) (r : Resp),
    exec i { s with resp := r } =
      mapNext (fun t => if t.busy = none then t else { t with resp := r }) (exec i s)

/-- R22: a command reads only the fields of the request port that R22 lists for it: with any other values in the fields
it ignores, the outcome is the same. -/
def Obligations.IgnoredFieldsHaveNoEffect : Prop :=
  ∀ (i : Instr) (s : State) (r : Request),
    (i.readsVal = true → r.val = s.req.val) →
    (i.readsDst = true → r.dbase = s.req.dbase ∧ r.dcap = s.req.dcap) →
    (i.readsSrc = true → r.sbase = s.req.sbase ∧ r.slen = s.req.slen) →
    exec i { s with req := r } = mapNext (fun t => { t with req := r }) (exec i s)

/-- R40, R46: which command reaches which space. Only a buffer encode changes host memory, only a sink encode the sink,
only a source decode the source; no command changes the port, its fields, the reset input or the parameters. -/
def Obligations.CommandsKeepTheOtherSpaces : Prop :=
  ∀ (i : Instr) (s t : State), exec i s = .next t →
    (i.readsDst = false → t.mem = s.mem) ∧ (i.usesSink = false → t.sink = s.sink) ∧
    (i.usesSource = false → t.source = s.source) ∧
    t.port = s.port ∧ t.req = s.req ∧ t.rst = s.rst ∧ t.cfg = s.cfg ∧ t.foreign = s.foreign ∧ t.draws = s.draws

/-- R41, R206: a buffer command whose window does not fit the address space is refused, and no other command ever is. -/
def Obligations.MisfitWindowIsRefused : Prop :=
  ∀ (i : Instr) (s : State) (e : Refusal), exec i s = .refused e ↔
    e = .windowDoesNotFit ∧
      ((i.readsDst = true ∧ 2 ^ s.cfg.addrW < s.req.dbase + s.req.dcap) ∨
        (i.readsSrc = true ∧ 2 ^ s.cfg.addrW < s.req.sbase + s.req.slen))

/-- R218: where a step has no next state. With reset not raised: a refusal exactly on a presented buffer command with a
window that does not fit; stuck on the sink exactly when a byte is to be handed to a sink that accepts no more; stuck on
the source exactly when a byte is to be pulled from a source that is silent. That a stream command stops at the step of
one byte, the bytes before it moved, is the model's reading of D1 (log entry 5). -/
def Obligations.StepStopsExactlyWhere : Prop :=
  ∀ s : State, s.rst = .low →
    let head := fun (p : Instr → Request → Prop) =>
      s.busy = none ∧ ∃ r rest i, s.port = r :: rest ∧ decode r.op = .ok i ∧ p i r
    (∀ e, step s = .refused e ↔ e = .windowDoesNotFit ∧ head fun i r =>
      (i.readsDst = true ∧ 2 ^ s.cfg.addrW < r.dbase + r.dcap) ∨
        (i.readsSrc = true ∧ 2 ^ s.cfg.addrW < r.sbase + r.slen)) ∧
    (step s = .fault .sinkHolds ↔ s.sink.room = some 0 ∧
      ((∃ t, s.busy = some (.sink t) ∧ t.left ≠ []) ∨ head fun i _ => i.usesSink = true)) ∧
    (step s = .fault .sourceSilent ↔ s.source.bytes = [] ∧ s.source.atEnd = .silent ∧
      ((∃ t, s.busy = some (.source t)) ∨ head fun i _ => i.usesSource = true))

/-- R125(a), R165(a), R239, R237: from every safe state with a stream command in progress, if the sink accepts and the
source signals exhaustion at its end, the command has answered after at most 18 further steps, with at most 18 further
sink and source calls that moved a byte, and the held requests are all there (steps: log entry 5). Both conditions are
asked for, whichever the command uses; a sink command beside a silent source is in UencSinkHandsOverEncoding and
SencSinkHandsOverEncoding, from the command's start. -/
def Obligations.StreamCommandsEnd : Prop :=
  ∀ (s : State) (t : Transfer), s.Inv → s.rst = .low → s.busy = some t →
    s.sink.room = none → s.source.atEnd = .exhausted →
    ∃ k u, 1 ≤ k ∧ k ≤ 18 ∧ run k s = .next u ∧ u.busy = none ∧ u.resp.valid = true ∧ u.port = s.port ∧
      u.sink.received.length ≤ s.sink.received.length + 18 ∧ u.source.pos ≤ s.source.pos + 18

/-! ### Other agents -/

/-- R55(a), R236(b), R46: a buffer encode whose encoding of `n` bytes fits, while other agents write host memory: it succeeds
with `n` all the same; a byte of `DST[0 .. n−1]` that another agent writes holds either writer's value, a later byte of
DST that another agent writes any value, a byte outside DST that another agent writes that agent's, and a byte that none
of them writes is as the encode alone leaves it. That they write during exactly this step is how the model holds a race
(log entry 10). -/
def Obligations.RacedBytesHoldEitherWriter : Prop :=
  ∀ (s : State) (r : Request) (rest : List Request) (i : Instr) (n : Nat),
    s.rst = .low → s.busy = none → s.port = r :: rest → decode r.op = .ok i → i.readsDst = true →
    Memory.wf s.mem = true → EncLen i.sign r.val n → n ≤ r.dcap → r.dbase + r.dcap ≤ 2 ^ s.cfg.addrW →
    ∃ m d, step s = .next { s with
        req := r, port := rest, busy := none, mem := m, foreign := [], draws := d, resp := encodedAnswer n } ∧
      ∀ a, ((∃ v, (a, v) ∈ s.foreign) ∧ r.dbase + n ≤ a ∧ a < r.dbase + r.dcap) ∨
        (∃ v, (a, v) ∈ s.foreign ∧ memRead m a = v) ∨
        ((∀ v, (a, v) ∉ s.foreign) ∨ (r.dbase ≤ a ∧ a < r.dbase + n)) ∧
          memRead m a = if r.dbase ≤ a ∧ a < r.dbase + n then encByte i.sign r.val n (a - r.dbase) else memRead s.mem a

/-- R236(b), R46: a buffer encode whose encoding of `n` bytes does not fit DST, while other agents write host memory: it fails
all the same, code 0 of a safe command and BufferTooSmall (1) of a strict one; a byte of DST that another agent writes
holds any value, a byte outside DST that another agent writes that agent's, every other byte is as before (log entry 10). -/
def Obligations.RacedFailedEncodeKeepsOtherBytes : Prop :=
  ∀ (s : State) (r : Request) (rest : List Request) (i : Instr) (n : Nat),
    s.rst = .low → s.busy = none → s.port = r :: rest → decode r.op = .ok i → i.readsDst = true →
    Memory.wf s.mem = true → EncLen i.sign r.val n → r.dcap < n → r.dbase + r.dcap ≤ 2 ^ s.cfg.addrW →
    ∃ m d, step s = .next { s with
        req := r, port := rest, busy := none, mem := m, foreign := [], draws := d
        resp := errorAnswer (if i = .uenc ∨ i = .senc then 1 else 0) } ∧
      ∀ a, ((∃ v, (a, v) ∈ s.foreign) ∧ r.dbase ≤ a ∧ a < r.dbase + r.dcap) ∨
        (∃ v, (a, v) ∈ s.foreign ∧ memRead m a = v) ∨
        (∀ v, (a, v) ∉ s.foreign) ∧ memRead m a = memRead s.mem a

/-- R55(b), R236(b): a buffer decode while other agents write host memory: it answers as it would if each byte of SRC that
another agent writes held some value, and every other byte its own; afterwards a byte of SRC that another agent wrote holds
any value, a byte outside SRC that another agent wrote that agent's, and every other byte is as before (log entry 10). -/
def Obligations.RacedDecodeReadsSomeBytes : Prop :=
  ∀ (s : State) (r : Request) (rest : List Request) (i : Instr),
    s.rst = .low → s.busy = none → s.port = r :: rest → decode r.op = .ok i → i.readsSrc = true →
    Memory.wf s.mem = true → r.sbase + r.slen ≤ 2 ^ s.cfg.addrW →
    ∃ m u, (∀ a, ((∀ v, (a, v) ∉ s.foreign) ∨ a < r.sbase ∨ r.sbase + r.slen ≤ a) → memRead m a = memRead s.mem a) ∧
      exec i { s with req := r, port := rest, mem := m } = .next u ∧
      ∃ m' d, step s = .next { u with mem := m', foreign := [], draws := d } ∧
        ∀ a, ((∃ v, (a, v) ∈ s.foreign) ∧ r.sbase ≤ a ∧ a < r.sbase + r.slen) ∨
          (∃ v, (a, v) ∈ s.foreign ∧ memRead m' a = v) ∨
          (∀ v, (a, v) ∉ s.foreign) ∧ memRead m' a = memRead s.mem a

/-- R55: accesses of other agents to bytes outside the command's windows never race with it: with reset not raised, the step
does what it does without them, and their writes have happened, in the list's order (log entry 10). -/
def Obligations.WritesOutsideWindowsNeverRace : Prop :=
  ∀ s : State, s.rst = .low →
    (∀ c ∈ s.foreign, ∀ r rest i, s.busy = none → s.port = r :: rest → decode r.op = .ok i →
      (i.readsSrc = true → c.1 < r.sbase ∨ r.sbase + r.slen ≤ c.1) ∧
      (i.readsDst = true → c.1 < r.dbase ∨ r.dbase + r.dcap ≤ c.1)) →
    step s = mapNext
      (fun u => { u with
        mem := s.foreign.foldl (fun m c => memWrite m c.1 c.2) u.mem, draws := u.draws + 2 * s.foreign.length })
      (step { s with foreign := [] })

/-! ### Invariant -/

/-- The state after reset is safe: `Inv` holds there (R230, R31; the host's spaces in it are the model's choice, log
entry 3). -/
def Obligations.ResetStateIsSafe : Prop := State.reset.Inv ∧ State.reset.resp.valid = false

/-- Every step from a safe state leads to a safe state, also a reset and every step of a stream command. -/
def Obligations.StepKeepsSafety : Prop := ∀ s t : State, s.Inv → step s = .next t → t.Inv

/-- Every history of host actions and steps from a safe state, in any order and cut anywhere, leads to a safe state with
the same parameters. -/
def Obligations.EveryHistoryKeepsSafety : Prop :=
  ∀ (es : List Event) (s t : State), s.Inv → runEvents es s = .next t → t.Inv ∧ t.cfg = s.cfg

/-! ### Reset -/

/-- R230, R231(d): a reset that finds no command running, or a reserved opcode, sets RESP.valid to 0 and touches nothing
else that a command reads: host memory, sink and source stay. RESP's other fields may hold anything. That the held
requests stay, and that the request it hits is used up, is the model's choice (log entry 8). -/
def Obligations.ResetClearsValid : Prop :=
  ∀ s : State, s.foreign = [] → s.busy = none →
    ((s.rst = .between ∨ (s.rst = .during ∧ s.port = [])) →
      ∃ a d, a.valid = false ∧ step s = .next { s with rst := .low, resp := a, draws := d }) ∧
    ∀ r rest, s.rst = .during → s.port = r :: rest → decode r.op = .error .reserved →
      ∃ a d, a.valid = false ∧
        step s = .next { s with rst := .low, req := r, port := rest, resp := a, draws := d }

/-- R231(a), (d): reset during a presented command that is no stream command. A buffer encode of `n` bytes that fits may
leave anything in `DST[0 .. n−1]` and changes no other byte; one that does not fit its capacity, a buffer decode, a count,
a CLS or a NARROW has no partial effect; the command writes no answer. That its request is used up is the model's choice
(log entry 8). -/
def Obligations.ResetDuringCommandKeepsOtherBytes : Prop :=
  ∀ (s : State) (r : Request) (rest : List Request) (i : Instr),
    s.foreign = [] → s.rst = .during → s.busy = none → s.port = r :: rest → decode r.op = .ok i →
    Memory.wf s.mem = true →
    i.usesSink = false → i.usesSource = false →
    (i.readsDst = true → r.dbase + r.dcap ≤ 2 ^ s.cfg.addrW) →
    (i.readsSrc = true → r.sbase + r.slen ≤ 2 ^ s.cfg.addrW) →
    ∃ m a d, a.valid = false ∧
      step s = .next { s with rst := .low, req := r, port := rest, mem := m, resp := a, draws := d } ∧
      (i.readsDst = false → m = s.mem) ∧
      ∀ n, EncLen i.sign r.val n →
        (r.dcap < n → m = s.mem) ∧ ∀ x, x < r.dbase ∨ r.dbase + n ≤ x → memRead m x = memRead s.mem x

/-- R231(b), (c): reset during a stream command, in progress or presented: it writes no answer; the sink has received
a further part of what was left, from its start; the source has lost further bytes, none after a byte that ends the
encoding and none past the 19th of the command; nothing else changes. That its request is used up is the model's choice
(log entry 8). -/
def Obligations.ResetDuringStreamCutsIt : Prop :=
  ∀ s : State, s.foreign = [] → s.rst ≠ .low →
    (∀ t, s.busy = some (.sink t) → ∃ k a d, k ≤ t.left.length ∧ a.valid = false ∧
      step s = .next { s with
        rst := .low, busy := none, resp := a, draws := d, sink := sinkGot s.sink (t.left.take k) k }) ∧
    (∀ t, s.busy = some (.source t) → t.scan.i ≤ 18 → ∃ k a d, k ≤ s.source.bytes.length ∧ t.scan.i + k ≤ 19 ∧
      (∀ j, j + 1 < k → 128 ≤ (s.source.bytes.getD j 0).toNat) ∧ a.valid = false ∧
      step s = .next { s with
        rst := .low, busy := none, resp := a, draws := d, source := sourceGave s.source k }) ∧
    ∀ r rest i, s.rst = .during → s.busy = none → s.port = r :: rest → decode r.op = .ok i →
      (i.usesSink = true → ∃ n k a d, EncLen i.sign r.val n ∧ k ≤ n ∧ a.valid = false ∧
        step s = .next { s with
          rst := .low, req := r, port := rest, resp := a, draws := d
          sink := sinkGot s.sink (encBytes i.sign r.val n k) k }) ∧
      (i.usesSource = true → ∃ k a d, k ≤ s.source.bytes.length ∧ k ≤ 19 ∧
        (∀ j, j + 1 < k → 128 ≤ (s.source.bytes.getD j 0).toNat) ∧ a.valid = false ∧
        step s = .next { s with
          rst := .low, req := r, port := rest, resp := a, draws := d, source := sourceGave s.source k })

/-! ### RESP, assembler, pseudo-operations -/

/-- R23: the packed layout: each field at its bits, reserved bit 15 reading 0. -/
def Obligations.RespLayout : Prop :=
  ∀ r : Resp,
    r.packed.getLsbD 0 = r.valid ∧ r.packed.getLsbD 1 = r.ok ∧ r.packed.extractLsb' 2 3 = r.err ∧
    r.packed.extractLsb' 5 5 = r.n ∧ r.packed.getLsbD 10 = r.res.fits8 ∧ r.packed.getLsbD 11 = r.res.fits32 ∧
    r.packed.getLsbD 12 = r.res.fits64 ∧ r.packed.extractLsb' 13 2 = r.res.sclass.code ∧
    r.packed.getLsbD 15 = false ∧ r.packed.extractLsb' 16 128 = r.res.rval

/-- R76: what an assembled statement asks for: its command, a decimal literal's own value in the command's signedness, a
`0x` literal's raw number, the windows as written, 0 for what is omitted; the port can carry it. A literal out of range is
an assembly error. -/
def Obligations.AssemblerStoresItsOperands : Prop :=
  ∀ (c : Config) (st : Stmt),
    (∀ r, assemble c st = some r →
      decode r.op = .ok st.instr ∧ r.wf c = true ∧
      (∀ z, st.val = some (.dec z) → (match st.instr.sign with
        | .unsigned => (r.val.toNat : Int)
        | .signed => r.val.toInt) = z) ∧
      (∀ ds, st.val = some (.hex ds) → r.val.toNat = hexValue ds) ∧
      (st.val = none → r.val = 0) ∧
      (r.dbase, r.dcap) = st.dst.getD (0, 0) ∧ (r.sbase, r.slen) = st.src.getD (0, 0)) ∧
    (∀ z, st.val = some (.dec z) → (match st.instr.sign with
        | .unsigned => z < 0 ∨ 2 ^ 128 ≤ z
        | .signed => z < -(2 ^ 127) ∨ 2 ^ 127 ≤ z) → assemble c st = none)

/-- R77: UENC.ALLOC and SENC.ALLOC: in a window of exactly the counted size that fits the address space, the strict
encode cannot fail: it succeeds and answers the counted number of bytes. -/
def Obligations.AllocatingEncodeCannotFail : Prop :=
  ∀ (s t : State) (v : Word) (base : Nat),
    (exec .uencCount { s with req := (Pseudo.uencAlloc v).countRequest } = .next t →
      base + t.resp.n.toNat ≤ 2 ^ t.cfg.addrW →
      ∃ u, exec .uenc { t with req := (Pseudo.uencAlloc v).encodeRequest base t.resp.n.toNat } = .next u ∧
        u.resp = t.resp ∧ u.resp.ok = true) ∧
    (exec .sencCount { s with req := (Pseudo.sencAlloc v).countRequest } = .next t →
      base + t.resp.n.toNat ≤ 2 ^ t.cfg.addrW →
      ∃ u, exec .senc { t with req := (Pseudo.sencAlloc v).encodeRequest base t.resp.n.toNat } = .next u ∧
        u.resp = t.resp ∧ u.resp.ok = true)
end

