-- ==== Sys2Proof/Laws/Encoding.lean ====
section
/-! SUPPORT. The two encoder loops against the closed forms of R101, R141 and R49: one lemma each says everything they answer. -/

namespace Sys2Proof.Machine

/-- The spec's reading of two's complement (R9) is BitVec's. -/
theorem sval_eq_toInt (x : Word) : sval x = x.toInt := by
  have h := BitVec.msb_eq_getLsbD_last x
  simp only [show 128 - 1 = 127 from rfl] at h
  simp only [sval, ← h, BitVec.toInt_eq_msb_cond]
  rfl

theorem chunk_toNat (v : Word) : (chunk v).toNat = v.toNat % 128 := by
  simp [chunk]

theorem lastByte_chunk (v : Word) : lastByte (chunk v) = BitVec.ofNat 8 (v.toNat % 128) := by
  apply BitVec.eq_of_toNat_eq
  simp [lastByte, chunk_toNat]

theorem moreByte_toNat (c : BitVec 7) : (moreByte c).toNat = c.toNat + 128 := by
  revert c; decide

theorem moreByte_chunk (v : Word) : moreByte (chunk v) = BitVec.ofNat 8 (v.toNat % 128 + 128) := by
  apply BitVec.eq_of_toNat_eq
  rw [moreByte_toNat, chunk_toNat, BitVec.toNat_ofNat]
  omega

theorem encBytes_length (sg : Sign) (x : Word) (n j : Nat) : (encBytes sg x n j).length = j := by
  simp [encBytes]

theorem encBytes_getElem (sg : Sign) (x : Word) (n j k : Nat) (h : k < (encBytes sg x n j).length) :
    (encBytes sg x n j)[k] = encByte sg x n k := by
  simp [encBytes]

/-- The first byte of an encoding and the others, those of the shifted value. -/
theorem encBytes_unsigned_succ (x : Word) (n : Nat) (h : 1 ≤ n) :
    encBytes .unsigned x (n + 1) (n + 1) =
      BitVec.ofNat 8 (x.toNat % 128 + 128) :: encBytes .unsigned (x >>> 7) n n := by
  simp only [encBytes, List.range_succ_eq_map, List.map_cons, List.map_map]
  congr 1
  · have : 0 + 1 < n + 1 := by omega
    simp [encByte, this]
  · apply List.map_congr_left
    intro k _
    have hk : (x >>> 7).toNat / 2 ^ (7 * k) = x.toNat / 2 ^ (7 * (k + 1)) := by
      rw [BitVec.toNat_ushiftRight, Nat.shiftRight_eq_div_pow, Nat.div_div_eq_div_mul, ← Nat.pow_add]
      congr 2; omega
    simp only [Function.comp, encByte, Nat.succ_eq_add_one, hk]
    congr 2
    by_cases h' : k + 1 < n
    · simp [h']
    · simp [h']

theorem unsignedLen_one {x : Word} (h : x.toNat < 128) : UnsignedLen x 1 :=
  ⟨le_refl 1, by simpa using h, fun m h1 h2 => by omega⟩

theorem unsignedLen_succ {x : Word} {n : Nat} (hx : 128 ≤ x.toNat) (h : UnsignedLen (x >>> 7) n) :
    UnsignedLen x (n + 1) := by
  obtain ⟨h1, h2, h3⟩ := h
  rw [BitVec.toNat_ushiftRight, Nat.shiftRight_eq_div_pow] at h2 h3
  have e (m : Nat) : 2 ^ (7 * (m + 1)) = 2 ^ (7 * m) * 2 ^ 7 := by rw [← Nat.pow_add]; congr 1
  refine ⟨by omega, ?_, ?_⟩
  · rw [e]; exact (Nat.div_lt_iff_lt_mul (by norm_num)).1 h2
  · intro m hm hmn
    obtain ⟨m, rfl⟩ : ∃ k, m = k + 1 := ⟨m - 1, by omega⟩
    rcases Nat.eq_zero_or_pos m with rfl | hm
    · simpa using hx
    · rw [e]; exact (Nat.le_div_iff_mul_le (by norm_num)).1 (h3 m hm (by omega))

theorem ushiftRight_ne_zero_iff (v : Word) : v >>> 7 ≠ 0 ↔ 128 ≤ v.toNat := by
  rw [Ne, ← BitVec.toNat_inj, BitVec.toNat_ushiftRight, Nat.shiftRight_eq_div_pow]
  simp only [BitVec.ofNat_eq_ofNat, BitVec.toNat_ofNat]
  omega

theorem uEncLoop_spec : ∀ (f : Nat) (v : Word), 1 ≤ f → v.toNat < 2 ^ (7 * f) →
    ∃ n, n ≤ f ∧ UnsignedLen v n ∧ uEncLoop f v = encBytes .unsigned v n n
  | f + 1, v, _, hv => by
    unfold uEncLoop
    by_cases h : v >>> 7 ≠ 0
    · rw [if_pos h, moreByte_chunk]
      rw [ushiftRight_ne_zero_iff] at h
      have e : 2 ^ (7 * (f + 1)) = 2 ^ (7 * f) * 2 ^ 7 := by rw [← Nat.pow_add]; congr 1
      have hf : 1 ≤ f := by
        rcases Nat.eq_zero_or_pos f with rfl | hf
        · simp at hv; omega
        · exact hf
      obtain ⟨n, hn, hl, hb⟩ := uEncLoop_spec f (v >>> 7) hf (by
        rw [BitVec.toNat_ushiftRight, Nat.shiftRight_eq_div_pow, Nat.div_lt_iff_lt_mul (by norm_num), ← e]
        exact hv)
      exact ⟨n + 1, by omega, unsignedLen_succ h hl, by rw [hb, encBytes_unsigned_succ v n hl.1]⟩
    · rw [if_neg h, lastByte_chunk]
      rw [ushiftRight_ne_zero_iff] at h
      exact ⟨1, by omega, unsignedLen_one (by omega), by simp [encBytes, encByte, List.range_succ]⟩

/-- Everything `UEncBytes` answers (R100, R101): `n` bytes, the least `n`, at most 19, in the closed form of R49. -/
theorem uEncBytes_spec (u : Word) : ∃ n, n ≤ 19 ∧ UnsignedLen u n ∧ uEncBytes u = encBytes .unsigned u n n :=
  uEncLoop_spec maxLen u (by decide) (lt_of_lt_of_le u.isLt (Nat.pow_le_pow_right (by decide) (by decide)))

/-! ### The signed loop -/

theorem sshiftRight_toInt (v : Word) : (v.sshiftRight 7).toInt = v.toInt / 128 := by
  rw [BitVec.toInt_sshiftRight, Int.shiftRight_eq_div_pow]
  norm_num

theorem toNat_mod_128 (v : Word) : ((v.toNat % 128 : Nat) : Int) = v.toInt % 128 := by
  rw [BitVec.toInt_eq_toNat_cond]
  split <;> push_cast <;> omega

theorem chunk_bit6 (v : Word) : (chunk v).getLsbD 6 = decide (64 ≤ v.toInt % 128) := by
  have h : ∀ c : BitVec 7, c.getLsbD 6 = decide (64 ≤ c.toNat) := by decide
  rw [h, chunk_toNat, ← toNat_mod_128]
  exact decide_eq_decide.2 (by omega)

/-- The termination test of R140 holds exactly when the value is in `−64 .. 63`. -/
theorem signedStop_iff (v : Word) :
    signedStop (v.sshiftRight 7) (chunk v) = true ↔ -64 ≤ v.toInt ∧ v.toInt < 64 := by
  have hz : v.sshiftRight 7 = 0 ↔ v.toInt / 128 = 0 := by
    rw [← BitVec.toInt_inj, sshiftRight_toInt]; rfl
  have ho : v.sshiftRight 7 = ones ↔ v.toInt / 128 = -1 := by
    rw [← BitVec.toInt_inj, sshiftRight_toInt]
    have : (ones : Word).toInt = -1 := by decide
    rw [this]
  simp only [signedStop, Bool.or_eq_true, Bool.and_eq_true, decide_eq_true_eq, Bool.not_eq_true', chunk_bit6,
    decide_eq_false_iff_not, hz, ho]
  omega

theorem encBytes_signed_succ (x : Word) (n : Nat) (h : 1 ≤ n) :
    encBytes .signed x (n + 1) (n + 1) =
      BitVec.ofNat 8 (x.toNat % 128 + 128) :: encBytes .signed (x.sshiftRight 7) n n := by
  simp only [encBytes, List.range_succ_eq_map, List.map_cons, List.map_map]
  congr 1
  · have h0 : 0 + 1 < n + 1 := by omega
    have := toNat_mod_128 x
    simp only [encByte, h0, if_true, Nat.mul_zero, Int.pow_zero, Int.ediv_one]
    congr 2; omega
  · apply List.map_congr_left
    intro k _
    have hk : (x.sshiftRight 7).toInt / 2 ^ (7 * k) = x.toInt / 2 ^ (7 * (k + 1)) := by
      rw [sshiftRight_toInt, Int.ediv_ediv_of_nonneg (by norm_num)]
      congr 1
      rw [show 7 * (k + 1) = 7 * k + 7 by omega, pow_add]; ring
    simp only [Function.comp, encByte, Nat.succ_eq_add_one, hk]
    congr 2
    by_cases h' : k + 1 < n
    · simp [h']
    · simp [h']

theorem signedLen_one {x : Word} (h : -64 ≤ x.toInt ∧ x.toInt < 64) : SignedLen x 1 :=
  ⟨le_refl 1, by simpa using h, fun m h1 h2 => by omega⟩

theorem signedLen_succ {x : Word} {n : Nat} (hx : ¬(-64 ≤ x.toInt ∧ x.toInt < 64))
    (h : SignedLen (x.sshiftRight 7) n) : SignedLen x (n + 1) := by
  obtain ⟨h1, h2, h3⟩ := h
  rw [sshiftRight_toInt] at h2
  simp only [sshiftRight_toInt] at h3
  have e (m : Nat) (hm : 1 ≤ m) : (2 : Int) ^ (7 * (m + 1) - 1) = 2 ^ (7 * m - 1) * 128 := by
    rw [show 7 * (m + 1) - 1 = 7 * m - 1 + 7 by omega, pow_add]; norm_num
  refine ⟨by omega, ?_, ?_⟩
  · rw [e n h1]; omega
  · intro m hm hmn
    obtain ⟨m, rfl⟩ : ∃ k, m = k + 1 := ⟨m - 1, by omega⟩
    rcases Nat.eq_zero_or_pos m with rfl | hm
    · simpa using hx
    · have := h3 m hm (by omega)
      rw [e m hm]; omega

theorem sEncLoop_spec : ∀ (f : Nat) (v : Word), 1 ≤ f → -(2 ^ (7 * f - 1)) ≤ v.toInt → v.toInt < 2 ^ (7 * f - 1) →
    ∃ n, n ≤ f ∧ SignedLen v n ∧ sEncLoop f v = encBytes .signed v n n
  | f + 1, v, _, hlo, hhi => by
    unfold sEncLoop
    by_cases h : signedStop (v.sshiftRight 7) (chunk v) = true
    · rw [if_pos h, lastByte_chunk]
      rw [signedStop_iff] at h
      have := toNat_mod_128 v
      refine ⟨1, by omega, signedLen_one h, ?_⟩
      simp only [encBytes, encByte, List.range_succ, List.range_zero, List.nil_append, List.map_cons, List.map_nil,
        Nat.mul_zero, Int.pow_zero, Int.ediv_one]
      congr 2; simp; omega
    · rw [if_neg h, moreByte_chunk]
      rw [signedStop_iff] at h
      have hf : 1 ≤ f := by
        rcases Nat.eq_zero_or_pos f with rfl | hf
        · norm_num at hlo hhi; omega
        · exact hf
      have e : (2 : Int) ^ (7 * (f + 1) - 1) = 2 ^ (7 * f - 1) * 128 := by
        rw [show 7 * (f + 1) - 1 = 7 * f - 1 + 7 by omega, pow_add]; norm_num
      rw [e] at hlo hhi
      obtain ⟨n, hn, hl, hb⟩ := sEncLoop_spec f (v.sshiftRight 7) hf (by rw [sshiftRight_toInt]; omega)
        (by rw [sshiftRight_toInt]; omega)
      exact ⟨n + 1, by omega, signedLen_succ h hl, by rw [hb, encBytes_signed_succ v n hl.1]⟩

/-- Everything `SEncBytes` answers (R140, R141): `n` bytes, the least `n`, at most 19, in the closed form of R49. -/
theorem sEncBytes_spec (x : Word) : ∃ n, n ≤ 19 ∧ SignedLen x n ∧ sEncBytes x = encBytes .signed x n n := by
  have h1 := BitVec.le_toInt x
  have h2 := BitVec.toInt_lt (x := x)
  exact sEncLoop_spec maxLen x (by decide) (by norm_num [maxLen] at h1 ⊢; omega) (by norm_num [maxLen] at h2 ⊢; omega)

/-! ### Lengths -/

theorem unsignedLen_unique {x : Word} {n m : Nat} (hn : UnsignedLen x n) (hm : UnsignedLen x m) : n = m := by
  rcases Nat.lt_trichotomy n m with h | h | h
  · have := hm.2.2 n hn.1 h; have := hn.2.1; omega
  · exact h
  · have := hn.2.2 m hm.1 h; have := hm.2.1; omega

theorem signedLen_unique {x : Word} {n m : Nat} (hn : SignedLen x n) (hm : SignedLen x m) : n = m := by
  rcases Nat.lt_trichotomy n m with h | h | h
  · exact absurd hn.2.1 (hm.2.2 n hn.1 h)
  · exact h
  · exact absurd hm.2.1 (hn.2.2 m hm.1 h)

theorem encLen_unique {sg : Sign} {x : Word} {n m : Nat} (hn : EncLen sg x n) (hm : EncLen sg x m) : n = m := by
  cases sg
  · exact unsignedLen_unique hn hm
  · exact signedLen_unique hn hm

theorem uEncBytes_length {u : Word} {n : Nat} (h : UnsignedLen u n) : (uEncBytes u).length = n := by
  obtain ⟨m, _, hm, hb⟩ := uEncBytes_spec u
  rw [hb, encBytes_length, unsignedLen_unique h hm]

theorem sEncBytes_length {x : Word} {n : Nat} (h : SignedLen x n) : (sEncBytes x).length = n := by
  obtain ⟨m, _, hm, hb⟩ := sEncBytes_spec x
  rw [hb, encBytes_length, signedLen_unique h hm]

end Sys2Proof.Machine
end

