-- ==== Sys2Proof/Laws/Memory.lean ====
section
/-! SUPPORT. Host memory: reads after writes, and that every memory operation keeps the canonical form and the address space. -/

namespace Sys2Proof.Machine

/-! ### The canonical form -/

theorem wfFrom_cons {lo a : Nat} {b : Byte} {m : List Host.Cell} :
    Memory.wfFrom lo ((a, b) :: m) = true ↔ lo ≤ a ∧ b ≠ Memory.unlisted ∧ Memory.wfFrom (a + 1) m = true := by
  simp [Memory.wfFrom]

theorem wfFrom_mono {lo hi : Nat} (h : lo ≤ hi) : ∀ {m : List Host.Cell}, Memory.wfFrom hi m = true →
    Memory.wfFrom lo m = true
  | [], _ => rfl
  | (_, _) :: _, hm => by
    rw [wfFrom_cons] at hm ⊢
    exact ⟨le_trans h hm.1, hm.2⟩

/-- A canonical memory from `lo` on lists nothing below `lo`. -/
theorem memRead_below {lo x : Nat} (h : x < lo) : ∀ {m : List Host.Cell}, Memory.wfFrom lo m = true →
    memRead m x = Memory.unlisted
  | [], _ => rfl
  | (a, b) :: m, hm => by
    rw [wfFrom_cons] at hm
    have hx : x ≠ a := by omega
    simp [memRead, hx, memRead_below (show x < a + 1 by omega) hm.2.2]

theorem memWrite_wfFrom {lo x : Nat} (v : Byte) (h : lo ≤ x) : ∀ {m : List Host.Cell}, Memory.wfFrom lo m = true →
    Memory.wfFrom lo (memWrite m x v) = true
  | [], _ => by
    unfold memWrite
    split
    · rfl
    · rename_i hv; exact wfFrom_cons.2 ⟨h, hv, rfl⟩
  | (a, b) :: m, hm => by
    have hm' := wfFrom_cons.1 hm
    unfold memWrite
    split
    · split
      · exact hm
      · rename_i hx hv
        exact wfFrom_cons.2 ⟨h, hv, wfFrom_cons.2 ⟨hx, hm'.2⟩⟩
    · split
      · rename_i hx ha
        subst ha
        split
        · exact wfFrom_mono (by omega) hm'.2.2
        · rename_i hv; exact wfFrom_cons.2 ⟨h, hv, hm'.2.2⟩
      · exact wfFrom_cons.2 ⟨hm'.1, hm'.2.1, memWrite_wfFrom v (by omega) hm'.2.2⟩

/-- A write keeps the canonical form. -/
theorem memWrite_wf {m : List Host.Cell} (x : Nat) (v : Byte) (h : Memory.wf m = true) :
    Memory.wf (memWrite m x v) = true :=
  memWrite_wfFrom v (Nat.zero_le x) h

/-- A run of writes keeps the canonical form. -/
theorem memWriteBytes_wf : ∀ (bs : List Byte) {m : List Host.Cell} (base : Nat), Memory.wf m = true →
    Memory.wf (memWriteBytes m base bs) = true
  | [], _, _, h => h
  | b :: bs, _, base, h => memWriteBytes_wf bs (base + 1) (memWrite_wf base b h)

/-! ### The address space -/

theorem mem_memWrite {c : Host.Cell} {x : Nat} {v : Byte} : ∀ {m : List Host.Cell}, c ∈ memWrite m x v →
    c.1 = x ∨ c ∈ m
  | [], h => by
    unfold memWrite at h
    split at h
    · simp at h
    · simp only [List.mem_singleton] at h; exact .inl (by rw [h])
  | (a, b) :: m, h => by
    unfold memWrite at h
    split at h
    · split at h
      · exact .inr h
      · rcases List.mem_cons.1 h with h | h
        · exact .inl (by rw [h])
        · exact .inr h
    · split at h
      · split at h
        · exact .inr (List.mem_cons_of_mem _ h)
        · rcases List.mem_cons.1 h with h | h
          · exact .inl (by rw [h])
          · exact .inr (List.mem_cons_of_mem _ h)
      · rcases List.mem_cons.1 h with h | h
        · exact .inr (by rw [h]; exact List.mem_cons_self)
        · rcases mem_memWrite h with h | h
          · exact .inl h
          · exact .inr (List.mem_cons_of_mem _ h)

theorem within_iff {c : Config} {m : List Host.Cell} :
    Memory.within c m = true ↔ ∀ cell ∈ m, cell.1 < 2 ^ c.addrW := by
  simp [Memory.within]

/-- A write inside the address space keeps memory inside it. -/
theorem memWrite_within {c : Config} {m : List Host.Cell} {x : Nat} (v : Byte) (hx : x < 2 ^ c.addrW)
    (h : Memory.within c m = true) : Memory.within c (memWrite m x v) = true := by
  rw [within_iff] at h ⊢
  intro cell hc
  rcases mem_memWrite hc with e | e
  · rw [e]; exact hx
  · exact h cell e

theorem memWriteBytes_within {c : Config} : ∀ (bs : List Byte) {m : List Host.Cell} {base : Nat},
    base + bs.length ≤ 2 ^ c.addrW → Memory.within c m = true → Memory.within c (memWriteBytes m base bs) = true
  | [], _, _, _, h => h
  | b :: bs, _, base, hb, h => by
    simp only [List.length_cons] at hb
    exact memWriteBytes_within bs (by omega) (memWrite_within b (by omega) h)

/-! ### Reads after writes -/

theorem memRead_memWrite_from {lo x : Nat} (v : Byte) (y : Nat) : ∀ {m : List Host.Cell},
    Memory.wfFrom lo m = true → memRead (memWrite m x v) y = if y = x then v else memRead m y
  | [], _ => by
    unfold memWrite
    split
    · rename_i hv; subst hv; simp [memRead]
    · simp [memRead]
  | (a, b) :: m, hm => by
    have hm' := wfFrom_cons.1 hm
    unfold memWrite
    split
    · rename_i hx
      split
      · rename_i hv
        subst hv
        split
        · rename_i e
          subst e
          simp [memRead, Nat.ne_of_lt hx, memRead_below (show y < a + 1 by omega) hm'.2.2]
        · rfl
      · simp [memRead]
    · split
      · rename_i ha
        subst ha
        split
        · rename_i hv
          subst hv
          by_cases e : y = x
          · subst e; simp [memRead_below (Nat.lt_succ_self y) hm'.2.2]
          · simp [memRead, e]
        · by_cases e : y = x <;> simp [memRead, e]
      · rename_i hlt hne
        by_cases e : y = a
        · subst e
          have : y ≠ x := fun h => hne h.symm
          simp [memRead, this]
        · simp [memRead, e, memRead_memWrite_from v y hm'.2.2]

/-- Reading after a write: the byte written, and every other byte as before (R44). -/
theorem memRead_memWrite {m : List Host.Cell} (h : Memory.wf m = true) (x : Nat) (v : Byte) (y : Nat) :
    memRead (memWrite m x v) y = if y = x then v else memRead m y :=
  memRead_memWrite_from v y h

/-- Outside the bytes of a run of writes every byte is as before (R46). -/
theorem memRead_memWriteBytes_outside : ∀ (bs : List Byte) {m : List Host.Cell} {base y : Nat},
    Memory.wf m = true → y < base ∨ base + bs.length ≤ y → memRead (memWriteBytes m base bs) y = memRead m y
  | [], _, _, _, _, _ => rfl
  | b :: bs, m, base, y, h, hy => by
    simp only [List.length_cons] at hy
    have hne : y ≠ base := by omega
    rw [memWriteBytes, memRead_memWriteBytes_outside bs (memWrite_wf base b h) (by omega), memRead_memWrite h]
    simp [hne]

/-- Byte `k` of a run of writes reads as the `k`-th byte written (R46, R49). -/
theorem memRead_memWriteBytes_inside : ∀ (bs : List Byte) {m : List Host.Cell} {base k : Nat},
    Memory.wf m = true → (hk : k < bs.length) → memRead (memWriteBytes m base bs) (base + k) = bs[k]
  | b :: bs, m, base, 0, h, _ => by
    rw [memWriteBytes, memRead_memWriteBytes_outside bs (memWrite_wf base b h) (by omega), memRead_memWrite h]
    simp
  | b :: bs, m, base, k + 1, h, hk => by
    have hk' : k < bs.length := by simpa using hk
    rw [memWriteBytes, show base + (k + 1) = base + 1 + k by omega,
      memRead_memWriteBytes_inside bs (memWrite_wf base b h) hk']
    simp

end Sys2Proof.Machine
end

