-- ==== Sys2Proof/Laws/Scan.lean ====
section
/-! SUPPORT. The decoder loop against the closed forms of R66: what one pass does after `j` continuing bytes, and how a whole scan ends.
`scanAt get j` is the scan after `j` bytes of `get`. -/

namespace Sys2Proof.Machine

theorem continues_iff (b : Byte) : continues b = true ↔ 128 ≤ b.toNat := by
  revert b; decide

theorem bit6_iff (b : Byte) : b.getLsbD 6 = true ↔ 64 ≤ b.toNat % 128 := by
  revert b; decide

theorem dataBits_toNat (b : Byte) : (dataBits b).toNat = b.toNat % 128 := by
  simp [dataBits]

/-- The excess tests of R120 and R160 on a terminating byte. -/
theorem excess_iff (sg : Sign) (b : Byte) (h : b.toNat < 128) : excess sg b = true ↔ ¬LastByteFits sg b := by
  cases sg
  · simp only [LastByteFits, excess]; revert b; decide
  · simp only [LastByteFits, excess]; revert b; decide

theorem chunkSum_lt (get : Nat → Byte) : ∀ n, chunkSum get n < 2 ^ (7 * n)
  | 0 => by simp [chunkSum]
  | n + 1 => by
    have h := chunkSum_lt get n
    have hb : (get n).toNat % 128 ≤ 127 := by omega
    have hm := Nat.mul_le_mul_right (2 ^ (7 * n)) hb
    have e : 2 ^ (7 * (n + 1)) = 2 ^ (7 * n) * 128 := by rw [show 7 * (n + 1) = 7 * n + 7 by omega, pow_add]; norm_num
    simp only [chunkSum, e]
    omega

/-- A closed form depends on the bytes it sums only. -/
theorem chunkSum_congr {g g' : Nat → Byte} : ∀ {n : Nat}, (∀ k, k < n → g k = g' k) → chunkSum g n = chunkSum g' n
  | 0, _ => rfl
  | n + 1, h => by
    simp only [chunkSum, h n (Nat.lt_succ_self n), chunkSum_congr fun k hk => h k (Nat.lt_succ_of_lt hk)]

theorem decodedValue_congr {sg : Sign} {g g' : Nat → Byte} {n : Nat} (hn : 1 ≤ n) (h : ∀ k, k < n → g k = g' k) :
    decodedValue sg g n = decodedValue sg g' n := by
  cases sg <;> simp only [decodedValue, chunkSum_congr h, h (n - 1) (by omega)]

/-- The scan after `j` bytes. -/
def scanAt (get : Nat → Byte) (j : Nat) : Scan := { acc := BitVec.ofNat 128 (chunkSum get j), shift := 7 * j, i := j }

theorem scanAt_zero (get : Nat → Byte) : scanAt get 0 = Scan.start := rfl

/-- OR-ing a chunk in at its offset adds it (R66: the terms' set bits are disjoint). -/
theorem acc_step (get : Nat → Byte) (j : Nat) :
    BitVec.ofNat 128 (chunkSum get j) ||| ((dataBits (get j)).setWidth 128 <<< (7 * j)) =
      BitVec.ofNat 128 (chunkSum get (j + 1)) := by
  apply BitVec.eq_of_toNat_eq
  have hd : ((dataBits (get j)).setWidth 128).toNat = (get j).toNat % 128 := by
    rw [BitVec.toNat_setWidth, dataBits_toNat]; omega
  rw [BitVec.toNat_or, BitVec.toNat_shiftLeft, hd, BitVec.toNat_ofNat, BitVec.toNat_ofNat, ← Nat.or_mod_two_pow,
    Nat.or_comm, ← Nat.shiftLeft_add_eq_or_of_lt (chunkSum_lt get j), Nat.shiftLeft_eq, chunkSum, Nat.add_comm]

/-- The sign fill of R160 subtracts `2^(7n)`. -/
theorem fill_value {c s : Nat} (hs : s < 128) (hc : c < 2 ^ s) :
    BitVec.ofNat 128 c ||| (ones <<< s) = BitVec.ofInt 128 ((c : Int) - 2 ^ s) := by
  have hp : 2 ^ 128 = 2 ^ (128 - s) * 2 ^ s := by rw [← Nat.pow_add]; congr 1; omega
  have h1 : 1 ≤ 2 ^ (128 - s) := Nat.one_le_two_pow
  have hle : 2 ^ s ≤ 2 ^ 128 := Nat.pow_le_pow_right (by decide) (by omega)
  have hones : ((2 ^ 128 - 1) <<< s) % 2 ^ 128 = (2 ^ (128 - s) - 1) <<< s := by
    rw [Nat.shiftLeft_eq, Nat.shiftLeft_eq]
    have : (2 ^ 128 - 1) * 2 ^ s = (2 ^ (128 - s) - 1) * 2 ^ s + 2 ^ 128 * (2 ^ s - 1) := by
      zify [h1, Nat.one_le_two_pow (n := s), Nat.one_le_two_pow (n := 128)]
      have hp' : (2 : Int) ^ 128 = 2 ^ (128 - s) * 2 ^ s := by exact_mod_cast hp
      rw [hp']; ring
    rw [this, Nat.add_mul_mod_self_left, Nat.mod_eq_of_lt]
    rw [hp]; exact Nat.mul_lt_mul_of_pos_right (by omega) (Nat.two_pow_pos s)
  apply BitVec.eq_of_toNat_eq
  rw [BitVec.toNat_or, BitVec.toNat_shiftLeft, BitVec.toNat_allOnes, hones, BitVec.toNat_ofNat,
    Nat.mod_eq_of_lt (lt_of_lt_of_le hc hle), Nat.or_comm, ← Nat.shiftLeft_add_eq_or_of_lt hc, BitVec.toNat_ofInt,
    Nat.shiftLeft_eq]
  have : ((c : Int) - 2 ^ s) % ((2 ^ 128 : Nat) : Int) = (((2 ^ (128 - s) - 1) * 2 ^ s + c : Nat) : Int) := by
    rw [← Int.add_emod_right, Int.emod_eq_of_lt]
    · have hp' : (2 : Int) ^ 128 = 2 ^ (128 - s) * 2 ^ s := by exact_mod_cast hp
      rw [show ((2 ^ 128 : Nat) : Int) = (2 : Int) ^ 128 by norm_cast, hp']
      push_cast [h1]; ring
    · have : (2 : Int) ^ s ≤ 2 ^ 128 := by exact_mod_cast hle
      push_cast; omega
    · have : (c : Int) < 2 ^ s := by exact_mod_cast hc
      push_cast; omega
  rw [this]; rfl

theorem scanValue_eq (sg : Sign) (get : Nat → Byte) (j : Nat) :
    scanValue sg (BitVec.ofNat 128 (chunkSum get (j + 1))) (7 * j + 7) (get j) = decodedValue sg get (j + 1) := by
  cases sg
  · rfl
  · simp only [scanValue, signFill, decodedValue, bit6_iff, Nat.add_sub_cancel, show 7 * j + 7 = 7 * (j + 1) by omega]
    by_cases h : 7 * (j + 1) < 128 ∧ 64 ≤ (get j).toNat % 128
    · rw [if_pos h, if_pos ⟨by omega, h.2⟩, fill_value h.1 (chunkSum_lt get (j + 1))]
    · rw [if_neg h, if_neg (by omega)]
      simp

/-! ### One pass after `j` bytes -/

theorem scanByte_more (sg : Sign) (p : PExcess) (get : Nat → Byte) {j : Nat} (hj : j < 18)
    (h : 128 ≤ (get j).toNat) : scanByte sg p (scanAt get j) (get j) = .more (scanAt get (j + 1)) := by
  have hc := (continues_iff (get j)).2 h
  simp only [scanByte, scanAt, acc_step, hc, if_true, hj]
  rfl

theorem scanByte_ceiling (sg : Sign) (p : PExcess) (get : Nat → Byte) (h : 128 ≤ (get 18).toNat) :
    scanByte sg p (scanAt get 18) (get 18) = .overflow := by
  have hc := (continues_iff (get 18)).2 h
  simp [scanByte, scanAt, hc]

theorem scanByte_last (sg : Sign) (p : PExcess) (get : Nat → Byte) {j : Nat} (h : (get j).toNat < 128)
    (hf : j = 18 → p = .overflow → LastByteFits sg (get 18)) :
    scanByte sg p (scanAt get j) (get j) = .ok (decodedValue sg get (j + 1)) (j + 1) := by
  have hc : ¬continues (get j) = true := fun hc => by
    have := (continues_iff (get j)).1 hc; omega
  have he : ¬(j = 18 ∧ p = .overflow ∧ excess sg (get j) = true) := by
    rintro ⟨rfl, hp, he⟩
    exact (excess_iff sg (get 18) h).1 he (hf rfl hp)
  simp only [scanByte, scanAt, acc_step, hc, if_false, he, scanValue_eq]
  rfl

theorem scanByte_excess (sg : Sign) (get : Nat → Byte) (h : (get 18).toNat < 128)
    (hf : ¬LastByteFits sg (get 18)) : scanByte sg .overflow (scanAt get 18) (get 18) = .overflow := by
  have hc : ¬continues (get 18) = true := fun hc => by
    have := (continues_iff (get 18)).1 hc; omega
  simp [scanByte, scanAt, hc, (excess_iff sg (get 18) h).2 hf]

/-- An overlong encoding ends in Overflow at byte 18. -/
theorem scanByte_overlong {sg : Sign} {p : PExcess} {get : Nat → Byte} (h : OverlongEncoding sg p get) :
    scanByte sg p (scanAt get 18) (get 18) = .overflow := by
  rcases h.2 with hc | ⟨hlast, hp, hf⟩
  · exact scanByte_ceiling sg p get hc
  · subst hp; exact scanByte_excess sg get hlast hf

/-! ### Whole scans of a getter that answers at once -/

theorem scanLoop_advance (sg : Sign) (p : PExcess) (get : Nat → Byte) (g : Nat → Option Byte) :
    ∀ j, j ≤ 18 → (∀ k, k < j → g k = some (get k) ∧ 128 ≤ (get k).toNat) →
      scanLoop sg p g maxLen Scan.start = scanLoop sg p g (maxLen - j) (scanAt get j)
  | 0, _, _ => rfl
  | j + 1, hj, h => by
    rw [scanLoop_advance sg p get g j (by omega) fun k hk => h k (by omega),
      show maxLen - j = maxLen - (j + 1) + 1 by simp only [maxLen]; omega]
    have hg := h j (Nat.lt_succ_self j)
    have hi : (scanAt get j).i = j := rfl
    rw [scanLoop, hi, hg.1]
    simp only [scanByte_more sg p get (show j < 18 by omega) hg.2]

theorem scanLoop_whole {sg : Sign} {p : PExcess} {get : Nat → Byte} {g : Nat → Option Byte} {n : Nat}
    (hw : WholeEncoding sg p get n) (hg : ∀ k, k < n → g k = some (get k)) :
    scanLoop sg p g maxLen Scan.start = .ok (decodedValue sg get n) n := by
  obtain ⟨h1, h19, hc, hl, hf⟩ := hw
  obtain ⟨j, rfl⟩ : ∃ j, n = j + 1 := ⟨n - 1, by omega⟩
  rw [scanLoop_advance sg p get g j (by omega) fun k hk => ⟨hg k (by omega), hc k (by omega)⟩,
    show maxLen - j = maxLen - (j + 1) + 1 by simp only [maxLen]; omega]
  have hi : (scanAt get j).i = j := rfl
  rw [scanLoop, hi, hg j (by omega)]
  simp only [scanByte_last sg p get (show (get j).toNat < 128 by simpa using hl) fun e => hf (by omega)]

theorem scanLoop_incomplete {sg : Sign} {p : PExcess} {get : Nat → Byte} {g : Nat → Option Byte} {len : Nat}
    (hl : len < 19) (hg : ∀ k, k < len → g k = some (get k) ∧ 128 ≤ (get k).toNat) (hn : g len = none) :
    scanLoop sg p g maxLen Scan.start = .incomplete := by
  rw [scanLoop_advance sg p get g len (by omega) hg,
    show maxLen - len = maxLen - (len + 1) + 1 by simp only [maxLen]; omega]
  have hi : (scanAt get len).i = len := rfl
  rw [scanLoop, hi, hn]

theorem scanLoop_overlong {sg : Sign} {p : PExcess} {get : Nat → Byte} {g : Nat → Option Byte}
    (ho : OverlongEncoding sg p get) (hg : ∀ k, k < 19 → g k = some (get k)) :
    scanLoop sg p g maxLen Scan.start = .overflow := by
  rw [scanLoop_advance sg p get g 18 (by omega) fun k hk => ⟨hg k (by omega), ho.1 k hk⟩]
  have hi : (scanAt get 18).i = 18 := rfl
  rw [show maxLen - 18 = 0 + 1 from rfl, scanLoop, hi, hg 18 (by omega)]
  simp only [scanByte_overlong ho]

/-- Every input is of one of three kinds: `n` of its bytes are a whole encoding, or it ends before one does, or it is
overlong (R120, R206). -/
theorem scan_trichotomy (sg : Sign) (p : PExcess) (get : Nat → Byte) (len : Nat) :
    (∃ n, n ≤ len ∧ WholeEncoding sg p get n) ∨ (len < 19 ∧ ∀ k, k < len → 128 ≤ (get k).toNat) ∨
      (19 ≤ len ∧ OverlongEncoding sg p get) := by
  by_cases h : ∃ k, k < min len 19 ∧ (get k).toNat < 128
  · classical
    have hk := Nat.find_spec h
    have hmin : ∀ j, j < Nat.find h → 128 ≤ (get j).toNat := fun j hj => by
      have := Nat.find_min h hj
      push Not at this
      exact this (by omega)
    generalize Nat.find h = k at hk hmin
    by_cases hf : k = 18 → p = .overflow → LastByteFits sg (get 18)
    · exact .inl ⟨k + 1, by omega, by omega, by omega, fun j hj => hmin j (by omega), by simpa using hk.2,
        fun e => hf (by omega)⟩
    · push Not at hf
      obtain ⟨rfl, hp, hfit⟩ := hf
      exact .inr (.inr ⟨by omega, hmin, .inr ⟨hk.2, hp, hfit⟩⟩)
  · push Not at h
    by_cases hl : len < 19
    · exact .inr (.inl ⟨hl, fun k hk => h k (by omega)⟩)
    · exact .inr (.inr ⟨by omega, fun k hk => h k (by omega), .inl (h 18 (by omega))⟩)

/-- The first byte without continuation fixes the length (R64). -/
theorem wholeEncoding_unique {sg sg' : Sign} {p : PExcess} {get : Nat → Byte} {n m : Nat}
    (hn : WholeEncoding sg p get n) (hm : WholeEncoding sg' p get m) : n = m := by
  rcases Nat.lt_trichotomy n m with h | h | h
  · have := hm.2.2.1 (n - 1) (by have := hn.1; omega); have := hn.2.2.2.1; omega
  · exact h
  · have := hn.2.2.1 (m - 1) (by have := hm.1; omega); have := hm.2.2.2.1; omega

end Sys2Proof.Machine
end

