-- ==== Sys2Proof/Laws/State.lean ====
section
/-! SUPPORT. One lemma per field of State for each named update: no proof about a step unfolds a record update. -/

namespace Sys2Proof.Machine

/-! ### respond -/

@[simp] theorem respond_cfg (ok : Bool) (e : ErrorKind) (n : Nat) (res : ResultRec) (s : State) : (respond ok e n res s).cfg = s.cfg := rfl
@[simp] theorem respond_port (ok : Bool) (e : ErrorKind) (n : Nat) (res : ResultRec) (s : State) : (respond ok e n res s).port = s.port := rfl
@[simp] theorem respond_req (ok : Bool) (e : ErrorKind) (n : Nat) (res : ResultRec) (s : State) : (respond ok e n res s).req = s.req := rfl
@[simp] theorem respond_rst (ok : Bool) (e : ErrorKind) (n : Nat) (res : ResultRec) (s : State) : (respond ok e n res s).rst = s.rst := rfl
@[simp] theorem respond_busy (ok : Bool) (e : ErrorKind) (n : Nat) (res : ResultRec) (s : State) : (respond ok e n res s).busy = none := rfl
@[simp] theorem respond_resp (ok : Bool) (e : ErrorKind) (n : Nat) (res : ResultRec) (s : State) : (respond ok e n res s).resp = { valid := true, ok := ok, err := e.code, n := BitVec.ofNat 5 n, res := res } := rfl
@[simp] theorem respond_mem (ok : Bool) (e : ErrorKind) (n : Nat) (res : ResultRec) (s : State) : (respond ok e n res s).mem = s.mem := rfl
@[simp] theorem respond_sink (ok : Bool) (e : ErrorKind) (n : Nat) (res : ResultRec) (s : State) : (respond ok e n res s).sink = s.sink := rfl
@[simp] theorem respond_source (ok : Bool) (e : ErrorKind) (n : Nat) (res : ResultRec) (s : State) : (respond ok e n res s).source = s.source := rfl
@[simp] theorem respond_draws (ok : Bool) (e : ErrorKind) (n : Nat) (res : ResultRec) (s : State) : (respond ok e n res s).draws = s.draws := rfl
@[simp] theorem respond_foreign (ok : Bool) (e : ErrorKind) (n : Nat) (res : ResultRec) (s : State) : (respond ok e n res s).foreign = s.foreign := rfl

/-! ### raiseError -/

@[simp] theorem raiseError_cfg (e : ErrorKind) (s : State) : (raiseError e s).cfg = s.cfg := rfl
@[simp] theorem raiseError_port (e : ErrorKind) (s : State) : (raiseError e s).port = s.port := rfl
@[simp] theorem raiseError_req (e : ErrorKind) (s : State) : (raiseError e s).req = s.req := rfl
@[simp] theorem raiseError_rst (e : ErrorKind) (s : State) : (raiseError e s).rst = s.rst := rfl
@[simp] theorem raiseError_busy (e : ErrorKind) (s : State) : (raiseError e s).busy = none := rfl
@[simp] theorem raiseError_resp (e : ErrorKind) (s : State) : (raiseError e s).resp = { valid := true, ok := false, err := e.code, n := 0, res := defaultRes } := rfl
@[simp] theorem raiseError_mem (e : ErrorKind) (s : State) : (raiseError e s).mem = s.mem := rfl
@[simp] theorem raiseError_sink (e : ErrorKind) (s : State) : (raiseError e s).sink = s.sink := rfl
@[simp] theorem raiseError_source (e : ErrorKind) (s : State) : (raiseError e s).source = s.source := rfl
@[simp] theorem raiseError_draws (e : ErrorKind) (s : State) : (raiseError e s).draws = s.draws := rfl
@[simp] theorem raiseError_foreign (e : ErrorKind) (s : State) : (raiseError e s).foreign = s.foreign := rfl

/-! ### safeFailure -/

@[simp] theorem safeFailure_cfg (s : State) : (safeFailure s).cfg = s.cfg := rfl
@[simp] theorem safeFailure_port (s : State) : (safeFailure s).port = s.port := rfl
@[simp] theorem safeFailure_req (s : State) : (safeFailure s).req = s.req := rfl
@[simp] theorem safeFailure_rst (s : State) : (safeFailure s).rst = s.rst := rfl
@[simp] theorem safeFailure_busy (s : State) : (safeFailure s).busy = none := rfl
@[simp] theorem safeFailure_resp (s : State) : (safeFailure s).resp = { valid := true, ok := false, err := 0, n := 0, res := defaultRes } := rfl
@[simp] theorem safeFailure_mem (s : State) : (safeFailure s).mem = s.mem := rfl
@[simp] theorem safeFailure_sink (s : State) : (safeFailure s).sink = s.sink := rfl
@[simp] theorem safeFailure_source (s : State) : (safeFailure s).source = s.source := rfl
@[simp] theorem safeFailure_draws (s : State) : (safeFailure s).draws = s.draws := rfl
@[simp] theorem safeFailure_foreign (s : State) : (safeFailure s).foreign = s.foreign := rfl

/-! ### respondCount -/

@[simp] theorem respondCount_cfg (n : Nat) (s : State) : (respondCount n s).cfg = s.cfg := rfl
@[simp] theorem respondCount_port (n : Nat) (s : State) : (respondCount n s).port = s.port := rfl
@[simp] theorem respondCount_req (n : Nat) (s : State) : (respondCount n s).req = s.req := rfl
@[simp] theorem respondCount_rst (n : Nat) (s : State) : (respondCount n s).rst = s.rst := rfl
@[simp] theorem respondCount_busy (n : Nat) (s : State) : (respondCount n s).busy = none := rfl
@[simp] theorem respondCount_resp (n : Nat) (s : State) : (respondCount n s).resp = { valid := true, ok := true, err := 0, n := BitVec.ofNat 5 n, res := defaultRes } := rfl
@[simp] theorem respondCount_mem (n : Nat) (s : State) : (respondCount n s).mem = s.mem := rfl
@[simp] theorem respondCount_sink (n : Nat) (s : State) : (respondCount n s).sink = s.sink := rfl
@[simp] theorem respondCount_source (n : Nat) (s : State) : (respondCount n s).source = s.source := rfl
@[simp] theorem respondCount_draws (n : Nat) (s : State) : (respondCount n s).draws = s.draws := rfl
@[simp] theorem respondCount_foreign (n : Nat) (s : State) : (respondCount n s).foreign = s.foreign := rfl

/-! ### respondValue -/

@[simp] theorem respondValue_cfg (sg : Sign) (n : Nat) (x : Word) (s : State) : (respondValue sg n x s).cfg = s.cfg := rfl
@[simp] theorem respondValue_port (sg : Sign) (n : Nat) (x : Word) (s : State) : (respondValue sg n x s).port = s.port := rfl
@[simp] theorem respondValue_req (sg : Sign) (n : Nat) (x : Word) (s : State) : (respondValue sg n x s).req = s.req := rfl
@[simp] theorem respondValue_rst (sg : Sign) (n : Nat) (x : Word) (s : State) : (respondValue sg n x s).rst = s.rst := rfl
@[simp] theorem respondValue_busy (sg : Sign) (n : Nat) (x : Word) (s : State) : (respondValue sg n x s).busy = none := rfl
@[simp] theorem respondValue_resp (sg : Sign) (n : Nat) (x : Word) (s : State) : (respondValue sg n x s).resp = { valid := true, ok := true, err := 0, n := BitVec.ofNat 5 n, res := classify sg x } := rfl
@[simp] theorem respondValue_mem (sg : Sign) (n : Nat) (x : Word) (s : State) : (respondValue sg n x s).mem = s.mem := rfl
@[simp] theorem respondValue_sink (sg : Sign) (n : Nat) (x : Word) (s : State) : (respondValue sg n x s).sink = s.sink := rfl
@[simp] theorem respondValue_source (sg : Sign) (n : Nat) (x : Word) (s : State) : (respondValue sg n x s).source = s.source := rfl
@[simp] theorem respondValue_draws (sg : Sign) (n : Nat) (x : Word) (s : State) : (respondValue sg n x s).draws = s.draws := rfl
@[simp] theorem respondValue_foreign (sg : Sign) (n : Nat) (x : Word) (s : State) : (respondValue sg n x s).foreign = s.foreign := rfl

/-! ### takeRequest -/

@[simp] theorem takeRequest_cfg (r : Request) (rest : List Request) (s : State) : (takeRequest r rest s).cfg = s.cfg := rfl
@[simp] theorem takeRequest_port (r : Request) (rest : List Request) (s : State) : (takeRequest r rest s).port = rest := rfl
@[simp] theorem takeRequest_req (r : Request) (rest : List Request) (s : State) : (takeRequest r rest s).req = r := rfl
@[simp] theorem takeRequest_rst (r : Request) (rest : List Request) (s : State) : (takeRequest r rest s).rst = s.rst := rfl
@[simp] theorem takeRequest_busy (r : Request) (rest : List Request) (s : State) : (takeRequest r rest s).busy = s.busy := rfl
@[simp] theorem takeRequest_resp (r : Request) (rest : List Request) (s : State) : (takeRequest r rest s).resp = s.resp := rfl
@[simp] theorem takeRequest_mem (r : Request) (rest : List Request) (s : State) : (takeRequest r rest s).mem = s.mem := rfl
@[simp] theorem takeRequest_sink (r : Request) (rest : List Request) (s : State) : (takeRequest r rest s).sink = s.sink := rfl
@[simp] theorem takeRequest_source (r : Request) (rest : List Request) (s : State) : (takeRequest r rest s).source = s.source := rfl
@[simp] theorem takeRequest_draws (r : Request) (rest : List Request) (s : State) : (takeRequest r rest s).draws = s.draws := rfl
@[simp] theorem takeRequest_foreign (r : Request) (rest : List Request) (s : State) : (takeRequest r rest s).foreign = s.foreign := rfl

/-! ### resetBlock -/

@[simp] theorem resetBlock_cfg (s : State) : (resetBlock s).cfg = s.cfg := rfl
@[simp] theorem resetBlock_port (s : State) : (resetBlock s).port = s.port := rfl
@[simp] theorem resetBlock_req (s : State) : (resetBlock s).req = s.req := rfl
@[simp] theorem resetBlock_rst (s : State) : (resetBlock s).rst = .low := rfl
@[simp] theorem resetBlock_busy (s : State) : (resetBlock s).busy = none := rfl
@[simp] theorem resetBlock_resp (s : State) : (resetBlock s).resp = { Resp.ofPacked (Config.freeResp s.draws) with valid := false } := rfl
@[simp] theorem resetBlock_mem (s : State) : (resetBlock s).mem = s.mem := rfl
@[simp] theorem resetBlock_sink (s : State) : (resetBlock s).sink = s.sink := rfl
@[simp] theorem resetBlock_source (s : State) : (resetBlock s).source = s.source := rfl
@[simp] theorem resetBlock_draws (s : State) : (resetBlock s).draws = s.draws + drawsPerReset := rfl
@[simp] theorem resetBlock_foreign (s : State) : (resetBlock s).foreign = s.foreign := rfl

end Sys2Proof.Machine
end

