-- ==== Sys2Proof/Laws/Commands.lean ====
section
/-! SUPPORT. What each shared operation of the commands can do, said once: the buffer encode, the decode endings, one step of a
sink encode and of a source decode, the classification. -/

namespace Sys2Proof.Machine

/-! ### Answers -/

theorem fitsIn_eq_inRange (sg : Sign) (w : Nat) (x : Word) : fitsIn sg w x = inRange sg w x := by
  cases sg
  · have := Nat.two_pow_pos w
    simp only [fitsIn, inRange, uval]
    exact decide_eq_decide.2 (by omega)
  · simp only [fitsIn, inRange, sval_eq_toInt]
    congr 1
    exact decide_eq_decide.2 (by omega)

/-- `Classify` in the terms of the claims (R180, R181). -/
theorem classify_eq_resultOf (sg : Sign) (x : Word) : classify sg x = resultOf sg x := by
  simp only [classify, resultOf, sizeClassOf, fitsIn_eq_inRange]

theorem respondCount_eq (n : Nat) (s : State) : respondCount n s = { s with busy := none, resp := encodedAnswer n } := rfl

theorem respondValue_eq (sg : Sign) (n : Nat) (x : Word) (s : State) :
    respondValue sg n x s = { s with busy := none, resp := valueAnswer n sg x } := by
  simp only [respondValue, respond, classify_eq_resultOf]
  rfl

theorem safeFailure_eq (s : State) : safeFailure s = { s with busy := none, resp := errorAnswer 0 } := rfl

theorem raiseError_eq (e : ErrorKind) (s : State) : raiseError e s = { s with busy := none, resp := errorAnswer e.code } :=
  rfl

/-! ### Buffer encodes -/

/-- A buffer encode into a window that fits (R103, R104, R206). -/
theorem encodeToBuffer_fits {bytes : List Byte} {onSmall : State → State} {s : State}
    (h : s.req.dbase + s.req.dcap ≤ 2 ^ s.cfg.addrW) :
    encodeToBuffer bytes onSmall s =
      if s.req.dcap < bytes.length then .next (onSmall s)
      else .next { s with
        busy := none, mem := memWriteBytes s.mem s.req.dbase bytes, resp := encodedAnswer bytes.length } := by
  simp only [encodeToBuffer, dstFits, windowFits, decide_eq_true h, if_true, respondCount_eq, effAddr, Nat.add_zero]

/-- A buffer encode into a window that does not fit is refused (R41). -/
theorem encodeToBuffer_misfit {bytes : List Byte} {onSmall : State → State} {s : State}
    (h : ¬s.req.dbase + s.req.dcap ≤ 2 ^ s.cfg.addrW) :
    encodeToBuffer bytes onSmall s = .refused .windowDoesNotFit := by
  simp [encodeToBuffer, dstFits, windowFits, h]

/-- What a buffer encode that answers a next state has done. -/
theorem encodeToBuffer_next {bytes : List Byte} {onSmall : State → State} {s t : State}
    (h : encodeToBuffer bytes onSmall s = .next t) :
    s.req.dbase + s.req.dcap ≤ 2 ^ s.cfg.addrW ∧
      ((s.req.dcap < bytes.length ∧ t = onSmall s) ∨
        (bytes.length ≤ s.req.dcap ∧ t = { s with
          busy := none, mem := memWriteBytes s.mem s.req.dbase bytes, resp := encodedAnswer bytes.length })) := by
  by_cases hf : s.req.dbase + s.req.dcap ≤ 2 ^ s.cfg.addrW
  · rw [encodeToBuffer_fits hf] at h
    split at h
    · rename_i hc; cases h; exact ⟨hf, .inl ⟨hc, rfl⟩⟩
    · rename_i hc; cases h; exact ⟨hf, .inr ⟨by omega, rfl⟩⟩
  · rw [encodeToBuffer_misfit hf] at h; cases h

/-! ### Buffer decodes -/

theorem srcFits_iff (s : State) : srcFits s = true ↔ s.req.sbase + s.req.slen ≤ 2 ^ s.cfg.addrW := by
  simp [srcFits, windowFits]

theorem getBuf_inside {s : State} {k : Nat} (h : k < s.req.slen) :
    getBuf s k = some (memRead s.mem (s.req.sbase + k)) := by
  simp [getBuf, effAddr, h]

theorem getBuf_outside {s : State} : getBuf s s.req.slen = none := by
  simp [getBuf]

/-! ### Sink encodes -/

theorem sinkPut_next {k k' : Sink} {b : Byte} (h : sinkPut k b = some k') : k' = sinkGot k [b] 1 ∧ k.room ≠ some 0 := by
  unfold sinkPut at h
  split at h
  · rename_i hr; cases h; simp [sinkGot, hr]
  · cases h
  · rename_i hr; cases h; simp [sinkGot, hr]

theorem sinkPut_none_iff (k : Sink) (b : Byte) : sinkPut k b = none ↔ k.room = some 0 := by
  unfold sinkPut
  split <;> simp_all

theorem sinkPut_accepts {k : Sink} (b : Byte) (h : k.room ≠ some 0) : sinkPut k b = some (sinkGot k [b] 1) := by
  cases hp : sinkPut k b with
  | none => exact absurd ((sinkPut_none_iff k b).1 hp) h
  | some k' => rw [(sinkPut_next hp).1]

/-- One step of a sink encode with `b :: rest` left. -/
theorem sinkStep_accepts {b : Byte} {rest : List Byte} {n : Nat} {s : State} (h : s.sink.room ≠ some 0) :
    sinkStep { left := b :: rest, sent := n } s =
      if rest = [] then .next { s with
        busy := none, sink := sinkGot s.sink [b] 1, resp := encodedAnswer (n + 1) }
      else .next { s with
        sink := sinkGot s.sink [b] 1, busy := some (.sink { left := rest, sent := n + 1 }) } := by
  simp only [sinkStep, sinkPut_accepts b h]
  cases rest <;> rfl

theorem sinkStep_holds {b : Byte} {rest : List Byte} {n : Nat} {s : State} (h : s.sink.room = some 0) :
    sinkStep { left := b :: rest, sent := n } s = .fault .sinkHolds := by
  simp only [sinkStep, (sinkPut_none_iff s.sink b).2 h]

theorem sinkStep_ne_refused (t : SinkTransfer) (s : State) (e : Refusal) : sinkStep t s ≠ .refused e := by
  obtain ⟨left, n⟩ := t
  cases left with
  | nil => exact fun h => by cases h
  | cons b rest =>
    by_cases hr : s.sink.room = some 0
    · rw [sinkStep_holds hr]; exact fun h => by cases h
    · rw [sinkStep_accepts hr]; split <;> exact fun h => by cases h

/-- What one step of a sink encode that answers a next state has done. -/
theorem sinkStep_next {t : SinkTransfer} {s u : State} (h : sinkStep t s = .next u) :
    (t.left = [] ∧ u = { s with busy := none, resp := encodedAnswer t.sent }) ∨
    ∃ b rest, t.left = b :: rest ∧ s.sink.room ≠ some 0 ∧
      ((rest = [] ∧ u = { s with
          busy := none, sink := sinkGot s.sink [b] 1, resp := encodedAnswer (t.sent + 1) }) ∨
        (rest ≠ [] ∧ u = { s with
          sink := sinkGot s.sink [b] 1, busy := some (.sink { left := rest, sent := t.sent + 1 }) })) := by
  obtain ⟨left, n⟩ := t
  cases left with
  | nil => cases h; exact .inl ⟨rfl, rfl⟩
  | cons b rest =>
    refine .inr ⟨b, rest, rfl, ?_⟩
    by_cases hr : s.sink.room = some 0
    · rw [sinkStep_holds hr] at h; cases h
    · rw [sinkStep_accepts hr] at h
      split at h
      · rename_i e; cases h; exact ⟨hr, .inl ⟨e, rfl⟩⟩
      · rename_i e; cases h; exact ⟨hr, .inr ⟨e, rfl⟩⟩

/-! ### Source decodes -/

theorem sourceStep_exhausted {t : SourceTransfer} {s : State} (hb : s.source.bytes = [])
    (he : s.source.atEnd = .exhausted) :
    sourceStep t s = .next { s with busy := none, resp := errorAnswer 2 } := by
  simp only [sourceStep, sourceGet, hb, he]
  rfl

theorem sourceStep_silent {t : SourceTransfer} {s : State} (hb : s.source.bytes = [])
    (he : s.source.atEnd = .silent) : sourceStep t s = .fault .sourceSilent := by
  simp only [sourceStep, sourceGet, hb, he]

/-- One step of a source decode that pulls the byte `b`. -/
theorem sourceStep_byte {t : SourceTransfer} {s : State} {b : Byte} {bs : List Byte} (hb : s.source.bytes = b :: bs) :
    sourceStep t s =
      match scanByte t.sign s.cfg.pExcess t.scan b with
      | .more sc => .next { s with
          source := sourceGave s.source 1, busy := some (.source { sign := t.sign, scan := sc }) }
      | .ok acc n => .next { s with
          source := sourceGave s.source 1, busy := none, resp := valueAnswer n t.sign acc }
      | .overflow => .next { s with source := sourceGave s.source 1, busy := none, resp := errorAnswer 3 } := by
  have hg : sourceGet s.source = .byte b (sourceGave s.source 1) := by
    simp [sourceGet, sourceGave, hb]
  simp only [sourceStep, hg]
  cases scanByte t.sign s.cfg.pExcess t.scan b with
  | more sc => rfl
  | ok acc n => simp only [finishStrict, respondValue_eq]
  | overflow => rfl

/-- What reading one byte can do to a scan (R120, R160). -/
theorem scanByte_cases (sg : Sign) (p : PExcess) (sc : Scan) (b : Byte) :
    (sc.i < 18 ∧ 128 ≤ b.toNat ∧ scanByte sg p sc b = .more
      { acc := sc.acc ||| ((dataBits b).setWidth 128 <<< sc.shift), shift := sc.shift + 7, i := sc.i + 1 }) ∨
    scanByte sg p sc b = .overflow ∨
    (b.toNat < 128 ∧ ∃ acc, scanByte sg p sc b = .ok acc (sc.i + 1)) := by
  unfold scanByte
  by_cases hc : continues b = true
  · have h := (continues_iff b).1 hc
    simp only [hc, if_true]
    by_cases hi : sc.i < 18
    · exact .inl ⟨hi, h, by simp [hi]⟩
    · exact .inr (.inl (by simp [hi]))
  · have h : b.toNat < 128 := by
      have := mt (continues_iff b).2 hc; omega
    simp only [hc]
    by_cases he : sc.i = 18 ∧ p = .overflow ∧ excess sg b = true
    · exact .inr (.inl (by simp [he]))
    · exact .inr (.inr ⟨h, _, if_neg he⟩)

theorem sourceStep_ne_refused (t : SourceTransfer) (s : State) (e : Refusal) : sourceStep t s ≠ .refused e := by
  cases hb : s.source.bytes with
  | nil =>
    cases he : s.source.atEnd with
    | exhausted => rw [sourceStep_exhausted hb he]; exact fun h => by cases h
    | silent => rw [sourceStep_silent hb he]; exact fun h => by cases h
  | cons b bs => rw [sourceStep_byte hb]; split <;> exact fun h => by cases h

/-- What one step of a source decode that answers a next state has done. -/
theorem sourceStep_next {t : SourceTransfer} {s u : State} (h : sourceStep t s = .next u) :
    (s.source.bytes = [] ∧ s.source.atEnd = .exhausted ∧ u = { s with busy := none, resp := errorAnswer 2 }) ∨
    ∃ b bs, s.source.bytes = b :: bs ∧
      ((t.scan.i < 18 ∧ 128 ≤ b.toNat ∧ u = { s with
          source := sourceGave s.source 1
          busy := some (.source { sign := t.sign, scan :=
            { acc := t.scan.acc ||| ((dataBits b).setWidth 128 <<< t.scan.shift), shift := t.scan.shift + 7,
              i := t.scan.i + 1 } }) }) ∨
        (b.toNat < 128 ∧ ∃ acc, u = { s with
          source := sourceGave s.source 1, busy := none, resp := valueAnswer (t.scan.i + 1) t.sign acc }) ∨
        u = { s with source := sourceGave s.source 1, busy := none, resp := errorAnswer 3 }) := by
  cases hb : s.source.bytes with
  | nil =>
    cases he : s.source.atEnd with
    | exhausted => rw [sourceStep_exhausted hb he] at h; cases h; exact .inl ⟨rfl, rfl, rfl⟩
    | silent => rw [sourceStep_silent hb he] at h; cases h
  | cons b bs =>
    refine .inr ⟨b, bs, rfl, ?_⟩
    rw [sourceStep_byte hb] at h
    rcases scanByte_cases t.sign s.cfg.pExcess t.scan b with ⟨hi, hc, hs⟩ | hs | ⟨hl, acc, hs⟩
    · rw [hs] at h; cases h; exact .inl ⟨hi, hc, rfl⟩
    · rw [hs] at h; cases h; exact .inr (.inr rfl)
    · rw [hs] at h; cases h; exact .inr (.inl ⟨hl, acc, rfl⟩)

/-! ### The classifier -/

/-- What a checked narrowing accessor answers (R184). -/
theorem narrow_eq (sg : Sign) (fits : ResultRec → Bool) (s : State) :
    narrow sg fits s = { s with
      busy := none
      resp := if fits (resultOf sg s.req.val) then valueAnswer 0 sg s.req.val else errorAnswer 4 } := by
  unfold narrow answerClassified
  rw [classify_eq_resultOf, respondValue_eq]
  split <;> rfl

/-! ### The step -/

theorem step_alone {s : State} (h : s.foreign = []) : step s = stepAlone s := by
  simp only [step, stepWith, h]

theorem stepAlone_low {s : State} (h : s.rst = .low) : stepAlone s = blockStep s := by
  simp only [stepAlone, h]

theorem stepAlone_raised {s : State} (h : s.rst ≠ .low) : stepAlone s = resetStep s := by
  unfold stepAlone
  split
  · rename_i e; exact absurd e h
  · rfl
  · rfl

theorem step_low {s : State} (hf : s.foreign = []) (h : s.rst = .low) : step s = blockStep s :=
  (step_alone hf).trans (stepAlone_low h)

theorem step_raised {s : State} (hf : s.foreign = []) (h : s.rst ≠ .low) : step s = resetStep s :=
  (step_alone hf).trans (stepAlone_raised h)

theorem blockStep_busy {s : State} {t : Transfer} (h : s.busy = some t) : blockStep s = transferStep t s := by
  simp only [blockStep, h]

theorem blockStep_request {s : State} {r : Request} {rest : List Request} (hb : s.busy = none)
    (hp : s.port = r :: rest) : blockStep s = runRequest (takeRequest r rest s) := by
  simp only [blockStep, hb, hp]

theorem blockStep_idle {s : State} (hb : s.busy = none) (hp : s.port = []) : blockStep s = .next s := by
  simp only [blockStep, hb, hp]

/-- Everything a step with reset not raised can be. -/
theorem blockStep_cases (s : State) :
    (∃ t, s.busy = some t ∧ blockStep s = transferStep t s) ∨
    (∃ r rest, s.busy = none ∧ s.port = r :: rest ∧ blockStep s = runRequest (takeRequest r rest s)) ∨
    (s.busy = none ∧ s.port = [] ∧ blockStep s = .next s) := by
  cases hb : s.busy with
  | some t => exact .inl ⟨t, rfl, blockStep_busy hb⟩
  | none =>
    cases hp : s.port with
    | cons r rest => exact .inr (.inl ⟨r, rest, rfl, rfl, blockStep_request hb hp⟩)
    | nil => exact .inr (.inr ⟨rfl, rfl, blockStep_idle hb hp⟩)

end Sys2Proof.Machine
end

