-- ==== Sys2Proof/Laws/Exec.lean ====
section
/-! SUPPORT. One inversion lemma for all 24 commands: if `exec` answers a next state, it is one of four. -/

namespace Sys2Proof.Machine

theorem encodingOf_spec (sg : Sign) (x : Word) :
    ∃ n, 1 ≤ n ∧ n ≤ 19 ∧ EncLen sg x n ∧ encodingOf sg x = encBytes sg x n n := by
  cases sg
  · obtain ⟨n, h, hl, hb⟩ := uEncBytes_spec x; exact ⟨n, hl.1, h, hl, hb⟩
  · obtain ⟨n, h, hl, hb⟩ := sEncBytes_spec x; exact ⟨n, hl.1, h, hl, hb⟩

theorem encodingOf_length (sg : Sign) (x : Word) :
    1 ≤ (encodingOf sg x).length ∧ (encodingOf sg x).length ≤ 19 := by
  obtain ⟨n, h1, h19, _, hb⟩ := encodingOf_spec sg x
  rw [hb, encBytes_length]
  exact ⟨h1, h19⟩

/-! ### Coherent answers (R24, R26) -/

theorem encodedAnswer_coherent {n : Nat} (h : n ≤ 19) : (encodedAnswer n).Coherent := by
  refine ⟨fun _ => ⟨rfl, ?_, .unsigned, ?_⟩, nofun⟩
  · simp only [encodedAnswer, BitVec.toNat_ofNat]; omega
  · simp [encodedAnswer, zeroResult, resultOf, inRange]

theorem valueAnswer_coherent {n : Nat} (sg : Sign) (x : Word) (h : n ≤ 19) : (valueAnswer n sg x).Coherent := by
  refine ⟨fun _ => ⟨rfl, ?_, sg, rfl⟩, nofun⟩
  simp only [valueAnswer, BitVec.toNat_ofNat]; omega

theorem errorAnswer_coherent {c : BitVec 3} (h : c.toNat ≤ 5) : (errorAnswer c).Coherent :=
  ⟨nofun, fun _ => ⟨h, rfl, rfl⟩⟩

/-! ### Scans of the source window -/

/-- A buffer scan succeeds with a count in `1 .. 19` or fails. -/
theorem scanLoop_count {sg : Sign} {p : PExcess} {g : Nat → Option Byte} : ∀ {f : Nat} {sc : Scan} {acc : Word} {n : Nat},
    sc.i + f ≤ 19 → scanLoop sg p g f sc = .ok acc n → 1 ≤ n ∧ n ≤ 19
  | f + 1, sc, acc, n, hf, h => by
    unfold scanLoop at h
    cases hg : g sc.i with
    | none => rw [hg] at h; cases h
    | some b =>
      rw [hg] at h
      simp only at h
      rcases scanByte_cases sg p sc b with ⟨_, _, hs⟩ | hs | ⟨_, a, hs⟩
      · rw [hs] at h
        exact scanLoop_count (by simp only; omega) h
      · rw [hs] at h; cases h
      · rw [hs] at h; cases h; omega

/-- The end of a safe decode is a coherent answer that is no kind (R203). -/
theorem finishSafe_answers {sg : Sign} {p : PExcess} {g : Nat → Option Byte} (s : State) :
    ∃ a : Resp, a.valid = true ∧ a.Coherent ∧ (a.ok = false → a.err = 0) ∧
      finishSafe sg (scanLoop sg p g maxLen Scan.start) s = { s with busy := none, resp := a } := by
  cases h : scanLoop sg p g maxLen Scan.start with
  | ok acc n =>
    exact ⟨_, rfl, valueAnswer_coherent sg acc (scanLoop_count (by decide) h).2, nofun, respondValue_eq ..⟩
  | incomplete => exact ⟨_, rfl, errorAnswer_coherent (c := 0) (by decide), fun _ => rfl, rfl⟩
  | overflow => exact ⟨_, rfl, errorAnswer_coherent (c := 0) (by decide), fun _ => rfl, rfl⟩

/-- The end of a strict decode is a coherent answer with IncompleteInput or Overflow (R203). -/
theorem finishStrict_answers {sg : Sign} {p : PExcess} {g : Nat → Option Byte} (s : State) :
    ∃ a : Resp, a.valid = true ∧ a.Coherent ∧ (a.ok = false → a.err = 2 ∨ a.err = 3) ∧
      finishStrict sg (scanLoop sg p g maxLen Scan.start) s = { s with busy := none, resp := a } := by
  cases h : scanLoop sg p g maxLen Scan.start with
  | ok acc n =>
    exact ⟨_, rfl, valueAnswer_coherent sg acc (scanLoop_count (by decide) h).2, nofun, respondValue_eq ..⟩
  | incomplete => exact ⟨_, rfl, errorAnswer_coherent (c := 2) (by decide), fun _ => .inl rfl, rfl⟩
  | overflow => exact ⟨_, rfl, errorAnswer_coherent (c := 3) (by decide), fun _ => .inr rfl, rfl⟩

theorem narrow_answers (sg : Sign) (fits : ResultRec → Bool) (s : State) :
    ∃ a : Resp, a.valid = true ∧ a.Coherent ∧ (a.ok = false → a.err = 4) ∧
      narrow sg fits s = { s with busy := none, resp := a } := by
  refine ⟨_, ?_, ?_, ?_, narrow_eq sg fits s⟩ <;> split
  · rfl
  · rfl
  · exact valueAnswer_coherent sg _ (by omega)
  · exact errorAnswer_coherent (c := 4) (by decide)
  · exact nofun
  · exact fun _ => rfl

/-! ### The four shapes of a command -/

/-- If a command answers a next state: it has answered and changed nothing else; or it is a buffer encode that has
stored its encoding; or it is a stream command that has taken its first step. -/
theorem exec_next {i : Instr} {s t : State} (h : exec i s = .next t) :
    (i.usesSink = false ∧ i.usesSource = false ∧
      ∃ a : Resp, a.valid = true ∧ a.Coherent ∧ t = { s with busy := none, resp := a }) ∨
    (i.readsDst = true ∧ s.req.dbase + s.req.dcap ≤ 2 ^ s.cfg.addrW ∧
      (encodingOf i.sign s.req.val).length ≤ s.req.dcap ∧ t = { s with
        busy := none
        mem := memWriteBytes s.mem s.req.dbase (encodingOf i.sign s.req.val)
        resp := encodedAnswer (encodingOf i.sign s.req.val).length }) ∨
    (i.usesSink = true ∧ sinkStep { left := encodingOf i.sign s.req.val, sent := 0 } s = .next t) ∨
    (i.usesSource = true ∧ sourceStep { sign := i.sign, scan := Scan.start } s = .next t) := by
  have h0 : (errorAnswer 0).Coherent := errorAnswer_coherent (by decide)
  have h1 : (errorAnswer 1).Coherent := errorAnswer_coherent (by decide)
  cases i
  case uencCount =>
    cases h; exact .inl ⟨rfl, rfl, _, rfl, (encodedAnswer_coherent (encodingOf_length .unsigned s.req.val).2), rfl⟩
  case sencCount =>
    cases h; exact .inl ⟨rfl, rfl, _, rfl, (encodedAnswer_coherent (encodingOf_length .signed s.req.val).2), rfl⟩
  case uencTry =>
    obtain ⟨hf, ⟨_, ht⟩ | ⟨hn, ht⟩⟩ := encodeToBuffer_next h
    · exact .inl ⟨rfl, rfl, _, rfl, h0, ht⟩
    · exact .inr (.inl ⟨rfl, hf, hn, ht⟩)
  case uenc =>
    obtain ⟨hf, ⟨_, ht⟩ | ⟨hn, ht⟩⟩ := encodeToBuffer_next h
    · exact .inl ⟨rfl, rfl, _, rfl, h1, ht⟩
    · exact .inr (.inl ⟨rfl, hf, hn, ht⟩)
  case sencTry =>
    obtain ⟨hf, ⟨_, ht⟩ | ⟨hn, ht⟩⟩ := encodeToBuffer_next h
    · exact .inl ⟨rfl, rfl, _, rfl, h0, ht⟩
    · exact .inr (.inl ⟨rfl, hf, hn, ht⟩)
  case senc =>
    obtain ⟨hf, ⟨_, ht⟩ | ⟨hn, ht⟩⟩ := encodeToBuffer_next h
    · exact .inl ⟨rfl, rfl, _, rfl, h1, ht⟩
    · exact .inr (.inl ⟨rfl, hf, hn, ht⟩)
  case uencSink => exact .inr (.inr (.inl ⟨rfl, h⟩))
  case sencSink => exact .inr (.inr (.inl ⟨rfl, h⟩))
  case udecSrc => exact .inr (.inr (.inr ⟨rfl, h⟩))
  case sdecSrc => exact .inr (.inr (.inr ⟨rfl, h⟩))
  case udecTry =>
    simp only [exec, execUdecTry] at h
    split at h
    · cases h; obtain ⟨a, hv, hc, _, e⟩ := finishSafe_answers s; exact .inl ⟨rfl, rfl, _, hv, hc, e⟩
    · cases h
  case sdecTry =>
    simp only [exec, execSdecTry] at h
    split at h
    · cases h; obtain ⟨a, hv, hc, _, e⟩ := finishSafe_answers s; exact .inl ⟨rfl, rfl, _, hv, hc, e⟩
    · cases h
  case udec =>
    simp only [exec, execUdec] at h
    split at h
    · cases h; obtain ⟨a, hv, hc, _, e⟩ := finishStrict_answers s; exact .inl ⟨rfl, rfl, _, hv, hc, e⟩
    · cases h
  case sdec =>
    simp only [exec, execSdec] at h
    split at h
    · cases h; obtain ⟨a, hv, hc, _, e⟩ := finishStrict_answers s; exact .inl ⟨rfl, rfl, _, hv, hc, e⟩
    · cases h
  case clsU => cases h; exact .inl ⟨rfl, rfl, _, rfl, (valueAnswer_coherent .unsigned _ (by omega)), (respondValue_eq ..)⟩
  case clsS => cases h; exact .inl ⟨rfl, rfl, _, rfl, (valueAnswer_coherent .signed _ (by omega)), (respondValue_eq ..)⟩
  case narrowU128 =>
    cases h; exact .inl ⟨rfl, rfl, _, rfl, (valueAnswer_coherent .unsigned _ (by omega)), (respondValue_eq ..)⟩
  case narrowS128 =>
    cases h; exact .inl ⟨rfl, rfl, _, rfl, (valueAnswer_coherent .signed _ (by omega)), (respondValue_eq ..)⟩
  all_goals
    cases h; obtain ⟨a, hv, hc, _, e⟩ := narrow_answers _ _ s; exact .inl ⟨rfl, rfl, _, hv, hc, e⟩

end Sys2Proof.Machine
end

