-- ==== Sys2Proof/Laws/PerInstr.lean ====
section
/-! SUPPORT. Statements made per command. OpcodeLayout: the opcode map (R71) puts every command in its group of the layout of R70,
with the signedness bit its operands are read with. -/

namespace Sys2Proof.Laws.OpcodeLayout

/-- The opcode of `i` carries the fields of R70: a codec command has group 00, the signedness in bit 5 and bits 3:2 clear;
a classifier command has group 01, bits 5:4 clear and the signedness in bit 3. -/
def Statement (i : Instr) : Prop :=
  let s : Bool := i.sign == .signed
  ((encode i).extractLsb' 6 2 = 0b00#2 ∧ (encode i).extractLsb' 2 2 = 0b00#2 ∧ (encode i).getLsbD 5 = s) ∨
    ((encode i).extractLsb' 6 2 = 0b01#2 ∧ (encode i).extractLsb' 4 2 = 0b00#2 ∧ (encode i).getLsbD 3 = s)

theorem uencCount : Statement .uencCount := by unfold Statement; decide
theorem uencTry : Statement .uencTry := by unfold Statement; decide
theorem uenc : Statement .uenc := by unfold Statement; decide
theorem uencSink : Statement .uencSink := by unfold Statement; decide
theorem udecTry : Statement .udecTry := by unfold Statement; decide
theorem udec : Statement .udec := by unfold Statement; decide
theorem udecSrc : Statement .udecSrc := by unfold Statement; decide
theorem sencCount : Statement .sencCount := by unfold Statement; decide
theorem sencTry : Statement .sencTry := by unfold Statement; decide
theorem senc : Statement .senc := by unfold Statement; decide
theorem sencSink : Statement .sencSink := by unfold Statement; decide
theorem sdecTry : Statement .sdecTry := by unfold Statement; decide
theorem sdec : Statement .sdec := by unfold Statement; decide
theorem sdecSrc : Statement .sdecSrc := by unfold Statement; decide
theorem narrowU8 : Statement .narrowU8 := by unfold Statement; decide
theorem narrowU32 : Statement .narrowU32 := by unfold Statement; decide
theorem narrowU64 : Statement .narrowU64 := by unfold Statement; decide
theorem narrowU128 : Statement .narrowU128 := by unfold Statement; decide
theorem clsU : Statement .clsU := by unfold Statement; decide
theorem narrowS8 : Statement .narrowS8 := by unfold Statement; decide
theorem narrowS32 : Statement .narrowS32 := by unfold Statement; decide
theorem narrowS64 : Statement .narrowS64 := by unfold Statement; decide
theorem narrowS128 : Statement .narrowS128 := by unfold Statement; decide
theorem clsS : Statement .clsS := by unfold Statement; decide

end Sys2Proof.Laws.OpcodeLayout
end

