-- ==== Sys2Proof/Laws/Races.lean ====
section
/-! SUPPORT. What other agents' writes do to a step (R55): the memory a command sees and the memory after it, byte by byte, and
that a command looks at nothing else they change. -/

namespace Sys2Proof.Machine

/-! ### Memory seen and memory after -/

theorem memSeen_wf (s : State) : ∀ (ws : List Host.Cell) (d : Nat) {m : List Host.Cell}, Memory.wf m = true →
    Memory.wf (memSeen s d ws m) = true
  | [], _, _, h => h
  | (a, _) :: ws, d, _, h => by
    unfold memSeen
    split
    · exact memSeen_wf s ws (d + 1) (memWrite_wf a _ h)
    · exact memSeen_wf s ws (d + 1) h

theorem otherWrite_wf (s : State) (d a : Nat) (v : Byte) {m : List Host.Cell} (h : Memory.wf m = true) :
    Memory.wf (otherWrite s d a v m) = true := by
  unfold otherWrite
  split
  · exact h
  · exact memWrite_wf a _ h

theorem otherWrite_within {s : State} (d : Nat) {a : Nat} (v : Byte) {m : List Host.Cell} (ha : a < 2 ^ s.cfg.addrW)
    (h : Memory.within s.cfg m = true) : Memory.within s.cfg (otherWrite s d a v m) = true := by
  unfold otherWrite
  split
  · exact h
  · exact memWrite_within _ ha h

/-- Another agent's write to a byte changes no other byte. -/
theorem memRead_otherWrite_ne (s : State) (d : Nat) {a x : Nat} (v : Byte) {m : List Host.Cell} (h : Memory.wf m = true)
    (hx : x ≠ a) : memRead (otherWrite s d a v m) x = memRead m x := by
  unfold otherWrite
  split
  · rfl
  · rw [memRead_memWrite h, if_neg hx]

/-- The byte that another agent writes: what it held, if the command writes it too (R55(a)); any value, if it is another byte
of a window in use (R236(b)); else what the other agent wrote. -/
theorem memRead_otherWrite_self (s : State) (d a : Nat) (v : Byte) {m : List Host.Cell} (h : Memory.wf m = true) :
    memRead (otherWrite s d a v m) a =
      if writesByte s a = true ∧ Config.freeCount d % 2 = 0 then memRead m a
      else if anyValueAfter s a then Config.freeByte d else v := by
  unfold otherWrite
  split
  · rfl
  · rw [memRead_memWrite h, if_pos rfl]

theorem memAfter_wf (s : State) : ∀ (ws : List Host.Cell) (d : Nat) {m : List Host.Cell}, Memory.wf m = true →
    Memory.wf (memAfter s d ws m) = true
  | [], _, _, h => h
  | (a, v) :: ws, d, _, h => memAfter_wf s ws (d + 1) (otherWrite_wf s d a v h)

theorem memAfter_within (s : State) : ∀ (ws : List Host.Cell) (d : Nat) {m : List Host.Cell},
    (∀ c ∈ ws, c.1 < 2 ^ s.cfg.addrW) → Memory.within s.cfg m = true → Memory.within s.cfg (memAfter s d ws m) = true
  | [], _, _, _, h => h
  | (a, v) :: ws, d, _, hw, h =>
    memAfter_within s ws (d + 1) (fun c hc => hw c (List.mem_cons_of_mem _ hc))
      (otherWrite_within d v (hw (a, v) List.mem_cons_self) h)

/-- A byte that no other agent writes, or that the command may not read, is seen as it is. -/
theorem memRead_memSeen (s : State) (x : Nat) : ∀ (ws : List Host.Cell) (d : Nat) {m : List Host.Cell},
    Memory.wf m = true → ((∀ v, (x, v) ∉ ws) ∨ mayRead s x = false) → memRead (memSeen s d ws m) x = memRead m x
  | [], _, _, _, _ => rfl
  | (a, v) :: ws, d, m, h, hx => by
    have hr : (∀ v, (x, v) ∉ ws) ∨ mayRead s x = false := hx.imp_left fun hn w hw => hn w (List.mem_cons_of_mem _ hw)
    unfold memSeen
    split
    · rename_i ha
      rw [memRead_memSeen s x ws (d + 1) (memWrite_wf a _ h) hr, memRead_memWrite h, if_neg]
      rintro rfl
      rcases hx with hn | hn
      · exact hn v List.mem_cons_self
      · rw [hn] at ha; cases ha
    · exact memRead_memSeen s x ws (d + 1) h hr

/-- A byte after the step, but for one that another agent writes and that may hold any value then: another agent's value for
it, or what it held, and then no other agent wrote it or the command wrote it too. -/
theorem memRead_memAfter (s : State) (x : Nat) : ∀ (ws : List Host.Cell) (d : Nat) {m : List Host.Cell},
    Memory.wf m = true → ((∀ v, (x, v) ∉ ws) ∨ anyValueAfter s x = false) →
      (∃ v, (x, v) ∈ ws ∧ memRead (memAfter s d ws m) x = v) ∨
        (((∀ v, (x, v) ∉ ws) ∨ writesByte s x = true) ∧ memRead (memAfter s d ws m) x = memRead m x)
  | [], _, _, _, _ => .inr ⟨.inl fun _ => List.not_mem_nil, rfl⟩
  | (a, v) :: ws, d, m, h, hx => by
    have hr : (∀ v, (x, v) ∉ ws) ∨ anyValueAfter s x = false := hx.imp_left fun hn w hw => hn w (List.mem_cons_of_mem _ hw)
    unfold memAfter
    rcases memRead_memAfter s x ws (d + 1) (otherWrite_wf s d a v h) hr with ⟨w, hw, e⟩ | ⟨hn, e⟩
    · exact .inl ⟨w, List.mem_cons_of_mem _ hw, e⟩
    · by_cases hxa : x = a
      · subst hxa
        rw [memRead_otherWrite_self s d x v h, hx.resolve_left fun hn => hn v List.mem_cons_self] at e
        split at e
        · rename_i ha; exact .inr ⟨.inr ha.1, e⟩
        · exact .inl ⟨v, List.mem_cons_self, e⟩
      · rw [memRead_otherWrite_ne s d v h hxa] at e
        refine .inr ⟨hn.imp_left fun hn w hw => ?_, e⟩
        rcases List.mem_cons.1 hw with hw | hw
        · exact hxa (congrArg Prod.fst hw)
        · exact hn w hw

/-- Writes to bytes of no window in use just happen, in order. -/
theorem memAfter_fold (s : State) : ∀ (ws : List Host.Cell) (d : Nat) (m : List Host.Cell),
    (∀ c ∈ ws, mayRead s c.1 = false ∧ inDst s c.1 = false ∧ writesByte s c.1 = false) →
      memAfter s d ws m = ws.foldl (fun m c => memWrite m c.1 c.2) m
  | [], _, _, _ => rfl
  | (a, v) :: ws, d, m, h => by
    obtain ⟨hr, hd, hw⟩ := h (a, v) List.mem_cons_self
    have e : otherWrite s d a v m = memWrite m a v := by simp [otherWrite, anyValueAfter, hr, hd, hw]
    rw [memAfter, e]
    exact memAfter_fold s ws (d + 1) _ fun c hc => h c (List.mem_cons_of_mem _ hc)

/-! ### What a step with other agents is -/

/-- The state the block itself steps from. -/
def seenState (s : State) : State :=
  { s with mem := memSeen s s.draws s.foreign s.mem, foreign := [], draws := s.draws + 2 * s.foreign.length }

/-- The state after the other agents' writes. -/
def afterOthers (s t : State) : State :=
  { t with mem := memAfter s (s.draws + s.foreign.length) s.foreign (if startsDecode s then s.mem else t.mem) }

/-- `startsDecode` in terms of what the step does: with reset not raised the request runs, with `during` it is aborted. -/
theorem startsDecode_cases {s : State} (h : startsDecode s = true) :
    ∃ r rest i, s.busy = none ∧ s.port = r :: rest ∧ decode r.op = .ok i ∧ i.readsSrc = true ∧
      stepAlone s = match s.rst with
        | .low => exec i (takeRequest r rest s)
        | .between => stepAlone s
        | .during => resetDuring r rest s := by
  unfold startsDecode startedCommand at h
  cases hr : s.rst with
  | between => rw [hr] at h; simp at h
  | low =>
    rw [hr] at h
    cases hb : s.busy with
    | some t => rw [hb] at h; simp at h
    | none =>
      cases hp : s.port with
      | nil => rw [hb, hp] at h; simp at h
      | cons r rest =>
        rw [hb, hp] at h
        cases hd : decode r.op with
        | error e => cases e; simp only [hd] at h; simp at h
        | ok i =>
          simp only [hd] at h
          refine ⟨r, rest, i, rfl, rfl, hd, h, ?_⟩
          rw [stepAlone_low hr, blockStep_request hb hp]
          simp only [runRequest, takeRequest_req, hd]
  | during =>
    rw [hr] at h
    cases hb : s.busy with
    | some t => rw [hb] at h; simp at h
    | none =>
      cases hp : s.port with
      | nil => rw [hb, hp] at h; simp at h
      | cons r rest =>
        rw [hb, hp] at h
        cases hd : decode r.op with
        | error e => cases e; simp only [hd] at h; simp at h
        | ok i =>
          simp only [hd] at h
          refine ⟨r, rest, i, rfl, rfl, hd, h, ?_⟩
          rw [stepAlone_raised (by rw [hr]; decide)]
          simp only [resetStep, hb, hr, hp]

/-- A step that begins a buffer decode changes no memory itself (R45, R231(d)). -/
theorem startsDecode_mem {s t : State} (h : startsDecode s = true) (ht : stepAlone s = .next t) : t.mem = s.mem := by
  obtain ⟨r, rest, i, hb, hp, hd, hi, hs⟩ := startsDecode_cases h
  rw [hs] at ht
  have hk : i.readsDst = false ∧ i.usesSink = false ∧ i.usesSource = false := by
    revert hi; clear hd hs ht; cases i <;> decide
  cases hr : s.rst with
  | between => unfold startsDecode startedCommand at h; rw [hr] at h; simp at h
  | low =>
    simp only [hr] at ht
    rcases exec_next ht with ⟨_, _, a, _, _, rfl⟩ | ⟨hc, _⟩ | ⟨hc, _⟩ | ⟨hc, _⟩
    · rfl
    · rw [hk.1] at hc; cases hc
    · rw [hk.2.1] at hc; cases hc
    · rw [hk.2.2] at hc; cases hc
  | during =>
    simp only [hr, resetDuring, hd] at ht
    have ha : abortCommand i (takeRequest r rest s) = abortDecode (takeRequest r rest s) := by
      clear ht hs hd hk; cases i <;> first | rfl | exact absurd hi (by decide)
    rw [ha] at ht
    unfold abortDecode at ht
    split at ht
    · rename_i heq; split at heq
      · cases heq; cases ht; rfl
      · cases heq
    · cases ht
    · cases ht

/-- With or without other agents, a step is the block's own step between the two. -/
theorem step_eq (s : State) :
    step s = mapNext (afterOthers s) (stepAlone (seenState s)) := by
  cases hf : s.foreign with
  | nil =>
    have hs : seenState s = s := by
      unfold seenState; rw [hf]; simp only [memSeen, List.length_nil, Nat.mul_zero, Nat.add_zero]; rw [← hf]
    rw [step_alone hf, hs]
    cases ho : stepAlone s with
    | next t =>
      simp only [mapNext, afterOthers, hf, memAfter]
      split
      · rename_i hd; rw [← startsDecode_mem hd ho]
      · rfl
    | fault e => rfl
    | refused e => rfl
  | cons w ws =>
    have hs : seenState s = { s with
        mem := memSeen s s.draws (w :: ws) s.mem, foreign := [], draws := s.draws + 2 * (w :: ws).length } := by
      unfold seenState; rw [hf]
    rw [hs]
    simp only [step, stepWith, hf, stepAmongOthers]
    cases stepAlone { s with
      mem := memSeen s s.draws (w :: ws) s.mem, foreign := [], draws := s.draws + 2 * (w :: ws).length } with
    | next t => simp only [mapNext, afterOthers, hf]
    | fault e => rfl
    | refused e => rfl

/-! ### What a command does not look at -/

/-- The fields that no command looks at: the held requests, the reset input, the other agents, the draws. -/
def reframe (f s : State) : State := { s with port := f.port, rst := f.rst, foreign := f.foreign, draws := f.draws }

theorem sinkStep_reframe (f : State) (t : SinkTransfer) (s : State) :
    sinkStep t (reframe f s) = mapNext (reframe f) (sinkStep t s) := by
  unfold sinkStep
  split
  · rfl
  · simp only [reframe]
    split
    · rfl
    · split <;> rfl

theorem sourceStep_reframe (f : State) (t : SourceTransfer) (s : State) :
    sourceStep t (reframe f s) = mapNext (reframe f) (sourceStep t s) := by
  unfold sourceStep
  simp only [reframe]
  split
  · rfl
  · rfl
  · split <;> rfl

theorem encodeToBuffer_reframe (f : State) (bs : List Byte) (onSmall : State → State)
    (h : ∀ s, onSmall (reframe f s) = reframe f (onSmall s)) (s : State) :
    encodeToBuffer bs onSmall (reframe f s) = mapNext (reframe f) (encodeToBuffer bs onSmall s) := by
  unfold encodeToBuffer
  rw [h, show dstFits (reframe f s) = dstFits s from rfl]
  split
  · simp only [show (reframe f s).req = s.req from rfl]
    split <;> rfl
  · rfl

theorem finishSafe_reframe (f : State) (sg : Sign) (e : ScanEnd) (s : State) :
    finishSafe sg e (reframe f s) = reframe f (finishSafe sg e s) := by cases e <;> rfl

theorem finishStrict_reframe (f : State) (sg : Sign) (e : ScanEnd) (s : State) :
    finishStrict sg e (reframe f s) = reframe f (finishStrict sg e s) := by cases e <;> rfl

theorem narrow_reframe (f : State) (sg : Sign) (fits : ResultRec → Bool) (s : State) :
    narrow sg fits (reframe f s) = reframe f (narrow sg fits s) := by
  unfold narrow
  rw [show (reframe f s).req = s.req from rfl]
  split <;> rfl

/-- No command looks at the held requests, the reset input, the other agents or the draws (R20, R234). -/
theorem exec_reframe (f : State) (i : Instr) (s : State) : exec i (reframe f s) = mapNext (reframe f) (exec i s) := by
  have hd (b : Bool) (g : State → State) (h : g (reframe f s) = reframe f (g s)) :
      (if b then Host.Outcome.next (g (reframe f s)) else .refused Refusal.windowDoesNotFit :
        Host.Outcome State Fault Refusal) =
      mapNext (reframe f) (if b then .next (g s) else .refused .windowDoesNotFit) := by
    rw [h]; cases b <;> rfl
  cases i
  case uencTry => exact encodeToBuffer_reframe f (uEncBytes s.req.val) safeFailure (fun _ => rfl) s
  case uenc => exact encodeToBuffer_reframe f (uEncBytes s.req.val) (raiseError .bufferTooSmall) (fun _ => rfl) s
  case sencTry => exact encodeToBuffer_reframe f (sEncBytes s.req.val) safeFailure (fun _ => rfl) s
  case senc => exact encodeToBuffer_reframe f (sEncBytes s.req.val) (raiseError .bufferTooSmall) (fun _ => rfl) s
  case uencSink => exact sinkStep_reframe f _ s
  case sencSink => exact sinkStep_reframe f _ s
  case udecSrc => exact sourceStep_reframe f _ s
  case sdecSrc => exact sourceStep_reframe f _ s
  case udecTry => exact hd (srcFits s) _ (finishSafe_reframe f _ _ s)
  case sdecTry => exact hd (srcFits s) _ (finishSafe_reframe f _ _ s)
  case udec => exact hd (srcFits s) _ (finishStrict_reframe f _ _ s)
  case sdec => exact hd (srcFits s) _ (finishStrict_reframe f _ _ s)
  case narrowU8 => exact congrArg Host.Outcome.next (narrow_reframe f _ _ s)
  case narrowU32 => exact congrArg Host.Outcome.next (narrow_reframe f _ _ s)
  case narrowU64 => exact congrArg Host.Outcome.next (narrow_reframe f _ _ s)
  case narrowS8 => exact congrArg Host.Outcome.next (narrow_reframe f _ _ s)
  case narrowS32 => exact congrArg Host.Outcome.next (narrow_reframe f _ _ s)
  case narrowS64 => exact congrArg Host.Outcome.next (narrow_reframe f _ _ s)
  all_goals rfl

end Sys2Proof.Machine
end

