-- ==== Sys2Proof/Laws/RoundTrip.lean ====
section
/-! SUPPORT. Laws of the round trip: the closed form of an encoding is a whole encoding, and its decoded value is the value
(R106, R146). -/

namespace Sys2Proof.Machine

theorem encByte_unsigned_toNat (x : Word) (n k : Nat) :
    (encByte .unsigned x n k).toNat = x.toNat / 2 ^ (7 * k) % 128 + if k + 1 < n then 128 else 0 := by
  simp only [encByte, BitVec.toNat_ofNat]
  split <;> omega

theorem encByte_signed_toNat (x : Word) (n k : Nat) :
    (encByte .signed x n k).toNat = (x.toInt / 2 ^ (7 * k) % 128).toNat + if k + 1 < n then 128 else 0 := by
  simp only [encByte, BitVec.toNat_ofNat]
  have : (x.toInt / 2 ^ (7 * k) % 128).toNat < 128 := by omega
  split <;> omega

theorem chunkSum_unsigned (x : Word) (n : Nat) : ∀ j, chunkSum (encByte .unsigned x n) j = x.toNat % 2 ^ (7 * j)
  | 0 => by simp [chunkSum, Nat.mod_one]
  | j + 1 => by
    rw [chunkSum, chunkSum_unsigned x n j, encByte_unsigned_toNat, show 7 * (j + 1) = 7 * j + 7 by omega, pow_add, Nat.mod_mul]
    have : (x.toNat / 2 ^ (7 * j) % 128 + if j + 1 < n then 128 else 0) % 128 = x.toNat / 2 ^ (7 * j) % 128 := by split <;> omega
    rw [this]; ring_nf

theorem chunkSum_signed (x : Word) (n : Nat) : ∀ j, (chunkSum (encByte .signed x n) j : Int) = x.toInt % 2 ^ (7 * j)
  | 0 => by simp [chunkSum]
  | j + 1 => by
    rw [chunkSum, Nat.cast_add, chunkSum_signed x n j, encByte_signed_toNat, show 7 * (j + 1) = 7 * j + 7 by omega]
    have : ((x.toInt / 2 ^ (7 * j) % 128).toNat + if j + 1 < n then 128 else 0) % 128 = (x.toInt / 2 ^ (7 * j) % 128).toNat := by split <;> omega
    rw [this]
    push_cast
    rw [Int.toNat_of_nonneg (by omega)]
    have hp : (2:Int)^(7*j+7) = 2^(7*j) * 128 := by rw [pow_add]; norm_num
    rw [hp]
    have h0 : (0:Int) < 2^(7*j) := by positivity
    have e1 := Int.emod_add_mul_ediv x.toInt (2^(7*j))
    have e2 := Int.emod_add_mul_ediv (x.toInt / 2^(7*j)) 128
    have := Int.emod_nonneg x.toInt (ne_of_gt h0)
    have := Int.emod_lt_of_pos x.toInt h0
    have m0 : 0 ≤ x.toInt / 2^(7*j) % 128 := by omega
    have m1 : x.toInt / 2^(7*j) % 128 ≤ 127 := by omega
    have key : ∀ X P r m d : Int, 0 < P → 0 ≤ r → r < P → 0 ≤ m → m ≤ 127 → r + P * (m + 128 * d) = X →
        r + m * P = X % (P * 128) := by
      intro X P r m d hP hr hr' hm hm' hX
      rw [← hX, show r + P * (m + 128 * d) = (r + m * P) + (P * 128) * d by ring, Int.add_mul_emod_self_left,
        Int.emod_eq_of_lt (by positivity) (by nlinarith)]
    exact key _ _ _ _ (x.toInt / 2^(7*j) / 128) h0 ‹_› ‹_› m0 m1 (by rw [e2, e1])

theorem decodedValue_encByte_unsigned {x : Word} {n : Nat} (h : x.toNat < 2 ^ (7 * n)) :
    decodedValue .unsigned (encByte .unsigned x n) n = x := by
  simp only [decodedValue]
  rw [chunkSum_unsigned, Nat.mod_eq_of_lt h, BitVec.ofNat_toNat, BitVec.setWidth_eq]

theorem decodedValue_encByte_signed {x : Word} {n : Nat} (h1 : 1 ≤ n) (hlo : -(2 ^ (7 * n - 1)) ≤ x.toInt)
    (hhi : x.toInt < 2 ^ (7 * n - 1)) : decodedValue .signed (encByte .signed x n) n = x := by
  simp only [decodedValue]
  rw [chunkSum_signed]
  have hp : (2:Int) ^ (7 * n) = 2 * 2 ^ (7 * n - 1) := by
    rw [← Int.pow_succ']; congr 1; omega
  have h64 : (64 ≤ (encByte .signed x n (n - 1)).toNat % 128) ↔ x.toInt < 0 := by
    rw [encByte_signed_toNat]
    have hq : (2:Int) ^ (7 * n - 1) = 64 * 2 ^ (7 * (n - 1)) := by
      rw [show 7 * n - 1 = 7 * (n - 1) + 6 by omega, pow_add]; ring
    have h0 : (0:Int) < 2 ^ (7 * (n - 1)) := by positivity
    rw [hq] at hlo hhi
    have a1 : x.toInt / 2 ^ (7 * (n - 1)) < 64 := Int.ediv_lt_of_lt_mul h0 (by linarith)
    have a2 : -64 ≤ x.toInt / 2 ^ (7 * (n - 1)) := Int.le_ediv_of_mul_le h0 (by linarith)
    have a3 : x.toInt / 2 ^ (7 * (n - 1)) < 0 ↔ x.toInt < 0 := by
      constructor
      · intro h; by_contra hc; have := Int.ediv_nonneg (not_lt.1 hc) h0.le; omega
      · intro h; exact Int.ediv_neg_of_neg_of_pos h h0
    rw [if_neg (by omega)]
    omega
  have hb : x.toInt.bmod (2 ^ 128) = x.toInt := BitVec.toInt_bmod_cancel x
  apply BitVec.eq_of_toInt_eq
  rw [BitVec.toInt_ofInt]
  by_cases hx : x.toInt < 0
  · have : x.toInt % 2 ^ (7 * n) = x.toInt + 2 ^ (7 * n) := by
      rw [← Int.add_emod_right, Int.emod_eq_of_lt] <;> omega
    rw [this]
    by_cases hn : n ≤ 18
    · rw [if_pos ⟨hn, h64.2 hx⟩, add_sub_cancel_right, hb]
    · rw [if_neg (fun h => hn h.1)]
      have : (2:Int) ^ (7 * n) = ((2 ^ 128 : Nat) : Int) * 2 ^ (7 * n - 128) := by
        rw [show ((2 ^ 128 : Nat) : Int) = (2 : Int) ^ 128 by norm_num, ← pow_add,
          show 128 + (7 * n - 128) = 7 * n by omega]
      rw [sub_zero, this, Int.add_mul_bmod_self_left, hb]
  · rw [if_neg (fun h => hx (h64.1 h.2)), sub_zero, Int.emod_eq_of_lt (by omega) (by omega), hb]

theorem wholeEncoding_unsigned {x : Word} {n : Nat} (p : PExcess) (h : UnsignedLen x n) (h19 : n ≤ 19) :
    WholeEncoding .unsigned p (encByte .unsigned x n) n := by
  obtain ⟨h1, h2, h3⟩ := h
  refine ⟨h1, h19, fun k hk => ?_, ?_, fun hn _ => ?_⟩
  · rw [encByte_unsigned_toNat, if_pos hk]; omega
  · rw [encByte_unsigned_toNat, if_neg (by omega)]; omega
  · subst hn
    simp only [LastByteFits]
    rw [encByte_unsigned_toNat, if_neg (by omega)]
    have := x.isLt; omega

theorem wholeEncoding_signed {x : Word} {n : Nat} (p : PExcess) (h : SignedLen x n) (h19 : n ≤ 19) :
    WholeEncoding .signed p (encByte .signed x n) n := by
  obtain ⟨h1, h2, h3⟩ := h
  refine ⟨h1, h19, fun k hk => ?_, ?_, fun hn _ => ?_⟩
  · rw [encByte_signed_toNat, if_pos hk]; omega
  · rw [encByte_signed_toNat, if_neg (by omega)]; omega
  · subst hn
    simp only [LastByteFits]
    rw [encByte_signed_toNat, if_neg (by omega)]
    have := BitVec.toInt_lt (x := x); have := BitVec.le_toInt (x := x); omega

end Sys2Proof.Machine
end

