-- ==== Sys2Proof/Machine/Assembler.lean ====
section
/-! DEFINITION. The text of the assembler (spec/30_encoding.md R76, R77): one line, read into a statement or a pseudo-operation.
Spaces around the operands, the letter case of hex digits and leading zeros are not in the spec (log entry 12). -/

namespace Sys2Proof

/-- What one line of text stands for. -/
inductive Line where
  | command (st : Stmt)
  | pseudo (p : Pseudo)
deriving DecidableEq, Repr

/-- One operand of a line, as R76 writes it. -/
inductive OperandText where
  /-- `#<val>` -/
  | val (v : ValLit)
  /-- `dst=<dbase>:<dcap>` -/
  | dst (base len : Nat)
  /-- `src=<sbase>:<slen>` -/
  | src (base len : Nat)
deriving DecidableEq, Repr

/-- A decimal digit. -/
def decDigit (c : Char) : Option Nat :=
  if '0'.toNat ≤ c.toNat ∧ c.toNat ≤ '9'.toNat then some (c.toNat - '0'.toNat) else none

/-- A hex digit. -/
def hexDigit (c : Char) : Option (Fin 16) :=
  if '0'.toNat ≤ c.toNat ∧ c.toNat ≤ '9'.toNat then some (Fin.ofNat 16 (c.toNat - '0'.toNat))
  else if 'a'.toNat ≤ c.toNat ∧ c.toNat ≤ 'f'.toNat then some (Fin.ofNat 16 (c.toNat - 'a'.toNat + 10))
  else if 'A'.toNat ≤ c.toNat ∧ c.toNat ≤ 'F'.toNat then some (Fin.ofNat 16 (c.toNat - 'A'.toNat + 10))
  else none

/-- All of `f` on a list, or nothing. -/
def allSome {α β : Type} (f : α → Option β) : List α → Option (List β)
  | [] => some []
  | a :: as =>
    match f a, allSome f as with
    | some b, some bs => some (b :: bs)
    | _, _ => none

/-- A decimal natural: at least one digit. -/
def readDec (cs : List Char) : Option Nat :=
  match cs with
  | [] => none
  | _ :: _ => (allSome decDigit cs).map fun ds => ds.foldl (fun n d => 10 * n + d) 0

/-- A value literal: decimal, with a minus sign if it is negative, or `0x` and hex digits. -/
def readVal : List Char → Option ValLit
  | '0' :: 'x' :: cs => (allSome hexDigit cs).map .hex
  | '-' :: cs => (readDec cs).map fun n => .dec (-(n : Int))
  | cs => (readDec cs).map fun n => .dec (n : Int)

/-- An address or a length: a decimal or a `0x` literal. -/
def readNat : List Char → Option Nat
  | '0' :: 'x' :: c :: cs => (allSome hexDigit (c :: cs)).map hexValue
  | cs => readDec cs

/-- `<base>:<len>`. -/
def readWindow (cs : List Char) : Option (Nat × Nat) :=
  match readNat (cs.takeWhile (· ≠ ':')), cs.dropWhile (· ≠ ':') with
  | some base, ':' :: rest => (readNat rest).map fun len => (base, len)
  | _, _ => none

/-- One operand. -/
def readOperand : List Char → Option OperandText
  | '#' :: cs => (readVal cs).map .val
  | 'd' :: 's' :: 't' :: '=' :: cs => (readWindow cs).map fun w => .dst w.1 w.2
  | 's' :: 'r' :: 'c' :: '=' :: cs => (readWindow cs).map fun w => .src w.1 w.2
  | _ => none

/-- A text without the spaces at its two ends. -/
def trimSpaces (cs : List Char) : List Char :=
  ((cs.dropWhile (· = ' ')).reverse.dropWhile (· = ' ')).reverse

/-- The parts between commas. -/
def splitCommas : List Char → List (List Char)
  | [] => [[]]
  | c :: cs =>
    if c = ',' then [] :: splitCommas cs
    else
      match splitCommas cs with
      | p :: ps => (c :: p) :: ps
      | [] => [[c]]

/-- The operands of a line: none, or parts between commas. -/
def readOperands (cs : List Char) : Option (List OperandText) :=
  if trimSpaces cs = [] then some [] else allSome (fun p => readOperand (trimSpaces p)) (splitCommas cs)

/-- The statement of `i` with operands in the order R76 writes them. -/
def stmtOf (i : Instr) : List OperandText → Option Stmt
  | [] => some { instr := i, val := none, dst := none, src := none }
  | [.val v] => some { instr := i, val := some v, dst := none, src := none }
  | [.val v, .dst b n] => some { instr := i, val := some v, dst := some (b, n), src := none }
  | [.src b n] => some { instr := i, val := none, dst := none, src := some (b, n) }
  | _ => none

/-- The commands, in the order of R71. -/
def allInstrs : List Instr :=
  [.uencCount, .uencTry, .uenc, .uencSink, .udecTry, .udec, .udecSrc, .sencCount, .sencTry, .senc, .sencSink, .sdecTry] ++
    [.sdec, .sdecSrc, .narrowU8, .narrowU32, .narrowU64, .narrowU128, .clsU, .narrowS8, .narrowS32, .narrowS64,
      .narrowS128, .clsS]

/-- The pseudo-operation of R77 that a mnemonic names, with its literal in range. -/
def pseudoOf (mnemonic : List Char) (v : ValLit) : Option Pseudo :=
  if mnemonic = "UENC.ALLOC".toList then
    if v.inRange .unsigned then some (.uencAlloc v.pattern) else none
  else if mnemonic = "SENC.ALLOC".toList then
    if v.inRange .signed then some (.sencAlloc v.pattern) else none
  else none

/-- One line: a mnemonic, then its operands. -/
def readLine (cs : List Char) : Option Line :=
  let line := trimSpaces cs
  let mnemonic := line.takeWhile (· ≠ ' ')
  match readOperands (line.dropWhile (· ≠ ' ')) with
  | none => none
  | some ops =>
    match allInstrs.find? (fun i => i.mnemonic.toList = mnemonic), ops with
    | some i, _ => (stmtOf i ops).map .command
    | none, [.val v] => (pseudoOf mnemonic v).map .pseudo
    | none, _ => none

/-- The request a line of text asks for; nothing for an assembly error, and for a pseudo-operation, which is two commands
with a host action between them. -/
def assembleLine (c : Config) (line : String) : Option Request :=
  match readLine line.toList with
  | some (.command st) => assemble c st
  | some (.pseudo _) => none
  | none => none

end Sys2Proof
end

