-- ==== Sys2Proof/Tests/Slice0.lean ====
section
/-! SUPPORT. The model's own tests: words written out from the layout of R70, ill-formed terms refused, vectors of
spec/95_test_vectors.md run in one step, and for every statement with hypotheses a state and operands that meet them. -/

namespace Sys2Proof.Tests

open Sys2Proof Sys2Proof.Machine

/-! ### Helpers -/

/-- An idle block with a 16-bit address space and an accepting sink. -/
def idle (p : PExcess) : State :=
  { cfg := { addrW := 16, pExcess := p }, port := []
    req := { op := 0, val := 0, dbase := 0, dcap := 0, sbase := 0, slen := 0 }
    rst := .low, busy := none, resp := errorAnswer 0, mem := []
    sink := { received := [], room := none }, source := { bytes := [], pos := 0, atEnd := .exhausted }
    foreign := [], draws := 0 }

/-- Value and destination window on the port, as the command reads them. -/
def encReq (v : Word) (base cap : Nat) : State :=
  { idle .discard with req := { op := 0, val := v, dbase := base, dcap := cap, sbase := 0, slen := 0 } }

/-- Bytes at 0x10 and a source window of `len` bytes there. -/
def decReq (p : PExcess) (bs : List Byte) (len : Nat) : State :=
  { idle p with
    mem := memWriteBytes [] 16 bs
    req := { op := 0, val := 0, dbase := 0, dcap := 0, sbase := 16, slen := len } }

/-- `k` bytes `b` and then `last`. -/
def pad (k : Nat) (b last : Byte) : List Byte := List.replicate k b ++ [last]

/-- The byte source yields `bs`. -/
def srcReq (bs : List Byte) (e : SourceEnd) : State :=
  { idle .discard with source := { bytes := bs, pos := 0, atEnd := e } }

/-- One request with opcode `op` on the port. -/
def asked (op : BitVec 8) : Request := { op := op, val := 300, dbase := 16, dcap := 4, sbase := 16, slen := 4 }

/-- The request `asked op` presented, and another one held behind it. -/
def presented (op : BitVec 8) : State := { idle .discard with port := [asked op, asked 0x44] }

/-- `p` holds of the next state. -/
def nextIs (o : Host.Outcome State Fault Refusal) (p : State → Bool) : Bool :=
  match o with
  | .next t => p t
  | .fault _ => false
  | .refused _ => false

def faults (o : Host.Outcome State Fault Refusal) (e : Fault) : Bool :=
  match o with
  | .next _ => false
  | .fault f => decide (f = e)
  | .refused _ => false

def refuses (o : Host.Outcome State Fault Refusal) : Bool :=
  match o with
  | .next _ => false
  | .fault _ => false
  | .refused _ => true

theorem next_of_nextIs {o : Host.Outcome State Fault Refusal} {p : State → Bool} (h : nextIs o p = true) :
    ∃ t, o = .next t ∧ p t = true := by
  cases o with
  | next t => exact ⟨t, rfl, h⟩
  | fault e => cases h
  | refused e => cases h

/-- RESP holds `ok, err, n` and the value. -/
def answers (ok : Bool) (err : BitVec 3) (n : BitVec 5) (v : Word) (t : State) : Bool :=
  t.resp.valid && decide (t.resp.ok = ok) && decide (t.resp.err = err) && decide (t.resp.n = n) &&
    decide (t.resp.res.rval = v) && decide (t.busy = none)

/-! ### Decoding: one word for every command, bit by bit from R70 -/

theorem test_decode_encoders :
    decode 0b00000000#8 = .ok .uencCount ∧ decode 0b00000001#8 = .ok .uencTry ∧ decode 0b00000010#8 = .ok .uenc ∧
    decode 0b00000011#8 = .ok .uencSink ∧ decode 0b00100000#8 = .ok .sencCount ∧ decode 0b00100001#8 = .ok .sencTry ∧
    decode 0b00100010#8 = .ok .senc ∧ decode 0b00100011#8 = .ok .sencSink := by decide

theorem test_decode_decoders :
    decode 0b00010000#8 = .ok .udecTry ∧ decode 0b00010001#8 = .ok .udec ∧ decode 0b00010010#8 = .ok .udecSrc ∧
    decode 0b00110000#8 = .ok .sdecTry ∧ decode 0b00110001#8 = .ok .sdec ∧ decode 0b00110010#8 = .ok .sdecSrc := by
  decide

theorem test_decode_classifier :
    decode 0b01000000#8 = .ok .narrowU8 ∧ decode 0b01000001#8 = .ok .narrowU32 ∧
    decode 0b01000010#8 = .ok .narrowU64 ∧ decode 0b01000011#8 = .ok .narrowU128 ∧ decode 0b01000100#8 = .ok .clsU ∧
    decode 0b01001000#8 = .ok .narrowS8 ∧ decode 0b01001001#8 = .ok .narrowS32 ∧
    decode 0b01001010#8 = .ok .narrowS64 ∧ decode 0b01001011#8 = .ok .narrowS128 ∧ decode 0b01001100#8 = .ok .clsS := by
  decide

/-- The ends of each reserved range of R73. -/
theorem test_decode_reserved :
    ([0x04, 0x0F, 0x13, 0x1F, 0x24, 0x2F, 0x33, 0x3F, 0x45, 0x47, 0x4D, 0x4F, 0x50, 0xFF] : List (BitVec 8)).all
      (fun op => decode op = .error .reserved) = true := by decide

theorem test_table_word : decodeTableWord 8 0x4B = some .narrowS128 ∧ decodeTableWord 8 0x47 = none := by decide

/-! ### WellFormed: an ill-formed term for each check -/

theorem test_request_wf_bounds : (asked 0).wf { addrW := 16, pExcess := .discard } = true ∧
    { asked 0 with dbase := 65536 }.wf { addrW := 16, pExcess := .discard } = false ∧
    { asked 0 with dcap := 65536 }.wf { addrW := 16, pExcess := .discard } = false ∧
    { asked 0 with sbase := 65536 }.wf { addrW := 16, pExcess := .discard } = false ∧
    { asked 0 with slen := 65536 }.wf { addrW := 16, pExcess := .discard } = false := by decide

/-- A statement of `i` under a 16-bit address space. -/
def stmtOk (i : Instr) (v : Option ValLit) (d s : Option (Nat × Nat)) : Bool :=
  Stmt.wf { addrW := 16, pExcess := .discard } { instr := i, val := v, dst := d, src := s }

theorem test_stmt_wf_operands :
    stmtOk .uenc (some (.dec 1)) (some (0, 1)) none = true ∧ stmtOk .uenc none (some (0, 1)) none = false ∧
    stmtOk .uenc (some (.dec 1)) none none = false ∧ stmtOk .udec none none (some (0, 1)) = true ∧
    stmtOk .udec none none none = false ∧ stmtOk .udecSrc none none (some (0, 1)) = false ∧
    stmtOk .udecSrc (some (.dec 1)) none none = false ∧ stmtOk .clsU (some (.dec 1)) (some (0, 1)) none = false := by
  decide

theorem test_stmt_wf_literals :
    stmtOk .clsU (some (.dec (2 ^ 128 - 1))) none none = true ∧ stmtOk .clsU (some (.dec (2 ^ 128))) none none = false ∧
    stmtOk .clsU (some (.dec (-1))) none none = false ∧ stmtOk .clsS (some (.dec (-(2 ^ 127)))) none none = true ∧
    stmtOk .clsS (some (.dec (-(2 ^ 127) - 1))) none none = false ∧
    stmtOk .clsS (some (.dec (2 ^ 127 - 1))) none none = true ∧ stmtOk .clsS (some (.dec (2 ^ 127))) none none = false ∧
    stmtOk .clsS (some (.hex (List.replicate 32 15))) none none = true ∧
    stmtOk .clsS (some (.hex (List.replicate 33 0))) none none = false ∧
    stmtOk .clsS (some (.hex [])) none none = false := by decide

theorem test_stmt_wf_windows :
    stmtOk .uenc (some (.dec 1)) (some (65536, 1)) none = false ∧
    stmtOk .uenc (some (.dec 1)) (some (0, 65536)) none = false ∧
    stmtOk .udec none none (some (65536, 1)) = false ∧ stmtOk .udec none none (some (0, 65536)) = false := by decide

/-! ### Assembler text (R76, R77) -/

theorem test_line_encode : assembleLine { addrW := 16, pExcess := .discard } "UENC.TRY  #624485, dst=0x10:4" =
    some { op := 0x01, val := 624485, dbase := 16, dcap := 4, sbase := 0, slen := 0 } := by decide

theorem test_line_signed : assembleLine { addrW := 16, pExcess := .discard } "CLS.S #-65" =
    some { op := 0x4C, val := 0xFFFFFFFFFFFFFFFFFFFFFFFFFFFFFFBF, dbase := 0, dcap := 0, sbase := 0, slen := 0 } := by
  decide

theorem test_line_source : assembleLine { addrW := 16, pExcess := .discard } "UDEC.SRC" =
    some { op := 0x12, val := 0, dbase := 0, dcap := 0, sbase := 0, slen := 0 } ∧
    assembleLine { addrW := 16, pExcess := .discard } "SDEC.TRY src=3:19" =
      some { op := 0x30, val := 0, dbase := 0, dcap := 0, sbase := 3, slen := 19 } := by decide

theorem test_line_errors :
    assembleLine { addrW := 16, pExcess := .discard } "CLS.U #-1" = none ∧
    assembleLine { addrW := 16, pExcess := .discard } "UENC #1" = none ∧
    assembleLine { addrW := 16, pExcess := .discard } "UADD #1" = none ∧
    assembleLine { addrW := 16, pExcess := .discard } "CLS.U #" = none := by decide

theorem test_line_pseudo : readLine "SENC.ALLOC #-1".toList = some (.pseudo (.sencAlloc ones)) ∧
    readLine "UENC.ALLOC #-1".toList = none := by decide

/-! ### Vectors of spec/95_test_vectors.md, one step each -/

/-- 2.1: 2^126 − 1 takes 18 bytes, 2^126 takes 19. -/
theorem test_uenc_count : nextIs (exec .uencCount (encReq 85070591730234615865843651857942052863 0 0)) (answers true 0 18 0) ∧
    nextIs (exec .uencCount (encReq 85070591730234615865843651857942052864 0 0)) (answers true 0 19 0) := by decide

/-- 2.2: 63 and −64 take one byte, 64 and −65 two. -/
theorem test_senc_count : nextIs (exec .sencCount (encReq 64 0 0)) (answers true 0 2 0) ∧
    nextIs (exec .sencCount (encReq (BitVec.ofInt 128 (-64)) 0 0)) (answers true 0 1 0) := by decide

/-- S11, R103: `[0xE5, 0x8E, 0x26]` at A .. A+2, A+3 unchanged. -/
theorem test_uenc_try : nextIs (exec .uencTry (encReq 624485 16 4)) fun t =>
    answers true 0 3 0 t && decide (t.mem = [(16, 0xE5), (17, 0x8E), (18, 0x26)]) := by decide

/-- 2.3: UENC 128 into one byte fails with BufferTooSmall and writes nothing; S5 into two. -/
theorem test_uenc : nextIs (exec .uenc (encReq 128 16 1)) (fun t => answers false 1 0 0 t && decide (t.mem = [])) ∧
    nextIs (exec .uenc (encReq 128 16 2)) (fun t => answers true 0 2 0 t && decide (t.mem = [(16, 0x80), (17, 1)])) := by
  decide

/-- S14: the safe form withholds the kind. -/
theorem test_uenc_try_small : nextIs (exec .uencTry (encReq ones 16 1)) fun t =>
    answers false 0 0 0 t && decide (t.mem = []) := by decide

/-- S10, R143. -/
theorem test_senc_try : nextIs (exec .sencTry (encReq (BitVec.ofInt 128 (-65)) 16 2)) fun t =>
    answers true 0 2 0 t && decide (t.mem = [(16, 0xBF), (17, 0x7F)]) := by decide

/-- S9: 64 is `[0xC0, 0x00]`; into one byte BufferTooSmall. A stored zero byte leaves no entry in memory. -/
theorem test_senc : nextIs (exec .senc (encReq 64 16 2)) (fun t =>
      answers true 0 2 0 t && decide (memRead t.mem 16 = 0xC0) && decide (memRead t.mem 17 = 0)) ∧
    nextIs (exec .senc (encReq 64 16 1)) (answers false 1 0 0) := by decide

/-- R105: UENC.SINK #300 first hands over 0xAC and goes on. -/
theorem test_uenc_sink : nextIs (exec .uencSink (encReq 300 0 0)) fun t =>
    decide (t.sink.received = [0xAC]) && decide (t.busy = some (.sink { left := [0x02], sent := 1 })) := by decide

/-- R145: SENC.SINK #−1 makes one call. -/
theorem test_senc_sink : nextIs (exec .sencSink (encReq ones 0 0)) fun t =>
    answers true 0 1 0 t && decide (t.sink.received = [0x7F]) := by decide

/-- S12, and 2.4: 18 bytes 0x80 are a failure whose kind is withheld. -/
theorem test_udec_try : nextIs (exec .udecTry (decReq .discard [0xE5, 0x8E, 0x26] 3)) (fun t =>
      answers true 0 3 624485 t && decide (t.resp.res.sclass = .bits32)) ∧
    nextIs (exec .udecTry (decReq .discard (List.replicate 18 0x80) 18)) (answers false 0 0 0) := by decide

/-- 2.4: 18 bytes 0x80 are IncompleteInput, 19 Overflow. -/
theorem test_udec : nextIs (exec .udec (decReq .discard (List.replicate 19 0x80) 18)) (answers false 2 0 0) ∧
    nextIs (exec .udec (decReq .discard (List.replicate 19 0x80) 19)) (answers false 3 0 0) := by decide

/-- 2.4: `[0xFF × 18, 0x7F]` under both values of P_EXCESS. -/
theorem test_udec_excess : nextIs (exec .udec (decReq .discard (pad 18 0xFF 0x7F) 19)) (answers true 0 19 ones) ∧
    nextIs (exec .udec (decReq .overflow (pad 18 0xFF 0x7F) 19)) (answers false 3 0 0) := by decide

/-- 2.5: `[0x40]` is −64; the empty window fails. -/
theorem test_sdec_try : nextIs (exec .sdecTry (decReq .discard [0x40] 1)) (answers true 0 1 (BitVec.ofInt 128 (-64))) ∧
    nextIs (exec .sdecTry (decReq .discard [0x40] 0)) (answers false 0 0 0) := by decide

/-- 2.5: `[0x80 × 17, 0x40]` is extended from bit 126; `[0xFF × 18, 0x01]` is not extended. -/
theorem test_sdec : nextIs (exec .sdec (decReq .overflow (pad 17 0x80 0x40) 18))
      (answers true 0 18 0xE0000000000000000000000000000000) ∧
    nextIs (exec .sdec (decReq .overflow (pad 18 0xFF 0x01) 19)) (answers true 0 19 0x7FFFFFFFFFFFFFFFFFFFFFFFFFFFFFFF) := by
  decide

/-- 2.5: `[0xFF × 18, 0x3F]` under both values of P_EXCESS. -/
theorem test_sdec_excess : nextIs (exec .sdec (decReq .discard (pad 18 0xFF 0x3F) 19)) (answers true 0 19 ones) ∧
    nextIs (exec .sdec (decReq .overflow (pad 18 0xFF 0x3F) 19)) (answers false 3 0 0) := by decide

/-- R124: one pull is one step; R121: exhaustion at byte 0. -/
theorem test_udec_src : nextIs (exec .udecSrc (srcReq [0xAC, 0x02, 0x05] .exhausted)) (fun t =>
      decide (t.source = { bytes := [0x02, 0x05], pos := 1, atEnd := .exhausted }) &&
        decide (t.busy = some (.source { sign := .unsigned, scan := { acc := 44, shift := 7, i := 1 } }))) ∧
    nextIs (exec .udecSrc (srcReq [] .exhausted)) (answers false 2 0 0) := by decide

/-- 2.5: `[0x7F]` is −1. -/
theorem test_sdec_src : nextIs (exec .sdecSrc (srcReq [0x7F] .silent)) (answers true 0 1 ones) ∧
    faults (exec .sdecSrc (srcReq [] .silent)) .sourceSilent = true := by decide

/-- 2.6. -/
theorem test_cls_u : nextIs (exec .clsU (encReq 4294967296 0 0)) fun t =>
    answers true 0 0 4294967296 t && !t.resp.res.fits8 && !t.resp.res.fits32 && t.resp.res.fits64 &&
      decide (t.resp.res.sclass = .bits64) := by decide

theorem test_cls_s : nextIs (exec .clsS (encReq 255 0 0)) fun t =>
    answers true 0 0 255 t && !t.resp.res.fits8 && t.resp.res.fits32 && t.resp.res.fits64 &&
      decide (t.resp.res.sclass = .bits32) := by decide

theorem test_narrow_u8 : nextIs (exec .narrowU8 (encReq 255 0 0)) (answers true 0 0 255) ∧
    nextIs (exec .narrowU8 (encReq 256 0 0)) (answers false 4 0 0) := by decide

theorem test_narrow_u32 : nextIs (exec .narrowU32 (encReq 4294967295 0 0)) (answers true 0 0 4294967295) ∧
    nextIs (exec .narrowU32 (encReq 4294967296 0 0)) (answers false 4 0 0) := by decide

theorem test_narrow_u64 :
    nextIs (exec .narrowU64 (encReq 18446744073709551615 0 0)) (answers true 0 0 18446744073709551615) ∧
    nextIs (exec .narrowU64 (encReq 18446744073709551616 0 0)) (answers false 4 0 0) := by decide

theorem test_narrow_u128 : nextIs (exec .narrowU128 (encReq ones 0 0)) fun t =>
    answers true 0 0 ones t && decide (t.resp.res.sclass = .bits128) := by decide

theorem test_narrow_s8 : nextIs (exec .narrowS8 (encReq (BitVec.ofInt 128 (-128)) 0 0))
      (answers true 0 0 (BitVec.ofInt 128 (-128))) ∧
    nextIs (exec .narrowS8 (encReq (BitVec.ofInt 128 (-129)) 0 0)) (answers false 4 0 0) := by decide

theorem test_narrow_s32 : nextIs (exec .narrowS32 (encReq 2147483647 0 0)) (answers true 0 0 2147483647) ∧
    nextIs (exec .narrowS32 (encReq 2147483648 0 0)) (answers false 4 0 0) := by decide

theorem test_narrow_s64 : nextIs (exec .narrowS64 (encReq 0xFFFFFFFFFFFFFFFF8000000000000000 0 0))
      (answers true 0 0 0xFFFFFFFFFFFFFFFF8000000000000000) ∧
    nextIs (exec .narrowS64 (encReq 9223372036854775808 0 0)) (answers false 4 0 0) := by decide

theorem test_narrow_s128 : nextIs (exec .narrowS128 (encReq ones 0 0)) fun t =>
    answers true 0 0 ones t && decide (t.resp.res.sclass = .bits8) := by decide

/-! ### The step -/

/-- R206: a reserved opcode with a window that does not fit is IllegalCommand all the same. -/
theorem test_step_reserved : nextIs (step { idle .discard with port := [{ asked 0x04 with dcap := 65535 }] })
    (answers false 5 0 0) := by decide

/-- R41: `base + len = 2^ADDR_W` fits, one more is refused. -/
theorem test_step_window_edge :
    nextIs (step { idle .discard with port := [{ asked 0x11 with sbase := 65535, slen := 1 }] }) (answers true 0 1 0) ∧
    refuses (step { idle .discard with port := [{ asked 0x11 with sbase := 65535, slen := 2 }] }) = true := by decide

/-- The next step after reset runs the word that withFetchWord presents, for the first and the last opcode of R71. -/
theorem test_fetch_word : nextIs (step (State.reset.withFetchWord 8 0x00)) (answers true 0 1 0) ∧
    nextIs (step (State.reset.withFetchWord 8 0x4C)) (answers true 0 0 0) ∧
    nextIs (step (State.reset.withFetchWord 8 0x02)) (answers false 1 0 0) := by decide

/-- R235(a): after reset the host reads nothing. -/
theorem test_host_read : hostReadResp State.reset = none ∧
    hostReadResp (idle .discard) = some 0b0001110000000001#144 := by decide

/-- R230: a reset clears valid; the held requests stay. -/
theorem test_reset_between : nextIs (step { presented 0x00 with rst := .between }) fun t =>
    decide (t.resp.valid = false) && decide (t.port.length = 2) && decide (t.rst = .low) := by decide

/-- R55: another agent writes the byte below the window and the one above it: both are its own, no race. -/
theorem test_foreign_outside_window :
    nextIs (step { presented 0x01 with foreign := [(15, 9), (20, 9)] }) fun t =>
      decide (t.mem = [(15, 9), (16, 0xAC), (17, 0x02), (20, 9)]) && decide (t.foreign = []) := by decide

/-- R236(b): which bytes of a window in use may hold any value once another agent has written them: DST past the encoding,
all of a DST that is too small, all of SRC. -/
theorem test_any_value_after :
    [15, 16, 17, 18, 19, 20].filter (anyValueAfter (presented 0x01)) = [18, 19] ∧
    [15, 16, 17, 18].filter (anyValueAfter { presented 0x01 with port := [{ asked 0x01 with dcap := 1 }] }) = [16] ∧
    [15, 16, 17, 18, 19, 20].filter (anyValueAfter (presented 0x11)) = [16, 17, 18, 19] := by decide

/-- R44: writing what an unlisted byte reads as removes the entry. -/
theorem test_memory_canonical : memWrite [(3, 7), (5, 1)] 3 0 = [(5, 1)] ∧ memWrite [(3, 7)] 4 2 = [(3, 7), (4, 2)] ∧
    Memory.wf [(3, 7), (3, 1)] = false ∧ Memory.wf [(3, 0)] = false := by decide

/-! ### Witnesses: each statement's hypotheses can all be met, each of its cases at the edge of its range -/

theorem exists_next {o : Host.Outcome State Fault Refusal} (h : nextIs o (fun _ => true) = true) : ∃ t, o = .next t :=
  (next_of_nextIs h).imp fun _ ht => ht.1

theorem witness_StepRunsPresentedCommand :
    (presented 0x10).foreign = [] ∧ (presented 0x10).rst = .low ∧ (presented 0x10).busy = none ∧
    (presented 0x10).port = [asked 0x10, asked 0x44] ∧ decode (asked 0x10).op = .ok .udecTry := by decide

theorem witness_ReservedOpcodeAnswersIllegalCommand :
    (presented 0xFF).foreign = [] ∧ (presented 0xFF).rst = .low ∧ (presented 0xFF).busy = none ∧
    (presented 0xFF).port = [asked 0xFF, asked 0x44] ∧ decode (asked 0xFF).op = .error .reserved := by decide

theorem witness_IdleBlockTakesNextPresented :
    (idle .overflow).foreign = [] ∧ (idle .overflow).rst = .low ∧ (idle .overflow).busy = none ∧
    (idle .overflow).port = [] ∧ (asked 0x03).wf (idle .overflow).cfg = true := by decide

/-- A sink encode between its second and its third byte, a request held behind it. -/
def sending : State :=
  { presented 0x44 with busy := some (.sink { left := [0x80, 0x01], sent := 2 }) }

/-- A source decode after one byte. -/
def pulling : State :=
  { presented 0x44 with
    busy := some (.source { sign := .signed, scan := { acc := 5, shift := 7, i := 1 } })
    source := { bytes := [0x85, 0x7F, 0x01], pos := 1, atEnd := .exhausted } }

theorem witness_HeldRequestsWait :
    sending.foreign = [] ∧ sending.rst = .low ∧ sending.busy = some (.sink { left := [0x80, 0x01], sent := 2 }) ∧
    nextIs (step sending) (fun u => decide (u.busy ≠ none)) = true ∧
    pulling.busy = some (.source { sign := .signed, scan := { acc := 5, shift := 7, i := 1 } }) ∧
    nextIs (step { pulling with source := srcReq [0x7F] .silent |>.source }) (fun u => decide (u.busy = none)) = true := by
  decide

/-- A window that ends at the top of the address space; the encoding of 128 has two bytes. -/
theorem witness_UnsignedBufferEncodeStoresEncoding : Memory.wf (encReq 128 65534 2).mem = true ∧
    (encReq 128 65534 2).req.dbase + (encReq 128 65534 2).req.dcap ≤ 2 ^ (encReq 128 65534 2).cfg.addrW ∧
    UnsignedLen 128 2 ∧ 2 ≤ (encReq 128 65534 2).req.dcap ∧ (encReq 128 65534 1).req.dcap < 2 :=
  ⟨by decide, by decide, ⟨by decide, by decide, fun m h1 h2 => by
    have : m = 1 := by omega
    subst this; decide⟩, by decide, by decide⟩

theorem witness_SignedBufferEncodeStoresEncoding : Memory.wf (encReq 64 65534 2).mem = true ∧
    (encReq 64 65534 2).req.dbase + (encReq 64 65534 2).req.dcap ≤ 2 ^ (encReq 64 65534 2).cfg.addrW ∧
    SignedLen 64 2 ∧ 2 ≤ (encReq 64 65534 2).req.dcap ∧ (encReq 64 65534 1).req.dcap < 2 :=
  ⟨by decide, by decide, ⟨by decide, by decide, fun m h1 h2 => by
    have : m = 1 := by omega
    subst this; decide⟩, by decide, by decide⟩

/-- UencSinkHandsOverEncoding, SencSinkHandsOverEncoding: the encodings of 128, unsigned and signed, have two bytes; a sink that takes
all, exactly two, none, or one of them. -/
theorem witness_SinkHandsOverEncoding : (encReq 128 0 0).foreign = [] ∧ (encReq 128 0 0).rst = .low ∧
    (∀ r, (encReq 128 0 0).sink.room = some r → 2 ≤ r) ∧
    (∀ r, { encReq 128 0 0 with sink := { received := [], room := some 2 } }.sink.room = some r → 2 ≤ r) ∧
    { encReq 128 0 0 with sink := { received := [], room := some 0 } }.sink.room = some 0 ∧
    { encReq 128 0 0 with sink := { received := [], room := some 1 } }.sink.room = some (0 + 1) ∧ 0 + 1 < 2 := by
  refine ⟨by decide, by decide, nofun, fun r h => ?_, by decide, by decide, by decide⟩
  cases h; decide

theorem witness_LastStoredByteTellsZeroAndSign : Memory.wf (encReq ones 16 19).mem = true ∧
    (∃ t, exec .uenc (encReq ones 16 19) = .next t ∧ t.resp.ok = true) ∧
    (∃ t, exec .uenc (encReq 0 16 1) = .next t ∧ t.resp.ok = true) ∧
    ∃ t, exec .senc (encReq ones 16 19) = .next t ∧ t.resp.ok = true :=
  ⟨by decide, next_of_nextIs (by decide), next_of_nextIs (by decide), next_of_nextIs (by decide)⟩

/-- Bytes of the window of `decReq`. -/
def windowByte (bs : List Byte) (k : Nat) : Byte := memRead (decReq .discard bs 0).mem (16 + k)

theorem wholeEncoding_check {sg : Sign} {p : PExcess} {get : Nat → Byte} {n : Nat}
    (h : 1 ≤ n ∧ n ≤ 19 ∧ ((List.range (n - 1)).all fun k => decide (128 ≤ (get k).toNat)) = true ∧
      (get (n - 1)).toNat < 128) (hf : n = 19 → p = .overflow → LastByteFits sg (get 18)) :
    WholeEncoding sg p get n :=
  ⟨h.1, h.2.1, fun k hk => by simpa using List.all_eq_true.1 h.2.2.1 k (List.mem_range.2 (by omega)), h.2.2.2, hf⟩

/-- One byte, and 19 bytes whose last one fits exactly, under P_EXCESS = Overflow. -/
theorem witness_whole_unsigned : WholeEncoding .unsigned .discard (windowByte [0x7F]) 1 ∧
    WholeEncoding .unsigned .overflow (windowByte (pad 18 0xFF 0x03)) 19 ∧
    WholeEncoding .unsigned .discard (windowByte (pad 18 0xFF 0x7F)) 19 :=
  ⟨wholeEncoding_check (by decide) (fun h => absurd h (by decide)),
    wholeEncoding_check (by decide) (fun _ _ => by unfold LastByteFits; decide),
    wholeEncoding_check (by decide) nofun⟩

theorem witness_whole_signed : WholeEncoding .signed .discard (windowByte [0x40]) 1 ∧
    WholeEncoding .signed .overflow (windowByte (pad 18 0x80 0x7E)) 19 ∧
    WholeEncoding .signed .overflow (windowByte (pad 18 0xFF 0x01)) 19 :=
  ⟨wholeEncoding_check (by decide) (fun h => absurd h (by decide)),
    wholeEncoding_check (by decide) (fun _ _ => by unfold LastByteFits; decide),
    wholeEncoding_check (by decide) (fun _ _ => by unfold LastByteFits; decide)⟩

theorem overlong_check {sg : Sign} {p : PExcess} {get : Nat → Byte}
    (h : ((List.range 18).all fun k => decide (128 ≤ (get k).toNat)) = true)
    (hl : 128 ≤ (get 18).toNat ∨ ((get 18).toNat < 128 ∧ p = .overflow ∧ ¬LastByteFits sg (get 18))) :
    OverlongEncoding sg p get :=
  ⟨fun k hk => by simpa using List.all_eq_true.1 h k (List.mem_range.2 hk), hl⟩

/-- 19 bytes that all continue, and under P_EXCESS = Overflow the least 19th byte that is too large. -/
theorem witness_overlong : OverlongEncoding .unsigned .discard (windowByte (List.replicate 19 0x80)) ∧
    OverlongEncoding .unsigned .overflow (windowByte (pad 18 0x80 0x04)) ∧
    OverlongEncoding .signed .discard (windowByte (List.replicate 19 0x80)) ∧
    OverlongEncoding .signed .overflow (windowByte (pad 18 0x80 0x02)) :=
  ⟨overlong_check (by decide) (.inl (by decide)),
    overlong_check (by decide) (.inr ⟨by decide, by decide, by unfold LastByteFits; decide⟩),
    overlong_check (by decide) (.inl (by decide)),
    overlong_check (by decide) (.inr ⟨by decide, by decide, by unfold LastByteFits; decide⟩)⟩

/-- UnsignedBufferDecodeAnswers, SignedBufferDecodeAnswers: windows of 18 bytes that all continue, of none, of 19 and of one; the
encodings in them are those of the theorems above. -/
theorem witness_BufferDecodeAnswers :
    (decReq .discard (List.replicate 18 0x80) 18).req.sbase + 18 ≤ 2 ^ (decReq .discard [] 0).cfg.addrW ∧
    18 < 19 ∧ ((List.range 18).all fun k => decide (128 ≤ (windowByte (List.replicate 18 0x80) k).toNat)) = true ∧
    (∀ k, k < (decReq .discard [] 0).req.slen → 128 ≤ (windowByte [] k).toNat) ∧
    19 ≤ (decReq .discard (List.replicate 19 0x80) 19).req.slen ∧ 1 ≤ (decReq .discard [0x7F] 1).req.slen ∧
    19 ≤ (decReq .overflow (pad 18 0xFF 0x03) 19).req.slen :=
  ⟨by decide, by decide, by decide, fun k h => absurd h (Nat.not_lt_zero k), by decide, by decide, by decide⟩

/-- Bytes of a source, as the statements of the source decodes read them. -/
def sourceByte (bs : List Byte) (k : Nat) : Byte := (srcReq bs .exhausted).source.bytes.getD k 0

/-- UdecSrcPullsAndAnswers, SdecSrcPullsAndAnswers. -/
theorem witness_SrcPullsAndAnswers :
    (srcReq [0x80, 0x7F] .exhausted).foreign = [] ∧ (srcReq [0x80, 0x7F] .exhausted).rst = .low ∧
    WholeEncoding .unsigned .discard (sourceByte [0x80, 0x7F]) 2 ∧
    WholeEncoding .signed .discard (sourceByte [0x80, 0x7F]) 2 ∧
    OverlongEncoding .unsigned .discard (sourceByte (List.replicate 19 0x80)) ∧
    OverlongEncoding .signed .discard (sourceByte (List.replicate 19 0x80)) ∧
    (List.replicate 18 (0x80 : Byte)).length < 19 ∧
    ((List.range 18).all fun k => decide (128 ≤ (sourceByte (List.replicate 18 0x80) k).toNat)) = true ∧
    (srcReq [] .silent).source.atEnd = .silent ∧ (srcReq [] .silent).source.bytes.length = 0 ∧
    0 < (srcReq [0x80] .silent).source.bytes.length :=
  ⟨by decide, by decide, wholeEncoding_check (by decide) (fun h => absurd h (by decide)),
    wholeEncoding_check (by decide) (fun h => absurd h (by decide)),
    overlong_check (by decide) (.inl (by decide)), overlong_check (by decide) (.inl (by decide)), by decide, by decide,
    by decide, by decide, by decide⟩

theorem witness_BufferDecodeReadsOnlyItsBytes :
    Instr.udec.readsSrc = true ∧
    (∃ t, exec .udec (decReq .discard [0xAC, 0x02, 0x05] 3) = .next t ∧ t.resp.ok = true ∧ t.resp.n.toNat = 2) ∧
    (∃ t, exec .udec (decReq .discard (List.replicate 19 0x80) 19) = .next t ∧ t.resp.ok = false) ∧
    memRead (decReq .discard [0xAC, 0x02, 0x06] 3).mem 16 = memRead (decReq .discard [0xAC, 0x02, 0x05] 3).mem 16 ∧
    memRead (decReq .discard [0xAC, 0x02, 0x06] 3).mem 17 = memRead (decReq .discard [0xAC, 0x02, 0x05] 3).mem 17 := by
  refine ⟨by decide, ?_, ?_, by decide, by decide⟩
  · obtain ⟨t, h, e⟩ := next_of_nextIs (o := exec .udec (decReq .discard [0xAC, 0x02, 0x05] 3))
      (p := fun t => t.resp.ok && decide (t.resp.n.toNat = 2)) (by decide)
    simp only [Bool.and_eq_true, decide_eq_true_eq] at e
    exact ⟨t, h, e⟩
  · obtain ⟨t, h, e⟩ := next_of_nextIs (o := exec .udec (decReq .discard (List.replicate 19 0x80) 19))
      (p := fun t => !t.resp.ok) (by decide)
    exact ⟨t, h, by simpa using e⟩

/-- One byte with bit 6 set, and 19 bytes with bit 6 of the last one set, which only Discard lets pass. -/
theorem witness_SignedAndUnsignedDecodesAgreeUpToFill :
    (∃ t, exec .udec (decReq .discard [0x40] 1) = .next t ∧ t.resp.ok = true) ∧
    (∃ t, exec .sdec (decReq .discard [0x40] 1) = .next t ∧ t.resp.ok = true) ∧
    (∃ t, exec .udec (decReq .discard (pad 18 0x80 0x42) 19) = .next t ∧ t.resp.ok = true) ∧
    ∃ t, exec .sdec (decReq .discard (pad 18 0x80 0x42) 19) = .next t ∧ t.resp.ok = true :=
  ⟨next_of_nextIs (by decide), next_of_nextIs (by decide), next_of_nextIs (by decide), next_of_nextIs (by decide)⟩

/-- UnsignedRoundTrip, SignedRoundTrip: the longest encodings and the shortest. -/
theorem witness_RoundTrip : Memory.wf (encReq ones 16 19).mem = true ∧
    (∃ t, exec .uenc (encReq ones 16 19) = .next t ∧ t.resp.ok = true) ∧
    (∃ t, exec .uencTry (encReq 0 16 1) = .next t ∧ t.resp.ok = true) ∧
    (∃ t, exec .senc (encReq (BitVec.twoPow 128 127) 16 19) = .next t ∧ t.resp.ok = true) ∧
    ∃ t, exec .sencTry (encReq ones 16 1) = .next t ∧ t.resp.ok = true :=
  ⟨by decide, next_of_nextIs (by decide), next_of_nextIs (by decide), next_of_nextIs (by decide),
    next_of_nextIs (by decide)⟩

theorem witness_NarrowingIsLossless :
    (∃ t, exec .narrowU8 (encReq 255 0 0) = .next t ∧ t.resp.ok = true) ∧
    (∃ t, exec .narrowU32 (encReq 255 0 0) = .next t ∧ t.resp.ok = true) ∧
    (∃ t, exec .narrowU64 (encReq 255 0 0) = .next t ∧ t.resp.ok = true) ∧
    (∃ t, exec .narrowS8 (encReq ones 0 0) = .next t ∧ t.resp.ok = true) ∧
    (∃ t, exec .narrowS32 (encReq ones 0 0) = .next t ∧ t.resp.ok = true) ∧
    ∃ t, exec .narrowS64 (encReq ones 0 0) = .next t ∧ t.resp.ok = true :=
  ⟨next_of_nextIs (by decide), next_of_nextIs (by decide), next_of_nextIs (by decide), next_of_nextIs (by decide),
    next_of_nextIs (by decide), next_of_nextIs (by decide)⟩

/-- A success and each kind of failure. -/
theorem witness_ErrorKindsByCommand :
    nextIs (exec .uenc (encReq 128 16 1)) (fun t => decide (t.busy = none) && !t.resp.ok) ∧
    nextIs (exec .sencTry (encReq 64 16 1)) (fun t => decide (t.busy = none) && !t.resp.ok) ∧
    nextIs (exec .sdec (decReq .discard [] 0)) (fun t => decide (t.busy = none) && !t.resp.ok) ∧
    nextIs (exec .narrowS8 (encReq 128 0 0)) (fun t => decide (t.busy = none) && !t.resp.ok) ∧
    nextIs (exec .clsU (encReq 128 0 0)) (fun t => decide (t.busy = none) && t.resp.ok) := by decide

/-- A decode that keeps what R22 lists for it, with other values in every other field. -/
theorem witness_IgnoredFieldsHaveNoEffect :
    (Instr.udec.readsVal = true → (asked 0x11).val = (decReq .discard [0x01] 4).req.val) ∧
    (Instr.udec.readsDst = true → (asked 0x11).dbase = (decReq .discard [0x01] 4).req.dbase ∧
      (asked 0x11).dcap = (decReq .discard [0x01] 4).req.dcap) ∧
    (Instr.udec.readsSrc = true → (asked 0x11).sbase = (decReq .discard [0x01] 4).req.sbase ∧
      (asked 0x11).slen = (decReq .discard [0x01] 4).req.slen) ∧
    (asked 0x11).val ≠ (decReq .discard [0x01] 4).req.val := by decide

theorem witness_CommandsKeepTheOtherSpaces :
    (∃ t, exec .uencSink (encReq 300 0 0) = .next t) ∧ (∃ t, exec .uenc (encReq 300 16 2) = .next t) ∧
    ∃ t, exec .sdecSrc (srcReq [0x80] .silent) = .next t :=
  ⟨exists_next (by decide), exists_next (by decide), exists_next (by decide)⟩

theorem witness_MisfitWindowIsRefused :
    refuses (exec .uenc (encReq 0 65535 2)) = true ∧ refuses (exec .uenc (encReq 0 65535 1)) = false ∧
    refuses (exec .sdecTry { decReq .discard [] 0 with req := { asked 0 with sbase := 65533 } }) = true := by decide

/-- Each stop, and its neighbour that runs. -/
theorem witness_StepStopsExactlyWhere :
    (presented 0x03).rst = .low ∧
    faults (step { presented 0x03 with sink := { received := [], room := some 0 } }) .sinkHolds = true ∧
    nextIs (step { presented 0x03 with sink := { received := [], room := some 1 } }) (fun _ => true) = true ∧
    faults (step { sending with sink := { received := [], room := some 0 } }) .sinkHolds = true ∧
    faults (step { presented 0x12 with source := { bytes := [], pos := 0, atEnd := .silent } }) .sourceSilent = true ∧
    nextIs (step { presented 0x12 with source := { bytes := [0x80], pos := 0, atEnd := .silent } }) (fun _ => true) = true ∧
    refuses (step { presented 0x22 with port := [{ asked 0x22 with dbase := 65533 }] }) = true := by decide

/-- Everything a safe state can hold at once: written memory, an answer, held requests, another agent. -/
theorem witness_safe_sending : State.Inv { sending with mem := [(16, 7)], foreign := [(65535, 1)] } where
  memory_canonical := by decide
  memory_in_space := by decide
  resp_coherent := fun _ => ⟨nofun, fun _ => ⟨by decide, by decide, rfl⟩⟩
  transfer_in_progress := fun t h => by cases h; exact ⟨by decide, by decide, by decide⟩
  port_carries := by decide
  foreign_in_space := by decide

theorem witness_safe_pulling : State.Inv pulling where
  memory_canonical := by decide
  memory_in_space := by decide
  resp_coherent := fun _ => ⟨nofun, fun _ => ⟨by decide, by decide, rfl⟩⟩
  transfer_in_progress := fun t h => by cases h; exact ⟨by decide, by decide, by decide, by decide⟩
  port_carries := by decide
  foreign_in_space := by decide

theorem witness_StreamCommandsEnd : State.Inv pulling ∧ pulling.rst = .low ∧ pulling.busy ≠ none ∧
    pulling.sink.room = none ∧ pulling.source.atEnd = .exhausted ∧ sending.sink.room = none ∧
    sending.source.atEnd = .exhausted := ⟨witness_safe_pulling, by decide⟩

theorem witness_StepKeepsSafety : (State.Inv pulling ∧ ∃ t, step pulling = .next t) ∧
    State.Inv { sending with mem := [(16, 7)], foreign := [(65535, 1)] } ∧
      ∃ t, step { sending with mem := [(16, 7)], foreign := [(65535, 1)] } = .next t :=
  ⟨⟨witness_safe_pulling, exists_next (by decide)⟩, witness_safe_sending, exists_next (by decide)⟩

/-- A history with a host action between two steps of a command. -/
theorem witness_EveryHistoryKeepsSafety : State.Inv pulling ∧
    ∃ t, runEvents [.step, .host (.poke 3 4), .host (.present (asked 0x44)), .step, .step] pulling = .next t :=
  ⟨witness_safe_pulling, exists_next (by decide)⟩

theorem witness_ResetClearsValid : (presented 0x00).foreign = [] ∧ (presented 0x00).busy = none ∧
    { presented 0x00 with rst := .between }.rst = .between ∧
    ({ idle .discard with rst := .during }.rst = .during ∧ { idle .discard with rst := .during }.port = []) ∧
    { presented 0x04 with rst := .during }.port = [asked 0x04, asked 0x44] ∧
      decode (asked 0x04).op = .error .reserved := by decide

/-- A buffer encode with room for its two bytes, one without, and a decode. -/
theorem witness_ResetDuringCommandKeepsOtherBytes :
    { presented 0x02 with rst := .during }.rst = .during ∧ (presented 0x02).foreign = [] ∧
    (presented 0x02).busy = none ∧ decode (asked 0x02).op = .ok .uenc ∧ Memory.wf (presented 0x02).mem = true ∧
    Instr.uenc.usesSink = false ∧ Instr.uenc.usesSource = false ∧
    (Instr.uenc.readsDst = true → (asked 0x02).dbase + (asked 0x02).dcap ≤ 2 ^ (presented 0x02).cfg.addrW) ∧
    (Instr.uenc.readsSrc = true → (asked 0x02).sbase + (asked 0x02).slen ≤ 2 ^ (presented 0x02).cfg.addrW) ∧
    EncLen Instr.uenc.sign 300 2 ∧ 2 ≤ (asked 0x02).dcap ∧ { asked 0x02 with dcap := 1 }.dcap < 2 ∧
    Instr.sdec.readsDst = false :=
  ⟨by decide, by decide, by decide, by decide, by decide, by decide, by decide, by decide, by decide,
    ⟨by decide, by decide, fun m h1 h2 => by
      have : m = 1 := by omega
      subst this; decide⟩, by decide, by decide, by decide⟩

theorem witness_ResetDuringStreamCutsIt :
    { sending with rst := .during }.rst ≠ .low ∧ sending.foreign = [] ∧
    sending.busy = some (.sink { left := [0x80, 0x01], sent := 2 }) ∧
    pulling.busy = some (.source { sign := .signed, scan := { acc := 5, shift := 7, i := 1 } }) ∧ 1 ≤ 18 ∧
    { presented 0x03 with rst := .during }.rst = .during ∧ (presented 0x03).busy = none ∧
    decode (asked 0x03).op = .ok .uencSink ∧ Instr.uencSink.usesSink = true ∧
    decode (asked 0x12).op = .ok .udecSrc ∧ Instr.udecSrc.usesSource = true := by decide

/-- Another agent writes the first byte of the encoding, the first byte after it, and the byte below the window. -/
theorem witness_RacedBytesHoldEitherWriter :
    let s := { presented 0x02 with foreign := [(16, 9), (18, 9), (15, 9)] }
    s.rst = .low ∧ s.busy = none ∧ s.port = [asked 0x02, asked 0x44] ∧ decode (asked 0x02).op = .ok .uenc ∧
    Instr.uenc.readsDst = true ∧ Memory.wf s.mem = true ∧ EncLen Instr.uenc.sign (asked 0x02).val 2 ∧
    2 ≤ (asked 0x02).dcap ∧ (asked 0x02).dbase + (asked 0x02).dcap ≤ 2 ^ s.cfg.addrW :=
  ⟨by decide, by decide, by decide, by decide, by decide, by decide,
    ⟨by decide, by decide, fun m h1 h2 => by
      have : m = 1 := by omega
      subst this; decide⟩, by decide, by decide⟩

/-- A destination window one byte short: another agent writes the byte in it, and the next one. -/
theorem witness_RacedFailedEncodeKeepsOtherBytes :
    let r := { asked 0x02 with dcap := 1 }
    let s := { presented 0x02 with port := [r], foreign := [(16, 9), (17, 9)] }
    s.rst = .low ∧ s.busy = none ∧ s.port = [r] ∧ decode r.op = .ok .uenc ∧ Instr.uenc.readsDst = true ∧
    Memory.wf s.mem = true ∧ EncLen Instr.uenc.sign r.val 2 ∧ r.dcap < 2 ∧ r.dbase + r.dcap ≤ 2 ^ s.cfg.addrW :=
  ⟨by decide, by decide, by decide, by decide, by decide, by decide,
    ⟨by decide, by decide, fun m h1 h2 => by
      have : m = 1 := by omega
      subst this; decide⟩, by decide, by decide⟩

theorem witness_RacedDecodeReadsSomeBytes :
    let s := { presented 0x31 with foreign := [(16, 9), (20, 9)] }
    s.rst = .low ∧ s.busy = none ∧ s.port = [asked 0x31, asked 0x44] ∧ decode (asked 0x31).op = .ok .sdec ∧
    Instr.sdec.readsSrc = true ∧ Memory.wf s.mem = true ∧ (asked 0x31).sbase + (asked 0x31).slen ≤ 2 ^ s.cfg.addrW := by
  decide

/-- The bytes next to the two ends of the window. -/
theorem witness_WritesOutsideWindowsNeverRace :
    let s := { presented 0x02 with foreign := [(15, 9), (20, 9)] }
    s.rst = .low ∧ s.port = [asked 0x02, asked 0x44] ∧ decode (asked 0x02).op = .ok .uenc ∧
    ∀ c ∈ s.foreign, (Instr.uenc.readsSrc = true → c.1 < (asked 0x02).sbase ∨ (asked 0x02).sbase + (asked 0x02).slen ≤ c.1) ∧
      (Instr.uenc.readsDst = true → c.1 < (asked 0x02).dbase ∨ (asked 0x02).dbase + (asked 0x02).dcap ≤ c.1) := by
  decide

/-- A decimal and a hex statement that assemble, and a literal out of range for each signedness. -/
theorem witness_AssemblerStoresItsOperands :
    (assemble { addrW := 16, pExcess := .discard }
      { instr := .uenc, val := some (.dec 300), dst := some (16, 2), src := none }).isSome = true ∧
    (assemble { addrW := 16, pExcess := .discard }
      { instr := .clsS, val := some (.hex [15, 15]), dst := none, src := none }).isSome = true ∧
    Instr.uenc.sign = .unsigned ∧ ((-1 : Int) < 0 ∨ (2 : Int) ^ 128 ≤ -1) ∧ Instr.clsS.sign = .signed ∧
    ((2 : Int) ^ 127 < -(2 ^ 127) ∨ (2 : Int) ^ 127 ≤ 2 ^ 127) := by decide

/-- The window of 19 bytes at the top of the address space. -/
theorem witness_AllocatingEncodeCannotFail :
    (∃ t, exec .uencCount { encReq 0 0 0 with req := (Pseudo.uencAlloc ones).countRequest } = .next t ∧
      decide (65517 + t.resp.n.toNat ≤ 2 ^ t.cfg.addrW) = true) ∧
    ∃ t, exec .sencCount { encReq 0 0 0 with req := (Pseudo.sencAlloc ones).countRequest } = .next t ∧
      decide (65535 + t.resp.n.toNat ≤ 2 ^ t.cfg.addrW) = true :=
  ⟨next_of_nextIs (by decide), next_of_nextIs (by decide)⟩

end Sys2Proof.Tests
end

section
/-! PROOF. The invariant of a safe state: what the shared operations, a reset, a step and a host action do to it. Each lemma also
says that the parameters stay, since the address space and the port's range are read off them. -/

namespace Sys2Proof.Machine

/-- `t` is a safe state with the parameters of `s`. -/
structure State.SafeAfter (s t : State) : Prop where
  inv : t.Inv
  cfg : t.cfg = s.cfg

namespace State.SafeAfter

theorem refl {s : State} (h : s.Inv) : s.SafeAfter s := ⟨h, rfl⟩

theorem trans {s t u : State} (h : s.SafeAfter t) (h' : t.SafeAfter u) : s.SafeAfter u :=
  ⟨h'.inv, h'.cfg.trans h.cfg⟩

end State.SafeAfter

namespace State.Inv

variable {s : State}

/-- A command may end with a coherent answer. -/
theorem answered (h : s.Inv) {a : Resp} (ha : a.valid = true → a.Coherent) :
    State.Inv { s with busy := none, resp := a } :=
  { h with resp_coherent := ha, transfer_in_progress := nofun }

/-- A stream command may stand between two of its bytes. -/
theorem transferring (h : s.Inv) {t : Transfer} (ht : t.InProgress) : State.Inv { s with busy := some t } :=
  { h with transfer_in_progress := fun _ e => Option.some.inj e ▸ ht }

/-- Bytes may be written inside the address space. -/
theorem stored (h : s.Inv) {base : Nat} {bs : List Byte} (hb : base + bs.length ≤ 2 ^ s.cfg.addrW) :
    State.Inv { s with mem := memWriteBytes s.mem base bs } :=
  { h with
    memory_canonical := memWriteBytes_wf bs base h.memory_canonical
    memory_in_space := memWriteBytes_within bs hb h.memory_in_space }

end State.Inv

/-! ### Stream commands -/

/-- A stream command that has not handed over or pulled its last byte: as `Transfer.InProgress`, but it may still be at its
first byte. -/
def Transfer.Open : Transfer → Prop
  | .sink t => 1 ≤ t.left.length ∧ t.sent + t.left.length ≤ 19
  | .source t => t.scan.i ≤ 18 ∧ t.scan.shift = 7 * t.scan.i ∧ t.scan.acc.toNat < 2 ^ (7 * t.scan.i)

theorem Transfer.InProgress.isOpen : ∀ {t : Transfer}, t.InProgress → t.Open
  | .sink _, ⟨_, hl, h⟩ => ⟨hl, h⟩
  | .source _, ⟨_, hi, hs, ha⟩ => ⟨hi, hs, ha⟩

/-- A sink encode starts with its whole encoding left (R105, R145). -/
theorem sinkStart_open (sg : Sign) (x : Word) : (Transfer.sink { left := encodingOf sg x, sent := 0 }).Open := by
  obtain ⟨h1, h19⟩ := encodingOf_length sg x
  exact ⟨h1, by simpa using h19⟩

/-- A source decode starts with an empty accumulator (R120, R160). -/
theorem sourceStart_open (sg : Sign) : (Transfer.source { sign := sg, scan := Scan.start }).Open :=
  ⟨Nat.zero_le 18, rfl, Nat.one_pos⟩

/-- A chunk OR-ed in above `k` bits leaves at most `k + 7` bits. -/
theorem acc_lt_of_chunk {acc : Word} {k : Nat} (b : Byte) (h : acc.toNat < 2 ^ k) :
    (acc ||| ((dataBits b).setWidth 128 <<< k)).toNat < 2 ^ (k + 7) := by
  have hd : ((dataBits b).setWidth 128).toNat < 2 ^ 7 := by
    rw [BitVec.toNat_setWidth, dataBits_toNat]; omega
  rw [BitVec.toNat_or, BitVec.toNat_shiftLeft]
  refine Nat.or_lt_two_pow (h.trans (Nat.pow_lt_pow_right (by decide) (by omega))) ?_
  refine (Nat.mod_le _ _).trans_lt ?_
  rw [Nat.shiftLeft_eq, Nat.add_comm, Nat.pow_add]
  exact Nat.mul_lt_mul_of_pos_right hd (Nat.two_pow_pos k)

theorem sinkStep_safe {t : SinkTransfer} {s u : State} (h : s.Inv) (ht : (Transfer.sink t).Open)
    (hu : sinkStep t s = .next u) : s.SafeAfter u := by
  obtain ⟨hl, hn⟩ := ht
  obtain ⟨he, -⟩ | ⟨b, rest, he, -, ⟨-, rfl⟩ | ⟨hr, rfl⟩⟩ := sinkStep_next hu
  · simp [he] at hl
  · have ha : (encodedAnswer (t.sent + 1)).Coherent := encodedAnswer_coherent (by omega)
    exact ⟨{ h.answered fun _ => ha with }, rfl⟩
  · have hp : (Transfer.sink { left := rest, sent := t.sent + 1 }).InProgress := by
      rw [he, List.length_cons] at hn
      exact ⟨Nat.le_add_left 1 _, List.length_pos_iff.2 hr, by simp only; omega⟩
    exact ⟨{ h.transferring hp with }, rfl⟩

theorem sourceStep_safe {t : SourceTransfer} {s u : State} (h : s.Inv) (ht : (Transfer.source t).Open)
    (hu : sourceStep t s = .next u) : s.SafeAfter u := by
  obtain ⟨hi, hs, ha⟩ := ht
  obtain ⟨-, -, rfl⟩ | ⟨b, bs, -, ⟨hi', -, rfl⟩ | ⟨-, acc, rfl⟩ | rfl⟩ := sourceStep_next hu
  · exact ⟨h.answered fun _ => errorAnswer_coherent (c := 2) (by decide), rfl⟩
  · have hp : (Transfer.source { sign := t.sign, scan :=
        { acc := t.scan.acc ||| ((dataBits b).setWidth 128 <<< t.scan.shift), shift := t.scan.shift + 7,
          i := t.scan.i + 1 } }).InProgress := by
      rw [hs]
      exact ⟨Nat.le_add_left 1 _, hi', rfl, acc_lt_of_chunk b ha⟩
    exact ⟨{ h.transferring hp with }, rfl⟩
  · have hc : (valueAnswer (t.scan.i + 1) t.sign acc).Coherent := valueAnswer_coherent t.sign acc (by omega)
    exact ⟨{ h.answered fun _ => hc with }, rfl⟩
  · have hc : (errorAnswer 3).Coherent := errorAnswer_coherent (by decide)
    exact ⟨{ h.answered fun _ => hc with }, rfl⟩

theorem transferStep_safe {t : Transfer} {s u : State} (h : s.Inv) (ht : t.Open) (hu : transferStep t s = .next u) :
    s.SafeAfter u := by
  cases t with
  | sink t => exact sinkStep_safe h ht hu
  | source t => exact sourceStep_safe h ht hu

/-! ### A step with reset not raised -/

theorem exec_safe {i : Instr} {s u : State} (h : s.Inv) (hu : exec i s = .next u) : s.SafeAfter u := by
  obtain ⟨-, -, a, -, ha, rfl⟩ | ⟨-, hf, hn, rfl⟩ | ⟨-, hs⟩ | ⟨-, hs⟩ := exec_next hu
  · exact ⟨h.answered fun _ => ha, rfl⟩
  · have hc := encodedAnswer_coherent (encodingOf_length i.sign s.req.val).2
    exact ⟨(h.stored (by omega)).answered fun _ => hc, rfl⟩
  · exact sinkStep_safe h (sinkStart_open i.sign s.req.val) hs
  · exact sourceStep_safe h (sourceStart_open i.sign) hs

/-- Taking the oldest request leaves the others on the port. -/
theorem takeRequest_safe {s : State} {r : Request} {rest : List Request} (h : s.Inv) (hp : s.port = r :: rest) :
    s.SafeAfter (takeRequest r rest s) :=
  ⟨{ h with port_carries := fun q hq => h.port_carries q (hp ▸ List.mem_cons_of_mem r hq) }, rfl⟩

theorem runRequest_safe {s u : State} (h : s.Inv) (hu : runRequest s = .next u) : s.SafeAfter u := by
  unfold runRequest at hu
  split at hu
  · exact exec_safe h hu
  · cases hu
    exact ⟨h.answered fun _ => errorAnswer_coherent (c := 5) (by decide), rfl⟩

theorem blockStep_safe {s u : State} (h : s.Inv) (hu : blockStep s = .next u) : s.SafeAfter u := by
  obtain ⟨t, hb, he⟩ | ⟨r, rest, -, hp, he⟩ | ⟨-, -, he⟩ := blockStep_cases s <;> rw [he] at hu
  · exact transferStep_safe h (h.transfer_in_progress t hb).isOpen hu
  · have ht := takeRequest_safe h hp
    exact ht.trans (runRequest_safe ht.inv hu)
  · cases hu
    exact .refl h

/-! ### A step with reset raised -/

theorem abortTransfer_safe {s : State} (t : Transfer) (h : s.Inv) : s.SafeAfter (abortTransfer t s) := by
  cases t with
  | sink t => exact ⟨{ h with }, rfl⟩
  | source t => exact ⟨{ h with }, rfl⟩

@[simp] theorem freeBytes_length (d n : Nat) : (freeBytes d n).length = n := by
  simp [freeBytes]

theorem dstFits_iff (s : State) : dstFits s = true ↔ s.req.dbase + s.req.dcap ≤ 2 ^ s.cfg.addrW := by
  simp [dstFits, windowFits]

theorem abortEncode_safe {bytes : List Byte} {s u : State} (h : s.Inv) (hu : abortEncode bytes s = .next u) :
    s.SafeAfter u := by
  unfold abortEncode at hu
  split at hu
  · rename_i hf
    have hf : s.req.dbase + s.req.dcap ≤ 2 ^ s.cfg.addrW := (dstFits_iff s).1 hf
    split at hu
    · cases hu
      exact .refl h
    · cases hu
      exact ⟨h.stored (by simp only [freeBytes_length, effAddr]; omega), rfl⟩
  · cases hu

theorem abortDecode_safe {s u : State} (h : s.Inv) (hu : abortDecode s = .next u) : s.SafeAfter u := by
  unfold abortDecode at hu
  split at hu
  · cases hu
    exact .refl h
  · cases hu

theorem abortCommand_safe {i : Instr} {s u : State} (h : s.Inv) (hu : abortCommand i s = .next u) : s.SafeAfter u := by
  cases i
  case uencTry | uenc | sencTry | senc => exact abortEncode_safe h hu
  case uencSink | sencSink | udecSrc | sdecSrc => cases hu; exact abortTransfer_safe _ h
  case udecTry | udec | sdecTry | sdec => exact abortDecode_safe h hu
  all_goals cases hu; exact .refl h

/-- A reset leaves RESP not valid, so its drawn fields need not be an answer (R31). -/
theorem resetBlock_safe {s : State} (h : s.Inv) : s.SafeAfter (resetBlock s) :=
  ⟨{ h with resp_coherent := nofun, transfer_in_progress := nofun }, rfl⟩

theorem resetDuring_safe {r : Request} {rest : List Request} {s u : State} (h : s.Inv) (hp : s.port = r :: rest)
    (hu : resetDuring r rest s = .next u) : s.SafeAfter u := by
  have ht := takeRequest_safe h hp
  unfold resetDuring at hu
  split at hu
  · cases hu
    exact ht.trans (resetBlock_safe ht.inv)
  · split at hu
    · rename_i ha
      cases hu
      have hs := abortCommand_safe ht.inv ha
      exact ht.trans (hs.trans (resetBlock_safe hs.inv))
    · cases hu
    · cases hu

theorem resetStep_safe {s u : State} (h : s.Inv) (hu : resetStep s = .next u) : s.SafeAfter u := by
  unfold resetStep at hu
  split at hu
  · rename_i t _
    cases hu
    have ha := abortTransfer_safe t h
    exact ha.trans (resetBlock_safe ha.inv)
  · rename_i hp
    exact resetDuring_safe h hp hu
  · cases hu
    exact resetBlock_safe h

theorem stepAlone_safe {s u : State} (h : s.Inv) (hu : stepAlone s = .next u) : s.SafeAfter u := by
  by_cases hr : s.rst = .low
  · exact blockStep_safe h (stepAlone_low hr ▸ hu)
  · exact resetStep_safe h (stepAlone_raised hr ▸ hu)

/-! ### A step among other agents -/

/-- The bytes that a command sees differently, because another agent writes them, lie inside the address space. -/
theorem memSeen_within (s : State) : ∀ (ws : List Host.Cell) (d : Nat) {m : List Host.Cell},
    (∀ c ∈ ws, c.1 < 2 ^ s.cfg.addrW) → Memory.within s.cfg m = true → Memory.within s.cfg (memSeen s d ws m) = true
  | [], _, _, _, h => h
  | (a, _) :: ws, d, _, hw, h => by
    have hws : ∀ c ∈ ws, c.1 < 2 ^ s.cfg.addrW := fun c hc => hw c (List.mem_cons_of_mem _ hc)
    unfold memSeen
    split
    · exact memSeen_within s ws (d + 1) hws (memWrite_within _ (hw _ List.mem_cons_self) h)
    · exact memSeen_within s ws (d + 1) hws h

theorem seenState_safe {s : State} (h : s.Inv) : s.SafeAfter (seenState s) :=
  ⟨{ h with
      memory_canonical := memSeen_wf s s.foreign s.draws h.memory_canonical
      memory_in_space := memSeen_within s s.foreign s.draws h.foreign_in_space h.memory_in_space
      foreign_in_space := nofun }, rfl⟩

theorem afterOthers_safe {s t : State} (h : s.Inv) (ht : s.SafeAfter t) : s.SafeAfter (afterOthers s t) := by
  obtain ⟨hi, hc⟩ := ht
  have hm : Memory.wf (if startsDecode s then s.mem else t.mem) = true ∧
      Memory.within s.cfg (if startsDecode s then s.mem else t.mem) = true := by
    split
    · exact ⟨h.memory_canonical, h.memory_in_space⟩
    · exact ⟨hi.memory_canonical, hc ▸ hi.memory_in_space⟩
  exact ⟨{ hi with
      memory_canonical := memAfter_wf s s.foreign _ hm.1
      memory_in_space := hc.symm ▸ memAfter_within s s.foreign _ h.foreign_in_space hm.2 }, hc⟩

theorem mapNext_eq_next {f : State → State} {o : Host.Outcome State Fault Refusal} {u : State}
    (h : mapNext f o = .next u) : ∃ t, o = .next t ∧ u = f t := by
  cases o with
  | next t => cases h; exact ⟨t, rfl, rfl⟩
  | fault e => cases h
  | refused e => cases h

/-- A step keeps the invariant and the parameters: a reset, a race and one byte of a stream command too. -/
theorem step_safe {s u : State} (h : s.Inv) (hu : step s = .next u) : s.SafeAfter u := by
  rw [step_eq] at hu
  obtain ⟨t, ht, rfl⟩ := mapNext_eq_next hu
  have hs := seenState_safe h
  exact afterOthers_safe h (hs.trans (stepAlone_safe hs.inv ht))

/-! ### The host's actions -/

theorem hostAct_safe (a : HostAction) {s : State} (h : s.Inv) : s.SafeAfter (hostAct a s) := by
  cases a with
  | present r =>
    simp only [hostAct]
    split
    · rename_i hr
      exact ⟨{ h with
        port_carries := List.forall_mem_append.2 ⟨h.port_carries, List.forall_mem_singleton.2 hr⟩ }, rfl⟩
    · exact .refl h
  | poke x b =>
    simp only [hostAct]
    split
    · rename_i hx
      exact ⟨{ h with
        memory_canonical := memWrite_wf x b h.memory_canonical
        memory_in_space := memWrite_within b hx h.memory_in_space }, rfl⟩
    · exact .refl h
  | foreignWrite x b =>
    simp only [hostAct]
    split
    · rename_i hx
      exact ⟨{ h with
        foreign_in_space := List.forall_mem_append.2 ⟨h.foreign_in_space, List.forall_mem_singleton.2 hx⟩ }, rfl⟩
    · exact .refl h
  | feed bs => exact ⟨{ h with }, rfl⟩
  | endSource e => exact ⟨{ h with }, rfl⟩
  | sinkRoom room => exact ⟨{ h with }, rfl⟩
  | raiseReset line => exact ⟨{ h with }, rfl⟩

/-- Along a history: host actions may stand between any two steps. -/
theorem runEvents_safe : ∀ (es : List Event) {s t : State}, s.Inv → runEvents es s = .next t → s.SafeAfter t
  | [], s, t, h, ht => by
    cases ht
    exact .refl h
  | .host a :: es, s, t, h, ht => by
    have ha := hostAct_safe a h
    exact ha.trans (runEvents_safe es ha.inv ht)
  | .step :: es, s, t, h, ht => by
    unfold runEvents at ht
    split at ht
    · rename_i u hu
      have hs := step_safe h hu
      exact hs.trans (runEvents_safe es hs.inv ht)
    · cases ht
    · cases ht

/-- Settles O40: the block's own step keeps the invariant, and so do the other agents' writes before and after it. -/
theorem stepKeepsSafety : Obligations.StepKeepsSafety :=
  fun _ _ h ht => (step_safe h ht).inv

/-- Settles O41, by induction on the history. -/
theorem everyHistoryKeepsSafety : Obligations.EveryHistoryKeepsSafety :=
  fun es _ _ h ht =>
    have hs := runEvents_safe es h ht
    ⟨hs.inv, hs.cfg⟩

end Sys2Proof.Machine
end

section
/-! PROOF. What a command reads. `command_form` says once, for all 24 commands, what each is as a function of the fields it
reads; that RESP and the request fields R22 does not list for it are not read then follows form by form. -/

namespace Sys2Proof.Machine

/-! ### The five forms of a command -/

/-- A count, a CLS or a NARROW: an answer made from `val` alone. -/
def answerForm (answer : Word → Resp) (s : State) : Host.Outcome State Fault Refusal :=
  .next { s with busy := none, resp := answer s.req.val }

/-- A buffer encode: with room for the encoding it is stored; without, the answer is `small`. -/
def encodeForm (sg : Sign) (small : Resp) (s : State) : Host.Outcome State Fault Refusal :=
  let bytes := encodingOf sg s.req.val
  if s.req.dbase + s.req.dcap ≤ 2 ^ s.cfg.addrW then
    if s.req.dcap < bytes.length then .next { s with busy := none, resp := small }
    else .next { s with
      busy := none, mem := memWriteBytes s.mem s.req.dbase bytes, resp := encodedAnswer bytes.length }
  else .refused .windowDoesNotFit

/-- A buffer decode: an answer made from how the scan of the window ends. -/
def decodeForm (sg : Sign) (answer : ScanEnd → Resp) (s : State) : Host.Outcome State Fault Refusal :=
  if s.req.sbase + s.req.slen ≤ 2 ^ s.cfg.addrW then
    .next { s with busy := none, resp := answer (scanLoop sg s.cfg.pExcess (getBuf s) maxLen Scan.start) }
  else .refused .windowDoesNotFit

/-- The first step of a sink encode. -/
def sinkForm (sg : Sign) (s : State) : Host.Outcome State Fault Refusal :=
  sinkStep { left := encodingOf sg s.req.val, sent := 0 } s

/-- The first step of a source decode. -/
def sourceForm (sg : Sign) (s : State) : Host.Outcome State Fault Refusal :=
  sourceStep { sign := sg, scan := Scan.start } s

/-! ### The answers the forms are filled with -/

/-- The answer of a checked narrowing accessor (R184). -/
def narrowAnswer (sg : Sign) (fits : ResultRec → Bool) (x : Word) : Resp :=
  if fits (resultOf sg x) then valueAnswer 0 sg x else errorAnswer 4

/-- The answer of a buffer decode; `incomplete` and `overflow` are the codes it reports (R203). -/
def scanAnswer (sg : Sign) (incomplete overflow : BitVec 3) : ScanEnd → Resp
  | .ok acc n => valueAnswer n sg acc
  | .incomplete => errorAnswer incomplete
  | .overflow => errorAnswer overflow

theorem finishStrict_eq (sg : Sign) (e : ScanEnd) (s : State) :
    finishStrict sg e s = { s with busy := none, resp := scanAnswer sg 2 3 e } := by
  cases e with
  | ok acc n => exact respondValue_eq sg n acc s
  | incomplete => rfl
  | overflow => rfl

theorem finishSafe_eq (sg : Sign) (e : ScanEnd) (s : State) :
    finishSafe sg e s = { s with busy := none, resp := scanAnswer sg 0 0 e } := by
  cases e with
  | ok acc n => exact respondValue_eq sg n acc s
  | incomplete => rfl
  | overflow => rfl

/-! ### Every command has one of the forms -/

theorem next_respondCount (sg : Sign) (s : State) :
    .next (respondCount (encodingOf sg s.req.val).length s) =
      answerForm (fun x => encodedAnswer (encodingOf sg x).length) s := rfl

theorem next_answerClassified (sg : Sign) (s : State) : .next (answerClassified sg s) = answerForm (valueAnswer 0 sg) s :=
  congrArg Host.Outcome.next (respondValue_eq sg 0 s.req.val s)

theorem next_narrow (sg : Sign) (fits : ResultRec → Bool) (s : State) :
    .next (narrow sg fits s) = answerForm (narrowAnswer sg fits) s :=
  congrArg Host.Outcome.next (narrow_eq sg fits s)

theorem encodeToBuffer_eq_form {sg : Sign} {onSmall : State → State} {small : Resp} {s : State}
    (h : onSmall s = { s with busy := none, resp := small }) :
    encodeToBuffer (encodingOf sg s.req.val) onSmall s = encodeForm sg small s := by
  unfold encodeForm
  split
  · rename_i hf
    rw [encodeToBuffer_fits hf, h]
  · rename_i hf
    exact encodeToBuffer_misfit hf

theorem bufferDecode_eq_form {sg : Sign} {answer : ScanEnd → Resp} {finish : ScanEnd → State → State} {s : State}
    (h : ∀ e, finish e s = { s with busy := none, resp := answer e }) :
    (if srcFits s then .next (finish (scanLoop sg s.cfg.pExcess (getBuf s) maxLen Scan.start) s)
      else .refused .windowDoesNotFit) = decodeForm sg answer s := by
  simp only [srcFits_iff, h, decodeForm]

/-- The form of a command, with what R22 lists for commands of that form. -/
inductive CommandForm (i : Instr) : Prop
  | answer (readsVal : i.readsVal = true) (a : Word → Resp) (form : ∀ s, exec i s = answerForm a s)
  | encode (readsVal : i.readsVal = true) (readsDst : i.readsDst = true) (small : Resp)
      (form : ∀ s, exec i s = encodeForm i.sign small s)
  | decode (readsSrc : i.readsSrc = true) (a : ScanEnd → Resp) (form : ∀ s, exec i s = decodeForm i.sign a s)
  | sink (readsVal : i.readsVal = true) (form : ∀ s, exec i s = sinkForm i.sign s)
  | source (form : ∀ s, exec i s = sourceForm i.sign s)

theorem command_form (i : Instr) : CommandForm i := by
  cases i
  case uencCount => exact .answer rfl _ (next_respondCount .unsigned)
  case sencCount => exact .answer rfl _ (next_respondCount .signed)
  case uencTry => exact .encode rfl rfl _ fun s => encodeToBuffer_eq_form (sg := .unsigned) (safeFailure_eq s)
  case uenc => exact .encode rfl rfl _ fun s => encodeToBuffer_eq_form (sg := .unsigned) (raiseError_eq _ s)
  case sencTry => exact .encode rfl rfl _ fun s => encodeToBuffer_eq_form (sg := .signed) (safeFailure_eq s)
  case senc => exact .encode rfl rfl _ fun s => encodeToBuffer_eq_form (sg := .signed) (raiseError_eq _ s)
  case udecTry | sdecTry => exact .decode rfl _ fun s => bufferDecode_eq_form (finishSafe_eq _ · s)
  case udec | sdec => exact .decode rfl _ fun s => bufferDecode_eq_form (finishStrict_eq _ · s)
  case uencSink | sencSink => exact .sink rfl fun _ => rfl
  case udecSrc | sdecSrc => exact .source fun _ => rfl
  case clsU | narrowU128 => exact .answer rfl _ (next_answerClassified .unsigned)
  case clsS | narrowS128 => exact .answer rfl _ (next_answerClassified .signed)
  case narrowU8 => exact .answer rfl _ (next_narrow .unsigned ResultRec.fits8)
  case narrowU32 => exact .answer rfl _ (next_narrow .unsigned ResultRec.fits32)
  case narrowU64 => exact .answer rfl _ (next_narrow .unsigned ResultRec.fits64)
  case narrowS8 => exact .answer rfl _ (next_narrow .signed ResultRec.fits8)
  case narrowS32 => exact .answer rfl _ (next_narrow .signed ResultRec.fits32)
  case narrowS64 => exact .answer rfl _ (next_narrow .signed ResultRec.fits64)

/-! ### RESP -/

/-- A command that has not ended leaves the RESP `r` that was there before it. -/
def leaveResp (r : Resp) (t : State) : State := if t.busy = none then t else { t with resp := r }

theorem sinkStep_setResp (t : SinkTransfer) (s : State) (r : Resp) :
    sinkStep t { s with resp := r } = mapNext (leaveResp r) (sinkStep t s) := by
  unfold sinkStep
  split
  · rfl
  · simp only
    split
    · rfl
    · split <;> rfl

theorem sourceStep_setResp (t : SourceTransfer) (s : State) (r : Resp) :
    sourceStep t { s with resp := r } = mapNext (leaveResp r) (sourceStep t s) := by
  unfold sourceStep
  simp only
  split
  · rfl
  · rfl
  · split <;> rfl

theorem encodeForm_setResp (sg : Sign) (small : Resp) (s : State) (r : Resp) :
    encodeForm sg small { s with resp := r } = mapNext (leaveResp r) (encodeForm sg small s) := by
  simp only [encodeForm]
  split
  · split <;> rfl
  · rfl

theorem decodeForm_setResp (sg : Sign) (a : ScanEnd → Resp) (s : State) (r : Resp) :
    decodeForm sg a { s with resp := r } = mapNext (leaveResp r) (decodeForm sg a s) := by
  simp only [decodeForm]
  split <;> rfl

/-! ### The fields of the request -/

theorem sinkStep_setReq (t : SinkTransfer) (s : State) (q : Request) :
    sinkStep t { s with req := q } = mapNext (fun u => { u with req := q }) (sinkStep t s) := by
  unfold sinkStep
  split
  · rfl
  · simp only
    split
    · rfl
    · split <;> rfl

theorem sourceStep_setReq (t : SourceTransfer) (s : State) (q : Request) :
    sourceStep t { s with req := q } = mapNext (fun u => { u with req := q }) (sourceStep t s) := by
  unfold sourceStep
  simp only
  split
  · rfl
  · rfl
  · split <;> rfl

theorem answerForm_setReq {s : State} {q : Request} (a : Word → Resp) (hv : q.val = s.req.val) :
    answerForm a { s with req := q } = mapNext (fun u => { u with req := q }) (answerForm a s) := by
  simp only [answerForm, mapNext, hv]

theorem encodeForm_setReq {s : State} {q : Request} (sg : Sign) (small : Resp) (hv : q.val = s.req.val)
    (hb : q.dbase = s.req.dbase) (hc : q.dcap = s.req.dcap) :
    encodeForm sg small { s with req := q } = mapNext (fun u => { u with req := q }) (encodeForm sg small s) := by
  simp only [encodeForm, hv, hb, hc]
  split
  · split <;> rfl
  · rfl

/-- The getter of a buffer decode looks at the source window only. -/
theorem getBuf_setReq {s : State} {q : Request} (hb : q.sbase = s.req.sbase) (hl : q.slen = s.req.slen) :
    getBuf { s with req := q } = getBuf s := by
  funext k
  simp only [getBuf, hb, hl]

theorem decodeForm_setReq {s : State} {q : Request} (sg : Sign) (a : ScanEnd → Resp) (hb : q.sbase = s.req.sbase)
    (hl : q.slen = s.req.slen) :
    decodeForm sg a { s with req := q } = mapNext (fun u => { u with req := q }) (decodeForm sg a s) := by
  simp only [decodeForm, getBuf_setReq hb hl, hb, hl]
  split <;> rfl

theorem sinkForm_setReq {s : State} {q : Request} (sg : Sign) (hv : q.val = s.req.val) :
    sinkForm sg { s with req := q } = mapNext (fun u => { u with req := q }) (sinkForm sg s) := by
  simp only [sinkForm, hv, sinkStep_setReq]

/-- Settles O30, form by form: a buffer command ends and writes RESP whole, a stream command's first step looks at its own
collaborator only. -/
theorem respIsNeverRead : Obligations.RespIsNeverRead := by
  intro i s r
  cases command_form i with
  | answer _ a form => rw [form, form]; rfl
  | encode _ _ small form => rw [form, form]; exact encodeForm_setResp i.sign small s r
  | decode _ a form => rw [form, form]; exact decodeForm_setResp i.sign a s r
  | sink _ form => rw [form, form]; exact sinkStep_setResp _ s r
  | source form => rw [form, form]; exact sourceStep_setResp _ s r

/-- Settles O31, form by form: each form names the request fields it reads. -/
theorem ignoredFieldsHaveNoEffect : Obligations.IgnoredFieldsHaveNoEffect := by
  intro i s q hval hdst hsrc
  cases command_form i with
  | answer readsVal a form => rw [form, form]; exact answerForm_setReq a (hval readsVal)
  | encode readsVal readsDst small form =>
    obtain ⟨hb, hc⟩ := hdst readsDst
    rw [form, form]; exact encodeForm_setReq i.sign small (hval readsVal) hb hc
  | decode readsSrc a form =>
    obtain ⟨hb, hl⟩ := hsrc readsSrc
    rw [form, form]; exact decodeForm_setReq i.sign a hb hl
  | sink readsVal form => rw [form, form]; exact sinkForm_setReq i.sign (hval readsVal)
  | source form => rw [form, form]; exact sourceStep_setReq _ s q

end Sys2Proof.Machine
end

section
/-! PROOF. The bits of the packed RESP (R23), and DEFAULT_RES (R25). -/

namespace Sys2Proof.Machine

/-- Bit `i` of ten fields put side by side as R23 puts them, the lowest named first. -/
theorem getLsbD_fields (valid ok : BitVec 1) (err : BitVec 3) (n : BitVec 5) (f8 f32 f64 : BitVec 1) (sclass : BitVec 2)
    (reserved : BitVec 1) (rval : BitVec 128) (i : Nat) :
    (rval ++ reserved ++ sclass ++ f64 ++ f32 ++ f8 ++ n ++ err ++ ok ++ valid).getLsbD i =
      if i < 1 then valid.getLsbD i else if i < 2 then ok.getLsbD (i - 1) else if i < 5 then err.getLsbD (i - 2)
      else if i < 10 then n.getLsbD (i - 5) else if i < 11 then f8.getLsbD (i - 10)
      else if i < 12 then f32.getLsbD (i - 11) else if i < 13 then f64.getLsbD (i - 12)
      else if i < 15 then sclass.getLsbD (i - 13) else if i < 16 then reserved.getLsbD (i - 15)
      else rval.getLsbD (i - 16) := by
  -- An append tests `i - 2 < 3` where the layout says `i < 5`, and so for every field.
  simp only [BitVec.getLsbD_append]
  simp only [Nat.sub_sub, Nat.reduceAdd]
  grind (splits := 20)

/-- Bit `i` of the packed RESP (R23). -/
theorem packed_getLsbD (r : Resp) (i : Nat) :
    r.packed.getLsbD i =
      if i < 1 then r.valid else if i < 2 then r.ok else if i < 5 then r.err.getLsbD (i - 2)
      else if i < 10 then r.n.getLsbD (i - 5) else if i < 11 then r.res.fits8 else if i < 12 then r.res.fits32
      else if i < 13 then r.res.fits64 else if i < 15 then r.res.sclass.code.getLsbD (i - 13)
      else if i < 16 then false else r.res.rval.getLsbD (i - 16) := by
  refine (getLsbD_fields ..).trans ?_
  grind

/-- A field is read off bit by bit. -/
theorem extractLsb'_eq_of_bits {v w k : Nat} {p : BitVec v} {x : BitVec w}
    (h : ∀ j < w, p.getLsbD (k + j) = x.getLsbD j) : p.extractLsb' k w = x := by
  apply BitVec.eq_of_getLsbD_eq
  intro j hj
  rw [BitVec.getLsbD_extractLsb', h j hj, decide_eq_true hj, Bool.true_and]

/-- Settles O45: the one-bit fields are `packed_getLsbD` at their bit, the wider ones at each of their bits. -/
theorem respLayout : Obligations.RespLayout := by
  intro r
  refine ⟨packed_getLsbD r 0, packed_getLsbD r 1, ?err, ?n, packed_getLsbD r 10, packed_getLsbD r 11,
    packed_getLsbD r 12, ?sclass, packed_getLsbD r 15, ?rval⟩
  all_goals
    refine extractLsb'_eq_of_bits fun j hj => ?_
    rw [packed_getLsbD]
    grind

/-- 0 lies in every range, in either signedness (R180). -/
theorem classify_zero (sg : Sign) : classify sg 0 = defaultRes := by
  rw [classify_eq_resultOf]
  cases sg
  · simp [resultOf, inRange, defaultRes]
  · simp [resultOf, inRange, defaultRes]

/-- Settles O28: DEFAULT_RES is the record of 0 in both signednesses, and its fields are read off. -/
theorem defaultResultClassifiesZero : Obligations.DefaultResultClassifiesZero :=
  ⟨(classify_zero .unsigned).symm, (classify_zero .signed).symm, rfl, rfl, rfl, rfl, rfl⟩

end Sys2Proof.Machine
end

section
/-! PROOF. Which command reaches which space, and which window is refused (R40, R41, R46); a step that begins a command (R54). -/

namespace Sys2Proof.Machine

/-! ### What stream steps keep -/

/-- A step of a sink encode reaches the sink, the working registers and RESP, and nothing else. -/
theorem sinkStep_frame {t : SinkTransfer} {s u : State} (h : sinkStep t s = .next u) :
    u = { s with sink := u.sink, busy := u.busy, resp := u.resp } := by
  obtain ⟨-, rfl⟩ | ⟨b, rest, -, -, ⟨-, rfl⟩ | ⟨-, rfl⟩⟩ := sinkStep_next h <;> rfl

/-- A step of a source decode reaches the source, the working registers and RESP, and nothing else. -/
theorem sourceStep_frame {t : SourceTransfer} {s u : State} (h : sourceStep t s = .next u) :
    u = { s with source := u.source, busy := u.busy, resp := u.resp } := by
  obtain ⟨-, -, rfl⟩ | ⟨b, bs, -, ⟨-, -, rfl⟩ | ⟨-, acc, rfl⟩ | rfl⟩ := sourceStep_next h <;> rfl

/-- Settles O32, along the four shapes of a command. -/
theorem commandsKeepTheOtherSpaces : Obligations.CommandsKeepTheOtherSpaces := by
  intro i s t h
  obtain ⟨-, -, a, -, -, rfl⟩ | ⟨hd, -, -, rfl⟩ | ⟨hk, hs⟩ | ⟨hc, hs⟩ := exec_next h
  · exact ⟨fun _ => rfl, fun _ => rfl, fun _ => rfl, rfl, rfl, rfl, rfl, rfl, rfl⟩
  · exact ⟨fun hn => absurd (hd.symm.trans hn) nofun, fun _ => rfl, fun _ => rfl, rfl, rfl, rfl, rfl, rfl, rfl⟩
  · rw [sinkStep_frame hs]
    exact ⟨fun _ => rfl, fun hn => absurd (hk.symm.trans hn) nofun, fun _ => rfl, rfl, rfl, rfl, rfl, rfl, rfl⟩
  · rw [sourceStep_frame hs]
    exact ⟨fun _ => rfl, fun _ => rfl, fun hn => absurd (hc.symm.trans hn) nofun, rfl, rfl, rfl, rfl, rfl, rfl⟩

/-! ### The window of a buffer command -/

/-- The commands that read `dbase` and `dcap` are the buffer encodes (R22). -/
theorem exec_of_readsDst {i : Instr} (h : i.readsDst = true) :
    ∃ small, ∀ s, exec i s = encodeForm i.sign small s := by
  cases i
  case uencTry => exact ⟨_, fun s => encodeToBuffer_eq_form (sg := .unsigned) (safeFailure_eq s)⟩
  case uenc => exact ⟨_, fun s => encodeToBuffer_eq_form (sg := .unsigned) (raiseError_eq _ s)⟩
  case sencTry => exact ⟨_, fun s => encodeToBuffer_eq_form (sg := .signed) (safeFailure_eq s)⟩
  case senc => exact ⟨_, fun s => encodeToBuffer_eq_form (sg := .signed) (raiseError_eq _ s)⟩
  all_goals cases h

/-- The commands that read `sbase` and `slen` are the buffer decodes (R22). -/
theorem exec_of_readsSrc {i : Instr} (h : i.readsSrc = true) : ∃ a, ∀ s, exec i s = decodeForm i.sign a s := by
  cases i
  case udecTry | sdecTry => exact ⟨_, fun s => bufferDecode_eq_form (finishSafe_eq _ · s)⟩
  case udec | sdec => exact ⟨_, fun s => bufferDecode_eq_form (finishStrict_eq _ · s)⟩
  all_goals cases h

/-- No command has two windows (R22). -/
theorem readsSrc_of_readsDst {i : Instr} (h : i.readsDst = true) : i.readsSrc = false := by
  revert h; cases i <;> decide

theorem readsDst_of_readsSrc {i : Instr} (h : i.readsSrc = true) : i.readsDst = false := by
  revert h; cases i <;> decide

theorem encodeForm_refused_iff (sg : Sign) (small : Resp) (s : State) (e : Refusal) :
    encodeForm sg small s = .refused e ↔ e = .windowDoesNotFit ∧ 2 ^ s.cfg.addrW < s.req.dbase + s.req.dcap := by
  unfold encodeForm
  by_cases h : s.req.dbase + s.req.dcap ≤ 2 ^ s.cfg.addrW
  · rw [if_pos h]
    split <;> simp [h]
  · simp [h, Nat.lt_of_not_le h, eq_comm]

theorem decodeForm_refused_iff (sg : Sign) (a : ScanEnd → Resp) (s : State) (e : Refusal) :
    decodeForm sg a s = .refused e ↔ e = .windowDoesNotFit ∧ 2 ^ s.cfg.addrW < s.req.sbase + s.req.slen := by
  unfold decodeForm
  by_cases h : s.req.sbase + s.req.slen ≤ 2 ^ s.cfg.addrW
  · simp [h]
  · simp [h, Nat.lt_of_not_le h, eq_comm]

/-- A command without a window is never refused (R206). -/
theorem exec_ne_refused {i : Instr} {s : State} {e : Refusal} (hd : i.readsDst ≠ true) (hs : i.readsSrc ≠ true) :
    exec i s ≠ .refused e := by
  cases command_form i with
  | answer _ a form => rw [form]; exact nofun
  | encode _ readsDst => exact absurd readsDst hd
  | decode readsSrc => exact absurd readsSrc hs
  | sink _ form => rw [form]; exact sinkStep_ne_refused _ s e
  | source form => rw [form]; exact sourceStep_ne_refused _ s e

/-- Settles O33: a command has a destination window, a source window or none. -/
theorem misfitWindowIsRefused : Obligations.MisfitWindowIsRefused := by
  intro i s e
  by_cases hd : i.readsDst = true
  · obtain ⟨small, form⟩ := exec_of_readsDst hd
    rw [form, encodeForm_refused_iff]
    simp [hd, readsSrc_of_readsDst hd]
  · by_cases hs : i.readsSrc = true
    · obtain ⟨a, form⟩ := exec_of_readsSrc hs
      rw [form, decodeForm_refused_iff]
      simp [hd, hs]
    · exact iff_of_false (exec_ne_refused hd hs) (by simp [hd, hs])

/-! ### The step that begins a command -/

/-- The idle block runs the command that the oldest request's opcode decodes to (R54). -/
theorem blockStep_command {s : State} {r : Request} {rest : List Request} {i : Instr} (hb : s.busy = none)
    (hp : s.port = r :: rest) (hd : decode r.op = .ok i) : blockStep s = exec i (takeRequest r rest s) := by
  rw [blockStep_request hb hp, runRequest, takeRequest_req, hd]

/-- Settles O4. -/
theorem stepRunsPresentedCommand : Obligations.StepRunsPresentedCommand :=
  fun _ _ _ _ hf hr hb hp hd => (step_low hf hr).trans (blockStep_command hb hp hd)

end Sys2Proof.Machine
end

section
/-! PROOF. Races (R55, R236(b)): which bytes are which to the command that a step begins, and what a step is beside other
agents' writes to DST, to SRC and to bytes outside both. -/

namespace Sys2Proof.Machine

/-! ### The bytes of the command that the step begins -/

theorem startedCommand_eq_some {s : State} {i : Instr} {r : Request} (hr : s.rst = .low) :
    startedCommand s = some (i, r) ↔ s.busy = none ∧ (∃ rest, s.port = r :: rest) ∧ decode r.op = .ok i := by
  unfold startedCommand
  rw [hr]
  cases s.busy with
  | some t => simp
  | none =>
    cases s.port with
    | nil => simp
    | cons q rest =>
      cases hd : decode q.op with
      | error e =>
        cases e
        simp only [hd, true_and, List.cons.injEq]
        constructor
        · exact nofun
        · rintro ⟨⟨-, rfl, -⟩, h⟩
          rw [hd] at h; cases h
      | ok j =>
        simp only [hd, true_and, List.cons.injEq, Option.some.injEq, Prod.mk.injEq]
        constructor
        · rintro ⟨rfl, rfl⟩; exact ⟨⟨rest, rfl, rfl⟩, hd⟩
        · rintro ⟨⟨-, rfl, -⟩, h⟩
          rw [hd] at h; cases h; exact ⟨rfl, rfl⟩

section
variable {s : State} {i : Instr} {r : Request} (h : startedCommand s = some (i, r))
include h

theorem startsDecode_eq : startsDecode s = i.readsSrc := by
  simp only [startsDecode, h]

theorem mayRead_iff (a : Nat) : mayRead s a = true ↔ i.readsSrc = true ∧ r.sbase ≤ a ∧ a < r.sbase + r.slen := by
  simp [mayRead, h]

theorem inDst_iff (a : Nat) : inDst s a = true ↔ i.readsDst = true ∧ r.dbase ≤ a ∧ a < r.dbase + r.dcap := by
  simp [inDst, h]

theorem writesByte_iff (a : Nat) : writesByte s a = true ↔ i.readsDst = true ∧
    (encodingOf i.sign r.val).length ≤ r.dcap ∧ r.dbase ≤ a ∧ a < r.dbase + (encodingOf i.sign r.val).length := by
  simp [writesByte, h, and_assoc]

end

/-- A byte that the command writes lies in its window (R46). -/
theorem inDst_of_writesByte {s : State} {a : Nat} (hw : writesByte s a = true) : inDst s a = true := by
  cases h : startedCommand s with
  | none => simp [writesByte, h] at hw
  | some p =>
    obtain ⟨hd, hn, hlo, hhi⟩ := (writesByte_iff h a).1 hw
    exact (inDst_iff h a).2 ⟨hd, hlo, by omega⟩

theorem anyValueAfter_iff (s : State) (a : Nat) :
    anyValueAfter s a = true ↔ (mayRead s a = true ∨ inDst s a = true) ∧ writesByte s a ≠ true := by
  simp [anyValueAfter]

/-- A command that may read none of the bytes that other agents write sees memory as it is. -/
theorem memSeen_eq_self (s : State) : ∀ (ws : List Host.Cell) (d : Nat) (m : List Host.Cell),
    (∀ c ∈ ws, mayRead s c.1 = false) → memSeen s d ws m = m
  | [], _, _, _ => rfl
  | (a, _) :: ws, d, m, h => by
    have ha : mayRead s a = false := h _ List.mem_cons_self
    rw [memSeen, ha]
    exact memSeen_eq_self s ws (d + 1) m fun c hc => h c (List.mem_cons_of_mem _ hc)

/-- Every byte after the other agents' writes: it may hold any value, or it holds another agent's value, or what it held before
them (R55(a), R236(b)). -/
theorem memRead_memAfter_cases (s : State) (x d : Nat) {m : List Host.Cell} (h : Memory.wf m = true) :
    ((∃ v, (x, v) ∈ s.foreign) ∧ anyValueAfter s x = true) ∨
      (∃ v, (x, v) ∈ s.foreign ∧ memRead (memAfter s d s.foreign m) x = v) ∨
      (((∀ v, (x, v) ∉ s.foreign) ∨ writesByte s x = true) ∧
        memRead (memAfter s d s.foreign m) x = memRead m x) := by
  by_cases hv : ∃ v, (x, v) ∈ s.foreign
  · cases ha : anyValueAfter s x with
    | true => exact .inl ⟨hv, rfl⟩
    | false => exact .inr (memRead_memAfter s x s.foreign d h (.inr ha))
  · exact .inr (memRead_memAfter s x s.foreign d h (.inl (not_exists.1 hv)))

/-- A step that begins a command, beside other agents: the command runs on the memory it sees, then their writes come. -/
theorem step_command {s : State} {r : Request} {rest : List Request} {i : Instr} (hr : s.rst = .low)
    (hb : s.busy = none) (hp : s.port = r :: rest) (hd : decode r.op = .ok i) :
    step s = mapNext (afterOthers s) (exec i (takeRequest r rest (seenState s))) := by
  rw [step_eq, stepAlone_low (s := seenState s) hr, blockStep_command (s := seenState s) hb hp hd]

/-! ### Races on DST -/

theorem encodingOf_eq_encBytes {sg : Sign} {x : Word} {n : Nat} (h : EncLen sg x n) :
    encodingOf sg x = encBytes sg x n n := by
  obtain ⟨k, -, -, hk, he⟩ := encodingOf_spec sg x
  rwa [encLen_unique hk h] at he

/-- Memory after an encoding of `n` bytes is stored at `base`, byte by byte (R46, R49). -/
theorem memRead_memWriteBytes_encBytes {m : List Host.Cell} (h : Memory.wf m = true) (base : Nat) (sg : Sign) (x : Word)
    (n a : Nat) : memRead (memWriteBytes m base (encBytes sg x n n)) a =
      if base ≤ a ∧ a < base + n then encByte sg x n (a - base) else memRead m a := by
  split
  · rename_i ha
    obtain ⟨k, rfl⟩ := Nat.exists_eq_add_of_le ha.1
    rw [memRead_memWriteBytes_inside _ h (by rw [encBytes_length]; omega), encBytes_getElem, Nat.add_sub_cancel_left]
  · exact memRead_memWriteBytes_outside _ h (by rw [encBytes_length]; omega)

/-- A buffer encode of `n` bytes into a window with room for them. -/
theorem encodeForm_stores {sg : Sign} {small : Resp} {s : State} {n : Nat} (hl : EncLen sg s.req.val n)
    (hn : n ≤ s.req.dcap) (hf : s.req.dbase + s.req.dcap ≤ 2 ^ s.cfg.addrW) :
    encodeForm sg small s = .next { s with
      busy := none, mem := memWriteBytes s.mem s.req.dbase (encBytes sg s.req.val n n), resp := encodedAnswer n } := by
  simp only [encodeForm, if_pos hf, encodingOf_eq_encBytes hl, encBytes_length, Nat.not_lt.2 hn, if_false]

/-- Settles O36: the memory after the step is the encoding stored in the memory before it, then the other agents' writes. -/
theorem racedBytesHoldEitherWriter : Obligations.RacedBytesHoldEitherWriter := by
  intro s r rest i n hr hb hp hd hi hwf hl hn hf
  have hc : startedCommand s = some (i, r) := (startedCommand_eq_some hr).2 ⟨hb, ⟨rest, hp⟩, hd⟩
  have hsrc : i.readsSrc = false := readsSrc_of_readsDst hi
  have hlen : (encodingOf i.sign r.val).length = n := by rw [encodingOf_eq_encBytes hl, encBytes_length]
  have hread (a : Nat) : mayRead s a = false := by simp [mayRead, hc, hsrc]
  have hwrites (a : Nat) : writesByte s a = true ↔ r.dbase ≤ a ∧ a < r.dbase + n := by
    simp [writesByte_iff hc, hi, hlen, hn]
  have hany (a : Nat) : anyValueAfter s a = true → r.dbase + n ≤ a ∧ a < r.dbase + r.dcap := by
    rw [anyValueAfter_iff, inDst_iff hc, Ne, hwrites, hread]
    rintro ⟨h | ⟨-, hlo, hhi⟩, hw⟩
    · cases h
    · omega
  have hseen : memSeen s s.draws s.foreign s.mem = s.mem := memSeen_eq_self s _ _ _ fun c _ => hread c.1
  obtain ⟨small, form⟩ := exec_of_readsDst hi
  refine ⟨memAfter s (s.draws + s.foreign.length) s.foreign
    (memWriteBytes s.mem r.dbase (encBytes i.sign r.val n n)), s.draws + 2 * s.foreign.length, ?_, fun a => ?_⟩
  · rw [step_command hr hb hp hd, form, encodeForm_stores (s := takeRequest r rest (seenState s)) hl hn hf]
    simp [mapNext, afterOthers, startsDecode_eq hc, hsrc, seenState, takeRequest, hseen]
  · have hafter := memRead_memAfter_cases s a (s.draws + s.foreign.length)
      (memWriteBytes_wf (encBytes i.sign r.val n n) r.dbase hwf)
    rw [memRead_memWriteBytes_encBytes hwf, hwrites] at hafter
    exact hafter.imp_left (And.imp_right (hany a))

/-! ### Races on SRC -/

theorem decodeForm_fits {sg : Sign} {answer : ScanEnd → Resp} {s : State}
    (h : s.req.sbase + s.req.slen ≤ 2 ^ s.cfg.addrW) : decodeForm sg answer s = .next { s with
      busy := none, resp := answer (scanLoop sg s.cfg.pExcess (getBuf s) maxLen Scan.start) } :=
  if_pos h

/-- Settles O37: the memory the decode runs on is the one with a drawn value in each raced byte of SRC. -/
theorem racedDecodeReadsSomeBytes : Obligations.RacedDecodeReadsSomeBytes := by
  intro s r rest i hr hb hp hd hi hwf hf
  have hc : startedCommand s = some (i, r) := (startedCommand_eq_some hr).2 ⟨hb, ⟨rest, hp⟩, hd⟩
  have hdst : i.readsDst = false := readsDst_of_readsSrc hi
  have hread (a : Nat) : mayRead s a = true ↔ r.sbase ≤ a ∧ a < r.sbase + r.slen := by simp [mayRead_iff hc, hi]
  have hwrites (a : Nat) : writesByte s a = false := by simp [writesByte, hc, hdst]
  have hany (a : Nat) : anyValueAfter s a = mayRead s a := by simp [anyValueAfter, hwrites, inDst, hc, hdst]
  obtain ⟨answer, form⟩ := exec_of_readsSrc hi
  have hexec :=
    (form { s with req := r, port := rest, mem := memSeen s s.draws s.foreign s.mem }).trans (decodeForm_fits hf)
  refine ⟨_, _, fun a ha => ?_, hexec, memAfter s (s.draws + s.foreign.length) s.foreign s.mem,
    s.draws + 2 * s.foreign.length, ?_, fun a => ?_⟩
  · refine memRead_memSeen s a s.foreign s.draws hwf (ha.imp_right fun ho => ?_)
    rw [← Bool.not_eq_true, hread]
    omega
  · have hframe := exec_reframe (takeRequest r rest (seenState s)) i
      { s with req := r, port := rest, mem := memSeen s s.draws s.foreign s.mem }
    rw [hexec] at hframe
    rw [step_command hr hb hp hd, show exec i (takeRequest r rest (seenState s)) = _ from hframe]
    simp [mapNext, afterOthers, startsDecode_eq hc, hi, reframe, seenState, takeRequest]
  · have hafter := memRead_memAfter_cases s a (s.draws + s.foreign.length) hwf
    rw [hany, hread, hwrites] at hafter
    simpa using hafter

/-! ### Writes outside the windows -/

theorem mapNext_mapNext (f g : State → State) (o : Host.Outcome State Fault Refusal) :
    mapNext g (mapNext f o) = mapNext (fun s => g (f s)) o := by
  cases o <;> rfl

theorem mapNext_congr {f g : State → State} {o : Host.Outcome State Fault Refusal}
    (h : ∀ t, o = .next t → f t = g t) : mapNext f o = mapNext g o := by
  cases o with
  | next t => exact congrArg Host.Outcome.next (h t rfl)
  | fault e => rfl
  | refused e => rfl

/-- What does not look at the frame of `reframe` does not look at the draws, and keeps them. -/
theorem setDraws_of_reframe {F : State → Host.Outcome State Fault Refusal}
    (hF : ∀ f s, F (reframe f s) = mapNext (reframe f) (F s)) (s : State) (d : Nat) :
    F { s with draws := d } = mapNext (fun u => { u with draws := d }) (F s) := by
  calc F { s with draws := d }
    _ = mapNext (reframe { s with draws := d }) (F s) := hF { s with draws := d } s
    _ = mapNext (fun u => { u with draws := d }) (mapNext (reframe s) (F s)) := by rw [mapNext_mapNext]; rfl
    _ = mapNext (fun u => { u with draws := d }) (F s) := by rw [← hF]; rfl

theorem transferStep_reframe (t : Transfer) (f s : State) :
    transferStep t (reframe f s) = mapNext (reframe f) (transferStep t s) := by
  cases t with
  | sink t => exact sinkStep_reframe f t s
  | source t => exact sourceStep_reframe f t s

theorem runRequest_reframe (f s : State) : runRequest (reframe f s) = mapNext (reframe f) (runRequest s) := by
  unfold runRequest
  rw [show (reframe f s).req = s.req from rfl]
  split
  · exact exec_reframe f _ s
  · rfl

/-- A step with reset not raised draws no free value. -/
theorem blockStep_setDraws (s : State) (d : Nat) :
    blockStep { s with draws := d } = mapNext (fun u => { u with draws := d }) (blockStep s) := by
  obtain ⟨t, hb, he⟩ | ⟨r, rest, hb, hp, he⟩ | ⟨hb, hp, he⟩ := blockStep_cases s
  · rw [he, blockStep_busy (s := { s with draws := d }) hb]
    exact setDraws_of_reframe (transferStep_reframe t) s d
  · rw [he, blockStep_request (s := { s with draws := d }) hb hp]
    exact setDraws_of_reframe runRequest_reframe (takeRequest r rest s) d
  · rw [he, blockStep_idle (s := { s with draws := d }) hb hp]
    rfl

theorem blockStep_draws {s u : State} (h : blockStep s = .next u) : u.draws = s.draws := by
  obtain ⟨t, -, rfl⟩ := mapNext_eq_next ((blockStep_setDraws s s.draws).symm.trans h)
  rfl

/-- With reset not raised, a byte outside the window of the command that the step begins is none of its bytes. -/
theorem outside_windows {s : State} {a : Nat} (hr : s.rst = .low)
    (h : ∀ r rest i, s.busy = none → s.port = r :: rest → decode r.op = .ok i →
      (i.readsSrc = true → a < r.sbase ∨ r.sbase + r.slen ≤ a) ∧
      (i.readsDst = true → a < r.dbase ∨ r.dbase + r.dcap ≤ a)) :
    mayRead s a = false ∧ inDst s a = false ∧ writesByte s a = false := by
  have hw (hd : inDst s a = false) : writesByte s a = false :=
    Bool.eq_false_iff.2 fun hw => Bool.eq_false_iff.1 hd (inDst_of_writesByte hw)
  cases hc : startedCommand s with
  | none =>
    have hd : inDst s a = false := by simp [inDst, hc]
    exact ⟨by simp [mayRead, hc], hd, hw hd⟩
  | some p =>
    obtain ⟨i, r⟩ := p
    obtain ⟨hb, ⟨rest, hp⟩, hop⟩ := (startedCommand_eq_some hr).1 hc
    obtain ⟨hsrc, hdst⟩ := h r rest i hb hp hop
    have hd : inDst s a = false := by
      rw [Bool.eq_false_iff, Ne, inDst_iff hc]
      rintro ⟨hi, hlo, hhi⟩
      have := hdst hi
      omega
    refine ⟨?_, hd, hw hd⟩
    rw [Bool.eq_false_iff, Ne, mayRead_iff hc]
    rintro ⟨hi, hlo, hhi⟩
    have := hsrc hi
    omega

/-- Settles O38: the block sees memory as it is, and its step is the same whatever has been drawn before. -/
theorem writesOutsideWindowsNeverRace : Obligations.WritesOutsideWindowsNeverRace := by
  intro s hr h
  have hout : ∀ c ∈ s.foreign, mayRead s c.1 = false ∧ inDst s c.1 = false ∧ writesByte s c.1 = false :=
    fun c hc => outside_windows hr (h c hc)
  have hseen : seenState s = { s with foreign := [], draws := s.draws + 2 * s.foreign.length } := by
    rw [seenState, memSeen_eq_self s _ _ _ fun c hc => (hout c hc).1]
  have hblock (d : Nat) : stepAlone { s with foreign := [], draws := d } = blockStep { s with foreign := [], draws := d } :=
    stepAlone_low hr
  rw [step_eq, hseen, hblock, blockStep_setDraws { s with foreign := [] }, step_alone (s := { s with foreign := [] }) rfl,
    hblock s.draws, mapNext_mapNext]
  refine mapNext_congr fun u hu => ?_
  have hmem : (if startsDecode s then s.mem else u.mem) = u.mem := by
    split
    · rename_i hd
      exact (startsDecode_mem (s := { s with foreign := [] }) hd ((hblock s.draws).trans hu)).symm
    · rfl
  have hdraws : u.draws = s.draws := blockStep_draws (s := { s with foreign := [] }) hu
  simp only [afterOthers, hmem, memAfter_fold s s.foreign _ _ hout, hdraws]

end Sys2Proof.Machine
end

section
/-! PROOF. The opcode map (R70, R71, R73): what the decoder can answer, read off the layout, and that it inverts the map. -/

namespace Sys2Proof

/-! ### The layout of a command word -/

/-- A word of group 00 (R70): signedness bit 5, encode or decode in bit 4, variant bits 1:0. -/
def codecWord (s d : Bool) (var : BitVec 2) : BitVec 8 := 0b00#2 ++ BitVec.ofBool s ++ BitVec.ofBool d ++ 0b00#2 ++ var

/-- A word of group 01 (R70): signedness bit 3, narrow or classify in bit 2, width code in bits 1:0. -/
def classifierWord (s k : Bool) (w : BitVec 2) : BitVec 8 :=
  0b01#2 ++ 0b00#2 ++ BitVec.ofBool s ++ BitVec.ofBool k ++ w

/-- A word is its fields of group 00, put side by side. -/
theorem eq_codecFields (op : BitVec 8) : op = op.extractLsb' 6 2 ++ BitVec.ofBool (op.getLsbD 5) ++
    BitVec.ofBool (op.getLsbD 4) ++ op.extractLsb' 2 2 ++ op.extractLsb' 0 2 := by
  apply BitVec.eq_of_getLsbD_eq
  intro j hj
  rw [BitVec.getLsbD_append, BitVec.getLsbD_append, BitVec.getLsbD_append, BitVec.getLsbD_append]
  interval_cases j <;> simp

/-- A word is its fields of group 01, put side by side. -/
theorem eq_classifierFields (op : BitVec 8) : op = op.extractLsb' 6 2 ++ op.extractLsb' 4 2 ++
    BitVec.ofBool (op.getLsbD 3) ++ BitVec.ofBool (op.getLsbD 2) ++ op.extractLsb' 0 2 := by
  apply BitVec.eq_of_getLsbD_eq
  intro j hj
  rw [BitVec.getLsbD_append, BitVec.getLsbD_append, BitVec.getLsbD_append, BitVec.getLsbD_append]
  interval_cases j <;> simp

theorem eq_codecWord {op : BitVec 8} (hg : op.extractLsb' 6 2 = 0b00#2) (hz : op.extractLsb' 2 2 = 0b00#2) :
    op = codecWord (op.getLsbD 5) (op.getLsbD 4) (op.extractLsb' 0 2) := by
  have h := eq_codecFields op
  rwa [hg, hz] at h

theorem eq_classifierWord {op : BitVec 8} (hg : op.extractLsb' 6 2 = 0b01#2) (hz : op.extractLsb' 4 2 = 0b00#2) :
    op = classifierWord (op.getLsbD 3) (op.getLsbD 2) (op.extractLsb' 0 2) := by
  have h := eq_classifierFields op
  rwa [hg, hz] at h

/-- Everything the decoder can answer (R75): a command of one of the four kinds of word, or that the word is reserved. -/
theorem decode_cases (op : BitVec 8) :
    (∃ s var, op = codecWord s false var ∧ decode op = .ok (decodeEnc s var)) ∨
    (∃ s var, op = codecWord s true var ∧ decode op = decodeDec s var) ∨
    (∃ s w, op = classifierWord s false w ∧ decode op = .ok (decodeNarrow s w)) ∨
    (∃ s, op = classifierWord s true 0 ∧ decode op = .ok (if s then .clsS else .clsU)) ∨
    decode op = .error .reserved := by
  unfold decode
  split
  · rename_i h
    have hop := eq_codecWord h.1 h.2
    split
    · rename_i hd
      rw [hd] at hop
      exact .inr (.inl ⟨_, _, hop, rfl⟩)
    · rename_i hd
      rw [Bool.eq_false_of_not_eq_true hd] at hop
      exact .inl ⟨_, _, hop, rfl⟩
  · split
    · rename_i h
      have hop := eq_classifierWord h.1 h.2
      split
      · rename_i hk
        split
        · rename_i hw
          rw [hk, hw] at hop
          exact .inr (.inr (.inr (.inl ⟨_, hop, rfl⟩)))
        · exact .inr (.inr (.inr (.inr rfl)))
      · rename_i hk
        rw [Bool.eq_false_of_not_eq_true hk] at hop
        exact .inr (.inr (.inl ⟨_, _, hop, rfl⟩))
    · exact .inr (.inr (.inr (.inr rfl)))

/-! ### The opcode map gives each command its word of the layout -/

theorem encode_decodeEnc : ∀ s var, encode (decodeEnc s var) = codecWord s false var := by decide

theorem encode_decodeNarrow : ∀ s w, encode (decodeNarrow s w) = classifierWord s false w := by decide

theorem encode_cls : ∀ s : Bool, encode (if s then .clsS else .clsU) = classifierWord s true 0 := by decide

theorem encode_of_decodeDec {s : Bool} {var : BitVec 2} {i : Instr} (h : decodeDec s var = .ok i) :
    encode i = codecWord s true var := by
  unfold decodeDec at h
  split at h <;> cases h <;> rfl

theorem decode_encode (i : Instr) : decode (encode i) = .ok i := by
  cases i <;> rfl

theorem encode_of_decode {op : BitVec 8} {i : Instr} (h : decode op = .ok i) : encode i = op := by
  obtain ⟨s, var, hop, hd⟩ | ⟨s, var, hop, hd⟩ | ⟨s, w, hop, hd⟩ | ⟨s, hop, hd⟩ | hd := decode_cases op
  · cases hd.symm.trans h
    exact (encode_decodeEnc s var).trans hop.symm
  · exact (encode_of_decodeDec (hd.symm.trans h)).trans hop.symm
  · cases hd.symm.trans h
    exact (encode_decodeNarrow s w).trans hop.symm
  · cases hd.symm.trans h
    exact (encode_cls s).trans hop.symm
  · cases hd.symm.trans h

/-- Settles O1: forwards along `decode_cases`, backwards command by command. -/
theorem decodeInvertsEncode : Obligations.DecodeInvertsEncode :=
  fun _ i => ⟨encode_of_decode, fun h => h ▸ decode_encode i⟩

/-- Settles O3: each word is the opcode map's number of its command. -/
theorem layoutWordsDecode : Obligations.LayoutWordsDecode :=
  ⟨decode_encode .uencSink, decode_encode .udecSrc, decode_encode .sencTry, decode_encode .sdec,
    decode_encode .narrowU64, decode_encode .narrowS128, decode_encode .clsU, decode_encode .clsS⟩

/-! ### The reserved words -/

theorem decode_eq_reserved_iff (op : BitVec 8) : decode op = .error .reserved ↔ ∀ i, encode i ≠ op := by
  constructor
  · rintro h i rfl
    rw [decode_encode] at h
    cases h
  · intro h
    cases hd : decode op with
    | error e => cases e; rfl
    | ok i => exact absurd (encode_of_decode hd) (h i)

/-- The numbers of the opcode map, in the order of R71. -/
def opcodes : List Nat := allInstrs.map fun i => (encode i).toNat

theorem mem_allInstrs (i : Instr) : i ∈ allInstrs := by
  cases i <;> decide

theorem mem_opcodes_iff (op : BitVec 8) : op.toNat ∈ opcodes ↔ ∃ i, encode i = op := by
  simp only [opcodes, List.mem_map, mem_allInstrs, true_and, BitVec.toNat_inj]

theorem mem_opcodes_iff_ranges (k : Nat) : k ∈ opcodes ↔
    k ≤ 0x03 ∨ (0x10 ≤ k ∧ k ≤ 0x12) ∨ (0x20 ≤ k ∧ k ≤ 0x23) ∨ (0x30 ≤ k ∧ k ≤ 0x32) ∨ (0x40 ≤ k ∧ k ≤ 0x44) ∨
      (0x48 ≤ k ∧ k ≤ 0x4C) := by
  have h : opcodes = [0x00, 0x01, 0x02, 0x03, 0x10, 0x11, 0x12, 0x20, 0x21, 0x22, 0x23, 0x30, 0x31, 0x32, 0x40, 0x41,
    0x42, 0x43, 0x44, 0x48, 0x49, 0x4A, 0x4B, 0x4C] := rfl
  simp only [h, List.mem_cons, List.not_mem_nil, or_false]
  omega

theorem decode_eq_reserved_iff_notMem_opcodes (op : BitVec 8) : decode op = .error .reserved ↔ op.toNat ∉ opcodes := by
  rw [decode_eq_reserved_iff, mem_opcodes_iff, not_exists]

theorem decodeTableWord_eq_none_iff {w : Nat} (h : w < 256) : decodeTableWord 8 w = none ↔ w ∉ opcodes := by
  have hw : (BitVec.ofNat 8 (w % 2 ^ 8)).toNat = w := by
    rw [BitVec.toNat_ofNat]; omega
  have hd := decode_eq_reserved_iff_notMem_opcodes (BitVec.ofNat 8 (w % 2 ^ 8))
  rw [hw] at hd
  rw [← hd, decodeTableWord]
  cases decode (BitVec.ofNat 8 (w % 2 ^ 8)) with
  | error e => cases e; exact iff_of_true rfl rfl
  | ok i => exact iff_of_false nofun nofun

/-- The words below 256 that are no opcode: 256 less the 24 different opcodes. -/
theorem length_filter_notMem_opcodes : ((List.range 256).filter (· ∉ opcodes)).length = 232 := by
  have hperm : ((List.range 256).filter (· ∈ opcodes)).Perm opcodes :=
    (List.perm_ext_iff_of_nodup (List.nodup_range.filter _) (by decide)).2 fun k => by
      rw [List.mem_filter, List.mem_range, decide_eq_true_iff, and_iff_right_iff_imp, mem_opcodes_iff_ranges]
      omega
  have hsum := List.length_eq_length_filter_add (l := List.range 256) (decide <| · ∈ opcodes)
  rw [hperm.length_eq] at hsum
  simp only [← decide_not, List.length_range] at hsum
  have hlen : opcodes.length = 24 := rfl
  omega

/-- Settles O2: what is not reserved is the opcode map. -/
theorem reservedOpcodesAreTheListedRanges : Obligations.ReservedOpcodesAreTheListedRanges := by
  constructor
  · intro op
    have hlt := op.isLt
    rw [decode_eq_reserved_iff_notMem_opcodes, mem_opcodes_iff_ranges]
    omega
  · rw [← length_filter_notMem_opcodes]
    refine congrArg List.length (List.filter_congr fun w hw => ?_)
    rw [decide_eq_decide]
    exact decodeTableWord_eq_none_iff (List.mem_range.1 hw)

end Sys2Proof
end

section
/-! PROOF. The assembler (R76): what a literal is stored as, and what a statement that assembles asks for. -/

namespace Sys2Proof

/-! ### Literals -/

theorem inRange_dec_unsigned (z : Int) : (ValLit.dec z).inRange .unsigned = true ↔ 0 ≤ z ∧ z < 2 ^ 128 := by
  simp only [ValLit.inRange, Bool.and_eq_true, decide_eq_true_iff]
  omega

theorem inRange_dec_signed (z : Int) : (ValLit.dec z).inRange .signed = true ↔ -(2 ^ 127) ≤ z ∧ z < 2 ^ 127 := by
  simp only [ValLit.inRange, Bool.and_eq_true, decide_eq_true_iff]
  omega

theorem inRange_hex (sg : Sign) (ds : List (Fin 16)) :
    (ValLit.hex ds).inRange sg = true ↔ 1 ≤ ds.length ∧ ds.length ≤ 32 := by
  simp [ValLit.inRange]

theorem pattern_dec_toNat {z : Int} (h : (ValLit.dec z).inRange .unsigned = true) :
    ((ValLit.dec z).pattern.toNat : Int) = z := by
  obtain ⟨h0, h1⟩ := (inRange_dec_unsigned z).1 h
  rw [ValLit.pattern, BitVec.toNat_ofInt]
  omega

theorem pattern_dec_toInt {z : Int} (h : (ValLit.dec z).inRange .signed = true) : (ValLit.dec z).pattern.toInt = z := by
  obtain ⟨h0, h1⟩ := (inRange_dec_signed z).1 h
  exact BitVec.toInt_ofInt_eq_self (by decide) h0 h1

theorem hexValue_lt (ds : List (Fin 16)) : hexValue ds < 16 ^ ds.length := by
  induction ds using List.reverseRecOn with
  | nil => decide
  | append_singleton ds d ih =>
    rw [hexValue, List.foldl_append, List.length_append, List.length_singleton, pow_succ]
    change 16 * hexValue ds + d.val < _
    omega

theorem pattern_hex_toNat {sg : Sign} {ds : List (Fin 16)} (h : (ValLit.hex ds).inRange sg = true) :
    (ValLit.hex ds).pattern.toNat = hexValue ds := by
  obtain ⟨-, hlen⟩ := (inRange_hex sg ds).1 h
  have hlt : hexValue ds < 2 ^ 128 := calc
    hexValue ds < 16 ^ ds.length := hexValue_lt ds
    _ ≤ 16 ^ 32 := Nat.pow_le_pow_right (by decide) hlen
    _ = 2 ^ 128 := by norm_num
  exact (BitVec.toNat_ofNat ..).trans (Nat.mod_eq_of_lt hlt)

/-! ### Statements -/

/-- Both numbers of a window, written or omitted, are ones the port can carry. -/
theorem window_lt {c : Config} {w : Option (Nat × Nat)}
    (h : ∀ x, w = some x → x.1 < 2 ^ c.addrW ∧ x.2 < 2 ^ c.addrW) :
    (w.map Prod.fst).getD 0 < 2 ^ c.addrW ∧ (w.map Prod.snd).getD 0 < 2 ^ c.addrW := by
  cases w with
  | none => exact ⟨Nat.two_pow_pos _, Nat.two_pow_pos _⟩
  | some x => exact h x rfl

/-- The two fields of a window are the window, or 0 and 0 where it is omitted. -/
theorem window_fields (w : Option (Nat × Nat)) :
    ((w.map Prod.fst).getD 0, (w.map Prod.snd).getD 0) = w.getD (0, 0) := by
  cases w with
  | none => rfl
  | some x => rfl

/-- Everything a statement that assembles is: its literal is in range, and its request holds the operands. -/
theorem assemble_eq_some {c : Config} {st : Stmt} {r : Request} (h : assemble c st = some r) :
    (∀ v, st.val = some v → v.inRange st.instr.sign = true) ∧ r.wf c = true ∧
      r.op = encode st.instr ∧ r.val = (st.val.map ValLit.pattern).getD 0 ∧
      (r.dbase, r.dcap) = st.dst.getD (0, 0) ∧ (r.sbase, r.slen) = st.src.getD (0, 0) := by
  unfold assemble at h
  split at h
  · rename_i hwf
    cases h
    simp only [Stmt.wf, Bool.and_eq_true, Option.all_eq_true, decide_eq_true_iff] at hwf
    obtain ⟨⟨⟨-, hval⟩, hdst⟩, hsrc⟩ := hwf
    exact ⟨hval, by simp [Request.wf, window_lt hdst, window_lt hsrc], rfl, rfl, window_fields _, window_fields _⟩
  · cases h

theorem assemble_eq_none {c : Config} {st : Stmt} {v : ValLit} (hv : st.val = some v)
    (h : v.inRange st.instr.sign ≠ true) : assemble c st = none := by
  cases ha : assemble c st with
  | none => rfl
  | some r => exact absurd ((assemble_eq_some ha).1 v hv) h

/-- Settles O46: the request holds the literal's pattern, which is the literal's value because it is in range. -/
theorem assemblerStoresItsOperands : Obligations.AssemblerStoresItsOperands := by
  intro c st
  constructor
  · intro r h
    obtain ⟨hlit, hwf, hop, hval, hdst, hsrc⟩ := assemble_eq_some h
    have hpattern {v : ValLit} (hv : st.val = some v) : r.val = v.pattern := by rw [hval, hv]; rfl
    refine ⟨hop ▸ decode_encode st.instr, hwf, fun z hz => ?dec, fun ds hds => ?hex, fun hn => ?omitted, hdst, hsrc⟩
    case dec =>
      have hr := hlit _ hz
      rw [hpattern hz]
      cases hs : st.instr.sign with
      | unsigned => exact pattern_dec_toNat (hs ▸ hr)
      | signed => exact pattern_dec_toInt (hs ▸ hr)
    case hex => rw [hpattern hds, pattern_hex_toNat (hlit _ hds)]
    case omitted => rw [hval, hn]; rfl
  · intro z hz hout
    refine assemble_eq_none hz fun hin => ?_
    cases hs : st.instr.sign with
    | unsigned =>
      rw [hs, inRange_dec_unsigned] at hin
      rw [hs] at hout
      change z < 0 ∨ 2 ^ 128 ≤ z at hout
      omega
    | signed =>
      rw [hs, inRange_dec_signed] at hin
      rw [hs] at hout
      change z < -(2 ^ 127) ∨ 2 ^ 127 ≤ z at hout
      omega

end Sys2Proof
end

section
/-! PROOF. The pseudo-operations (R77): a count, then the strict encode into a window of the counted size. -/

namespace Sys2Proof.Machine

/-- A buffer encode of the value just counted, into a window of the counted size that fits, answers as the count did. -/
theorem encodeForm_after_count {sg : Sign} {small : Resp} {s t : State} {q : Request} (hv : q.val = s.req.val)
    (hcount : answerForm (fun x => encodedAnswer (encodingOf sg x).length) s = .next t)
    (hcap : q.dcap = t.resp.n.toNat) (hfit : q.dbase + q.dcap ≤ 2 ^ t.cfg.addrW) :
    ∃ u, encodeForm sg small { t with req := q } = .next u ∧ u.resp = t.resp ∧ u.resp.ok = true := by
  obtain ⟨n, -, h19, hl, hb⟩ := encodingOf_spec sg s.req.val
  have hresp : t.resp = encodedAnswer n := by
    cases hcount
    simp only [hb, encBytes_length]
  have hn : (encodedAnswer n).n.toNat = n := by
    rw [encodedAnswer, BitVec.toNat_ofNat]
    omega
  rw [hresp, hn] at hcap
  exact ⟨_, encodeForm_stores (hv ▸ hl) hcap.ge hfit, hresp.symm, rfl⟩

/-- Settles O47: both pairs of commands are the two forms of `encodeForm_after_count`. -/
theorem allocatingEncodeCannotFail : Obligations.AllocatingEncodeCannotFail := by
  intro s t v base
  constructor
  · intro hcount hfit
    obtain ⟨small, form⟩ := exec_of_readsDst (i := .uenc) rfl
    rw [form]
    exact encodeForm_after_count rfl ((next_respondCount .unsigned _).symm.trans hcount) rfl hfit
  · intro hcount hfit
    obtain ⟨small, form⟩ := exec_of_readsDst (i := .senc) rfl
    rw [form]
    exact encodeForm_after_count rfl ((next_respondCount .signed _).symm.trans hcount) rfl hfit

end Sys2Proof.Machine
end

section
/-! PROOF. The unsigned encoder (spec/40_unsigned_encoder.md), with the lemmas that both encoders share: what a count, a
buffer encode and a sink encode do, the last byte of an encoding, and the round trip through host memory. -/

namespace Sys2Proof.Machine

/-! ### Counts -/

/-- Settles O8: the length of the encoding is the least length (`encodingOf_spec`). -/
theorem uencCountIsLeastLength : Obligations.UencCountIsLeastLength := by
  intro s
  obtain ⟨n, -, h19, hl, hb⟩ := encodingOf_spec .unsigned s.req.val
  refine ⟨n, h19, hl, ?_⟩
  rw [show exec .uencCount s = _ from next_respondCount .unsigned s]
  simp only [answerForm, hb, encBytes_length]

/-! ### Buffer encodes -/

theorem exec_uencTry (s : State) : exec .uencTry s = encodeForm .unsigned (errorAnswer 0) s :=
  encodeToBuffer_eq_form (sg := .unsigned) (safeFailure_eq s)

theorem exec_uenc (s : State) : exec .uenc s = encodeForm .unsigned (errorAnswer 1) s :=
  encodeToBuffer_eq_form (sg := .unsigned) (raiseError_eq .bufferTooSmall s)

theorem exec_sencTry (s : State) : exec .sencTry s = encodeForm .signed (errorAnswer 0) s :=
  encodeToBuffer_eq_form (sg := .signed) (safeFailure_eq s)

theorem exec_senc (s : State) : exec .senc s = encodeForm .signed (errorAnswer 1) s :=
  encodeToBuffer_eq_form (sg := .signed) (raiseError_eq .bufferTooSmall s)

/-- A buffer encode of `n` bytes into a window without room for them. -/
theorem encodeForm_small {sg : Sign} {small : Resp} {s : State} {n : Nat} (hl : EncLen sg s.req.val n)
    (hn : s.req.dcap < n) (hf : s.req.dbase + s.req.dcap ≤ 2 ^ s.cfg.addrW) :
    encodeForm sg small s = .next { s with busy := none, resp := small } := by
  simp only [encodeForm, if_pos hf, encodingOf_eq_encBytes hl, encBytes_length, if_pos hn]

/-- Byte `k` of a stored encoding. -/
theorem memRead_stored {m : List Host.Cell} (h : Memory.wf m = true) (base : Nat) (sg : Sign) (x : Word) {n k : Nat}
    (hk : k < n) : memRead (memWriteBytes m base (encBytes sg x n n)) (base + k) = encByte sg x n k := by
  rw [memRead_memWriteBytes_encBytes h, if_pos (by omega), Nat.add_sub_cancel_left]

/-- Settles O10: the memory afterwards is the encoding stored in the memory before. -/
theorem unsignedBufferEncodeStoresEncoding : Obligations.UnsignedBufferEncodeStoresEncoding := by
  intro s hwf hf
  obtain ⟨n, -, h19, hl, -⟩ := encodingOf_spec .unsigned s.req.val
  simp only [exec_uencTry, exec_uenc]
  refine ⟨n, h19, hl, fun hn => ⟨encodeForm_small hl hn hf, encodeForm_small hl hn hf⟩, fun hn =>
    ⟨_, encodeForm_stores hl hn hf, encodeForm_stores hl hn hf, fun k hk => ?inside, fun a ha => ?outside⟩⟩
  case inside => exact memRead_stored hwf _ _ _ hk
  case outside => rw [memRead_memWriteBytes_encBytes hwf, if_neg (by omega)]

/-- The four buffer encodes differ in their signedness and in the code of their failure. -/
theorem exec_eq_encodeForm {i : Instr} (h : i.readsDst = true) :
    ∃ code, ∀ s, exec i s = encodeForm i.sign (errorAnswer code) s := by
  cases i
  case uencTry => exact ⟨0, exec_uencTry⟩
  case uenc => exact ⟨1, exec_uenc⟩
  case sencTry => exact ⟨0, exec_sencTry⟩
  case senc => exact ⟨1, exec_senc⟩
  all_goals cases h

/-- A buffer encode that succeeds has stored an encoding that its window holds. -/
theorem exec_encode_ok {i : Instr} {s t : State} (hi : i.readsDst = true) (h : exec i s = .next t)
    (hok : t.resp.ok = true) :
    ∃ n, 1 ≤ n ∧ n ≤ 19 ∧ EncLen i.sign s.req.val n ∧ n ≤ s.req.dcap ∧
      s.req.dbase + s.req.dcap ≤ 2 ^ s.cfg.addrW ∧ t = { s with
        busy := none
        mem := memWriteBytes s.mem s.req.dbase (encBytes i.sign s.req.val n n)
        resp := encodedAnswer n } := by
  obtain ⟨code, form⟩ := exec_eq_encodeForm hi
  obtain ⟨n, h1, h19, hl, -⟩ := encodingOf_spec i.sign s.req.val
  rw [form] at h
  by_cases hf : s.req.dbase + s.req.dcap ≤ 2 ^ s.cfg.addrW
  · by_cases hn : n ≤ s.req.dcap
    · cases (encodeForm_stores hl hn hf).symm.trans h
      exact ⟨n, h1, h19, hl, hn, hf, rfl⟩
    · cases (encodeForm_small hl (Nat.lt_of_not_le hn) hf).symm.trans h
      cases hok
  · cases (if_neg hf).symm.trans h

theorem encodedAnswer_count {n : Nat} (h : n ≤ 19) : (encodedAnswer n).n.toNat = n := by
  rw [encodedAnswer, BitVec.toNat_ofNat]
  omega

/-! ### The last byte -/

/-- A least length leaves no leading zero chunk (R106(c)). -/
theorem encByte_unsigned_last_eq_zero_iff {x : Word} {n : Nat} (h : UnsignedLen x n) :
    encByte .unsigned x n (n - 1) = 0 ↔ x = 0 := by
  obtain ⟨h1, hlt, hmin⟩ := h
  obtain ⟨m, rfl⟩ := Nat.exists_eq_add_of_le' h1
  have hchunk : x.toNat / 2 ^ (7 * m) < 128 := by
    rw [Nat.div_lt_iff_lt_mul (Nat.two_pow_pos _)]
    rwa [Nat.mul_succ, Nat.add_comm, pow_add] at hlt
  rw [← BitVec.toNat_inj, ← BitVec.toNat_inj, encByte_unsigned_toNat, Nat.add_sub_cancel, if_neg (by omega),
    Nat.mod_eq_of_lt hchunk]
  cases m with
  | zero => simp
  | succ m =>
    have hx := hmin (m + 1) (by omega) (by omega)
    have hp := Nat.two_pow_pos (7 * (m + 1))
    have hq : 0 < x.toNat / 2 ^ (7 * (m + 1)) := Nat.div_pos hx hp
    simp only [BitVec.ofNat_eq_ofNat, BitVec.toNat_ofNat]
    omega

/-- The last chunk of a signed encoding is the value's top seven bits, sign included. -/
theorem signed_last_chunk {x : Word} {n : Nat} (h : SignedLen x n) :
    -64 ≤ x.toInt / 2 ^ (7 * (n - 1)) ∧ x.toInt / 2 ^ (7 * (n - 1)) < 64 := by
  obtain ⟨h1, ⟨hlo, hhi⟩, -⟩ := h
  have hp : (0 : Int) < 2 ^ (7 * (n - 1)) := by positivity
  have hq : (2 : Int) ^ (7 * n - 1) = 64 * 2 ^ (7 * (n - 1)) := by
    rw [show 7 * n - 1 = 6 + 7 * (n - 1) by omega, pow_add]
    rfl
  rw [hq] at hlo hhi
  exact ⟨Int.le_ediv_of_mul_le hp (by linarith), Int.ediv_lt_of_lt_mul hp hhi⟩

/-- Bit 6 of the last byte is the sign (R146(b)). -/
theorem encByte_signed_last_bit6 {x : Word} {n : Nat} (h : SignedLen x n) :
    (encByte .signed x n (n - 1)).getLsbD 6 = x.getLsbD 127 := by
  have hmsb : x.getLsbD 127 = true ↔ x.toInt < 0 := by
    rw [← BitVec.msb_eq_getLsbD_last x, BitVec.msb_eq_toInt, decide_eq_true_iff]
  have hneg : x.toInt / 2 ^ (7 * (n - 1)) < 0 ↔ x.toInt < 0 := by
    rw [Int.ediv_lt_iff_lt_mul (by positivity), zero_mul]
  obtain ⟨hlo, hhi⟩ := signed_last_chunk h
  have h1 := h.1
  rw [Bool.eq_iff_iff, bit6_iff, hmsb, ← hneg, encByte_signed_toNat, if_neg (by omega)]
  omega

/-- After a buffer encode that succeeds, the byte at `dbase + n - 1` is the last one of the encoding. -/
theorem memRead_last_stored {i : Instr} {s t : State} (hi : i.readsDst = true) (hwf : Memory.wf s.mem = true)
    (h : exec i s = .next t) (hok : t.resp.ok = true) :
    ∃ n, EncLen i.sign s.req.val n ∧
      memRead t.mem (s.req.dbase + (t.resp.n.toNat - 1)) = encByte i.sign s.req.val n (n - 1) := by
  obtain ⟨n, h1, h19, hl, -, -, rfl⟩ := exec_encode_ok hi h hok
  rw [encodedAnswer_count h19]
  exact ⟨n, hl, memRead_stored hwf _ _ _ (by omega)⟩

/-- Settles O14: the byte read is the last one of the closed form. -/
theorem lastStoredByteTellsZeroAndSign : Obligations.LastStoredByteTellsZeroAndSign := by
  intro s t hwf hok
  constructor
  · intro h
    obtain ⟨n, hl, hb⟩ := memRead_last_stored (i := .uenc) rfl hwf h hok
    rw [hb]
    exact encByte_unsigned_last_eq_zero_iff hl
  · intro h
    obtain ⟨n, hl, hb⟩ := memRead_last_stored (i := .senc) rfl hwf h hok
    rw [hb]
    exact encByte_signed_last_bit6 hl

/-! ### Round trips -/

theorem wholeEncoding_encByte {sg : Sign} {x : Word} {n : Nat} (p : PExcess) (hl : EncLen sg x n) (h19 : n ≤ 19) :
    WholeEncoding sg p (encByte sg x n) n := by
  cases sg with
  | unsigned => exact wholeEncoding_unsigned p hl h19
  | signed => exact wholeEncoding_signed p hl h19

theorem decodedValue_encByte {sg : Sign} {x : Word} {n : Nat} (hl : EncLen sg x n) :
    decodedValue sg (encByte sg x n) n = x := by
  cases sg with
  | unsigned => exact decodedValue_encByte_unsigned hl.2.1
  | signed => exact decodedValue_encByte_signed hl.1 hl.2.1.1 hl.2.1.2

/-- Both buffer decodes of a signedness answer by how the scan ends; they differ in the codes of their failures. -/
theorem exec_eq_scanAnswer {i : Instr} (h : i.readsSrc = true) :
    ∃ a b, ∀ s, exec i s = decodeForm i.sign (scanAnswer i.sign a b) s := by
  cases i
  case udecTry | sdecTry => exact ⟨0, 0, fun s => bufferDecode_eq_form (finishSafe_eq _ · s)⟩
  case udec | sdec => exact ⟨2, 3, fun s => bufferDecode_eq_form (finishStrict_eq _ · s)⟩
  all_goals cases h

/-- A buffer decode of a window that begins with a whole encoding. -/
theorem exec_decode_whole {i : Instr} {s : State} {get : Nat → Byte} {n : Nat} (hi : i.readsSrc = true)
    (hf : s.req.sbase + s.req.slen ≤ 2 ^ s.cfg.addrW) (hw : WholeEncoding i.sign s.cfg.pExcess get n)
    (hn : n ≤ s.req.slen) (hg : ∀ k, k < n → memRead s.mem (s.req.sbase + k) = get k) :
    exec i s = .next { s with busy := none, resp := valueAnswer n i.sign (decodedValue i.sign get n) } := by
  obtain ⟨a, b, form⟩ := exec_eq_scanAnswer hi
  have hbuf (k : Nat) (hk : k < n) : getBuf s k = some (get k) := by
    rw [getBuf_inside (hk.trans_le hn), hg k hk]
  rw [form, decodeForm_fits hf, scanLoop_whole hw hbuf]
  rfl

/-- A buffer decode reads back what a buffer encode of its signedness has stored (R106(b), R146(c)). -/
theorem exec_decode_after_encode {e d : Instr} {s t : State} (he : e.readsDst = true) (hd : d.readsSrc = true)
    (hsign : d.sign = e.sign) (hwf : Memory.wf s.mem = true) (h : exec e s = .next t) (hok : t.resp.ok = true) :
    exec d { t with req := { t.req with sbase := s.req.dbase, slen := s.req.dcap } } = .next { t with
      req := { t.req with sbase := s.req.dbase, slen := s.req.dcap }
      resp := valueAnswer t.resp.n.toNat e.sign s.req.val } := by
  obtain ⟨n, -, h19, hl, hn, hf, ht⟩ := exec_encode_ok he h hok
  rw [← hsign] at hl ht ⊢
  subst ht
  rw [exec_decode_whole hd ?fits (wholeEncoding_encByte _ hl h19) ?room ?bytes, decodedValue_encByte hl,
    encodedAnswer_count h19]
  case fits => exact hf
  case room => exact hn
  case bytes => exact fun k hk => memRead_stored hwf _ _ _ hk

/-- Settles O21: the unsigned case of `exec_decode_after_encode`. -/
theorem unsignedRoundTrip : Obligations.UnsignedRoundTrip := by
  intro s t e d hwf he hd h hok
  have hes : e.readsDst = true ∧ e.sign = .unsigned := by obtain rfl | rfl := he <;> exact ⟨rfl, rfl⟩
  have hds : d.readsSrc = true ∧ d.sign = .unsigned := by obtain rfl | rfl := hd <;> exact ⟨rfl, rfl⟩
  rw [← hes.2]
  exact exec_decode_after_encode hes.1 hds.1 (hds.2.trans hes.2.symm) hwf h hok

/-! ### Sink encodes -/

theorem encBytes_take (sg : Sign) (x : Word) {n j : Nat} (h : j ≤ n) :
    (encBytes sg x n n).take j = encBytes sg x n j := by
  rw [encBytes, ← List.map_take, List.take_range, Nat.min_eq_left h, encBytes]

/-- The state of a sink encode of `bs` that began in `s` and has handed over `j` bytes. -/
def sinkStreaming (bs : List Byte) (j : Nat) (s : State) : State :=
  { s with sink := sinkGot s.sink (bs.take j) j, busy := some (.sink { left := bs.drop j, sent := j }) }

theorem sinkGot_snoc {k : Sink} {bs : List Byte} {j : Nat} (h : j < bs.length) :
    sinkGot (sinkGot k (bs.take j) j) [bs[j]] 1 = sinkGot k (bs.take (j + 1)) (j + 1) := by
  simp [sinkGot, Function.comp_def, Nat.sub_sub]

theorem sinkGot_room_ne_zero {k : Sink} {bs : List Byte} {j : Nat} (h : ∀ r, k.room = some r → j < r) :
    (sinkGot k bs j).room ≠ some 0 := by
  simp only [sinkGot, ne_eq, Option.map_eq_some_iff, not_exists, not_and]
  intro r hroom
  have := h r hroom
  omega

theorem sinkGot_nil (k : Sink) : sinkGot k [] 0 = k := by
  simp [sinkGot]

/-- A sink encode's step does not look at which transfer is in progress. -/
theorem sinkStep_setBusy (t : SinkTransfer) (s : State) (b : Option Transfer) :
    sinkStep t { s with busy := b } = sinkStep t s := by
  unfold sinkStep
  split
  · rfl
  · simp only
    split
    · rfl
    · split <;> rfl

/-- A step first. -/
theorem run_succ {s t : State} (h : step s = .next t) (k : Nat) : run (k + 1) s = run k t := by
  rw [run, h]

/-- The first of several steps was one. -/
theorem step_of_run {s u : State} {k : Nat} (h : run (k + 1) s = .next u) : ∃ t, step s = .next t := by
  cases hs : step s with
  | next t => exact ⟨t, rfl⟩
  | fault e => rw [run, hs] at h; cases h
  | refused e => rw [run, hs] at h; cases h

/-- A step last. -/
theorem run_snoc {u : State} : ∀ {k : Nat} {s : State}, run k s = .next u → run (k + 1) s = step u
  | 0, s, h => by
    cases h
    rw [run]
    cases step u <;> rfl
  | k + 1, s, h => by
    cases hs : step s with
    | next t => rw [run_succ hs] at h ⊢; exact run_snoc h
    | fault e => rw [run, hs] at h; cases h
    | refused e => rw [run, hs] at h; cases h

section
variable {s : State} (hf : s.foreign = []) (hr : s.rst = .low) {bs : List Byte} {j : Nat}
include hf hr

theorem step_sinkStreaming (bs : List Byte) (j : Nat) :
    step (sinkStreaming bs j s) = sinkStep { left := bs.drop j, sent := j } (sinkStreaming bs j s) :=
  (step_low (s := sinkStreaming bs j s) hf hr).trans (blockStep_busy (s := sinkStreaming bs j s) rfl)

/-- A sink that has accepted all it will accept holds the block. -/
theorem step_sinkStreaming_holds (hj : j < bs.length) (hk : s.sink.room = some j) :
    step (sinkStreaming bs j s) = .fault .sinkHolds := by
  rw [step_sinkStreaming hf hr, List.drop_eq_getElem_cons hj]
  exact sinkStep_holds (by simp [sinkStreaming, sinkGot, hk])

theorem step_sinkStreaming_accepts (hj : j < bs.length) (hk : ∀ r, s.sink.room = some r → j < r) :
    step (sinkStreaming bs j s) = if j + 1 = bs.length then
      .next { s with busy := none, sink := sinkGot s.sink bs bs.length, resp := encodedAnswer bs.length }
    else .next (sinkStreaming bs (j + 1) s) := by
  rw [step_sinkStreaming hf hr, List.drop_eq_getElem_cons hj, sinkStep_accepts (sinkGot_room_ne_zero hk)]
  simp only [sinkStreaming, sinkGot_snoc hj, List.drop_eq_nil_iff]
  by_cases h : j + 1 = bs.length
  · rw [if_pos h.ge, if_pos h, List.take_of_length_le h.ge, h]
  · rw [if_neg (by omega), if_neg h]

/-- As long as it has not handed over its last byte, and the sink accepts, a sink encode streams. -/
theorem run_sinkStreaming (hj : j < bs.length) (hk : ∀ r, s.sink.room = some r → j ≤ r) :
    run j (sinkStreaming bs 0 s) = .next (sinkStreaming bs j s) := by
  induction j with
  | zero => rfl
  | succ j ih =>
    rw [run_snoc (ih (by omega) fun r h => Nat.le_of_succ_le (hk r h)),
      step_sinkStreaming_accepts hf hr (by omega) hk, if_neg (by omega)]

/-- With the last byte the sink encode answers. -/
theorem run_sinkStreaming_length (h1 : 1 ≤ bs.length) (hk : ∀ r, s.sink.room = some r → bs.length ≤ r) :
    run bs.length (sinkStreaming bs 0 s) =
      .next { s with busy := none, sink := sinkGot s.sink bs bs.length, resp := encodedAnswer bs.length } := by
  obtain ⟨j, hj⟩ := Nat.exists_eq_add_of_le' h1
  have hbefore : run j (sinkStreaming bs 0 s) = .next (sinkStreaming bs j s) :=
    run_sinkStreaming hf hr (by omega) fun r h => by have := hk r h; omega
  rw [hj, run_snoc hbefore, step_sinkStreaming_accepts hf hr (by omega) fun r h => by have := hk r h; omega,
    if_pos hj.symm, hj]

/-- The first step of a sink encode is a step from where nothing has been handed over. -/
theorem sinkForm_eq_step (sg : Sign) : sinkForm sg s = step (sinkStreaming (encodingOf sg s.req.val) 0 s) := by
  rw [step_sinkStreaming hf hr, sinkStreaming, List.take_zero, List.drop_zero, sinkGot_nil, sinkStep_setBusy]
  rfl

end

section
variable {sg : Sign} {s : State} {n : Nat} (hf : s.foreign = []) (hr : s.rst = .low)
include hf hr

/-- A sink encode into a sink that accepts its `n` bytes (R105, R145, R47). -/
theorem sinkForm_accepted (hl : EncLen sg s.req.val n) (h1 : 1 ≤ n) (hk : ∀ r, s.sink.room = some r → n ≤ r) :
    ∃ t, sinkForm sg s = .next t ∧
      (∀ j, j + 1 < n → ∃ u, run j t = .next u ∧ u.busy ≠ none ∧ { u with busy := none } =
        { s with busy := none, sink := sinkGot s.sink (encBytes sg s.req.val n (j + 1)) (j + 1) }) ∧
      run (n - 1) t = .next { s with
        busy := none, sink := sinkGot s.sink (encBytes sg s.req.val n n) n, resp := encodedAnswer n } := by
  have hlen := encBytes_length sg s.req.val n n
  have hend := run_sinkStreaming_length hf hr (bs := encBytes sg s.req.val n n) (by rwa [hlen]) (by rwa [hlen])
  rw [hlen] at hend
  obtain ⟨m, rfl⟩ := Nat.exists_eq_add_of_le' h1
  obtain ⟨t, ht⟩ := step_of_run hend
  have hmid (j : Nat) (hj : j + 1 < m + 1) :=
    run_sinkStreaming hf hr (hlen.symm ▸ hj) fun r h => hj.le.trans (hk r h)
  refine ⟨t, ?_, fun j hj => ⟨_, (run_succ ht j).symm.trans (hmid j hj), Option.some_ne_none _, ?_⟩,
    (run_succ ht m).symm.trans hend⟩
  · rw [sinkForm_eq_step hf hr, encodingOf_eq_encBytes hl, ht]
  · rw [sinkStreaming, encBytes_take sg _ hj.le]

/-- A sink encode into a sink that accepts nothing (R47). -/
theorem sinkForm_held (hk : s.sink.room = some 0) : sinkForm sg s = .fault .sinkHolds := by
  rw [sinkForm_eq_step hf hr]
  exact step_sinkStreaming_holds hf hr (encodingOf_length sg s.req.val).1 hk

/-- A sink encode into a sink that accepts some bytes of the encoding, and not all (R47, R218). -/
theorem sinkForm_stuck (hl : EncLen sg s.req.val n) {r : Nat} (hk : s.sink.room = some (r + 1)) (hn : r + 1 < n) :
    ∃ t u, sinkForm sg s = .next t ∧ run r t = .next u ∧
      u.sink.received = s.sink.received ++ encBytes sg s.req.val n (r + 1) ∧ step u = .fault .sinkHolds := by
  have hlen : r + 1 < (encBytes sg s.req.val n n).length := by rwa [encBytes_length]
  have hrun := run_sinkStreaming hf hr hlen fun q h => (Option.some.inj (hk.symm.trans h)).le
  obtain ⟨t, ht⟩ := step_of_run hrun
  refine ⟨t, _, ?_, (run_succ ht r).symm.trans hrun, ?_, step_sinkStreaming_holds hf hr hlen hk⟩
  · rw [sinkForm_eq_step hf hr, encodingOf_eq_encBytes hl, ht]
  · rw [← encBytes_take sg _ hn.le]
    rfl

end

/-- Settles O12: UENC.SINK is the sink form; the three clauses are its three kinds of sink. -/
theorem uencSinkHandsOverEncoding : Obligations.UencSinkHandsOverEncoding := by
  intro s hf hr
  obtain ⟨n, h1, h19, hl, -⟩ := encodingOf_spec .unsigned s.req.val
  rw [show exec .uencSink s = sinkForm .unsigned s from rfl]
  exact ⟨n, h1, h19, hl, sinkForm_accepted hf hr hl h1, sinkForm_held hf hr, fun r => sinkForm_stuck hf hr hl⟩

end Sys2Proof.Machine
end

section
/-! PROOF. The unsigned decoder (spec/41_unsigned_decoder.md), with the lemmas that both decoders share: how a buffer decode ends,
which bytes it depends on, and what a source decode pulls and answers. -/

namespace Sys2Proof.Machine

/-! ### Buffer decodes -/

theorem exec_udecTry (s : State) : exec .udecTry s = decodeForm .unsigned (scanAnswer .unsigned 0 0) s :=
  bufferDecode_eq_form (finishSafe_eq .unsigned · s)

theorem exec_udec (s : State) : exec .udec s = decodeForm .unsigned (scanAnswer .unsigned 2 3) s :=
  bufferDecode_eq_form (finishStrict_eq .unsigned · s)

/-- Byte `k` of the source window of the current command. -/
def srcByte (s : State) (k : Nat) : Byte := memRead s.mem (s.req.sbase + k)

section
variable {sg : Sign} {incomplete overflow : BitVec 3} {s : State} {get : Nat → Byte}
  (hf : s.req.sbase + s.req.slen ≤ 2 ^ s.cfg.addrW)
include hf

/-- A buffer decode of a window that ends before its encoding does. -/
theorem decodeForm_incomplete (hl : s.req.slen < 19) (hc : ∀ k, k < s.req.slen → 128 ≤ (get k).toNat)
    (hg : ∀ k, k < s.req.slen → srcByte s k = get k) : decodeForm sg (scanAnswer sg incomplete overflow) s =
      .next { s with busy := none, resp := errorAnswer incomplete } := by
  have hbuf (k : Nat) (hk : k < s.req.slen) : getBuf s k = some (get k) ∧ 128 ≤ (get k).toNat :=
    ⟨hg k hk ▸ getBuf_inside hk, hc k hk⟩
  rw [decodeForm_fits hf, scanLoop_incomplete hl hbuf getBuf_outside]
  rfl

/-- A buffer decode of a window that begins with an overlong encoding. -/
theorem decodeForm_overlong (hl : 19 ≤ s.req.slen) (ho : OverlongEncoding sg s.cfg.pExcess get)
    (hg : ∀ k, k < 19 → srcByte s k = get k) : decodeForm sg (scanAnswer sg incomplete overflow) s =
      .next { s with busy := none, resp := errorAnswer overflow } := by
  have hbuf (k : Nat) (hk : k < 19) : getBuf s k = some (get k) := hg k hk ▸ getBuf_inside (hk.trans_le hl)
  rw [decodeForm_fits hf, scanLoop_overlong ho hbuf]
  rfl

end

/-- Settles O15: the three clauses are the three ways in which a scan of the window ends. -/
theorem unsignedBufferDecodeAnswers : Obligations.UnsignedBufferDecodeAnswers := by
  intro s hf
  refine ⟨fun n hn hw => ?whole, fun hl hc => ?incomplete, fun hl ho => ?overlong⟩
  case whole => exact ⟨exec_decode_whole rfl hf hw hn fun _ _ => rfl, exec_decode_whole rfl hf hw hn fun _ _ => rfl⟩
  case incomplete =>
    rw [exec_udecTry, exec_udec]
    exact ⟨decodeForm_incomplete hf hl hc fun _ _ => rfl, decodeForm_incomplete hf hl hc fun _ _ => rfl⟩
  case overlong =>
    rw [exec_udecTry, exec_udec]
    exact ⟨decodeForm_overlong hf hl ho fun _ _ => rfl, decodeForm_overlong hf hl ho fun _ _ => rfl⟩

/-! ### The bytes a buffer decode depends on -/

theorem decodeForm_next_fits {sg : Sign} {answer : ScanEnd → Resp} {s t : State}
    (h : decodeForm sg answer s = .next t) : s.req.sbase + s.req.slen ≤ 2 ^ s.cfg.addrW := by
  by_contra hf
  cases (if_neg hf).symm.trans h

theorem valueAnswer_count {n : Nat} (sg : Sign) (x : Word) (h : n ≤ 19) : (valueAnswer n sg x).n.toNat = n :=
  encodedAnswer_count h

/-- Settles O19: however the scan of the window ends, a scan of the same bytes in another memory ends that way. -/
theorem bufferDecodeReadsOnlyItsBytes : Obligations.BufferDecodeReadsOnlyItsBytes := by
  intro i s t m hi h
  obtain ⟨incomplete, overflow, form⟩ := exec_eq_scanAnswer hi
  have hf := decodeForm_next_fits (form s ▸ h)
  rcases scan_trichotomy i.sign s.cfg.pExcess (srcByte s) s.req.slen with ⟨n, hn, hw⟩ | ⟨hl, hc⟩ | ⟨hl, ho⟩
  · cases (exec_decode_whole hi hf hw hn fun _ _ => rfl).symm.trans h
    have ⟨h1, h19, _⟩ := hw
    rw [valueAnswer_count _ _ h19]
    exact ⟨fun _ => ⟨h1, h19, hn⟩, fun hm => exec_decode_whole (s := { s with mem := m }) hi hf hw hn hm⟩
  · cases (decodeForm_incomplete hf hl hc fun _ _ => rfl).symm.trans (form s ▸ h)
    refine ⟨nofun, fun hm => ?_⟩
    rw [form]
    exact decodeForm_incomplete (s := { s with mem := m }) hf hl hc fun k hk => hm k (lt_min hk (hk.trans hl))
  · cases (decodeForm_overlong hf hl ho fun _ _ => rfl).symm.trans (form s ▸ h)
    refine ⟨nofun, fun hm => ?_⟩
    rw [form]
    exact decodeForm_overlong (s := { s with mem := m }) hf hl ho fun k hk => hm k (lt_min (hk.trans_le hl) hk)

/-! ### Source decodes -/

/-- Byte `k` of those that a source still yields. -/
def pulledByte (c : Source) (k : Nat) : Byte := c.bytes.getD k 0

theorem bytes_drop_eq_pulledByte_cons {c : Source} {j : Nat} (h : j < c.bytes.length) :
    c.bytes.drop j = pulledByte c j :: c.bytes.drop (j + 1) := by
  rw [List.drop_eq_getElem_cons h, pulledByte, List.getD_eq_getElem _ _ h]

theorem sourceGave_zero (c : Source) : sourceGave c 0 = c := rfl

theorem sourceGave_succ (c : Source) (j : Nat) : sourceGave (sourceGave c j) 1 = sourceGave c (j + 1) := by
  simp [sourceGave, Nat.add_assoc]

/-- A source decode's step does not look at which transfer is in progress. -/
theorem sourceStep_setBusy (t : SourceTransfer) (s : State) (b : Option Transfer) :
    sourceStep t { s with busy := b } = sourceStep t s := by
  unfold sourceStep
  simp only
  split
  · rfl
  · rfl
  · split <;> rfl

/-- The state of a source decode that began in `s` and has pulled `j` bytes, all continuing. -/
def sourceStreaming (sg : Sign) (j : Nat) (s : State) : State :=
  { s with
    source := sourceGave s.source j
    busy := some (.source { sign := sg, scan := scanAt (pulledByte s.source) j }) }

theorem sourceStreaming_all_bytes (sg : Sign) (s : State) :
    (sourceStreaming sg s.source.bytes.length s).source.bytes = [] :=
  List.drop_length

/-- The state of a source decode that began in `s` and has pulled `n` bytes, the last of which did `e` to the scan. -/
def sourcePulled (sg : Sign) (n : Nat) (s : State) : ScanStep → State
  | .more sc => { s with source := sourceGave s.source n, busy := some (.source { sign := sg, scan := sc }) }
  | .ok acc k => { s with source := sourceGave s.source n, busy := none, resp := valueAnswer k sg acc }
  | .overflow => { s with source := sourceGave s.source n, busy := none, resp := errorAnswer 3 }

section
variable {sg : Sign} {s : State} {j : Nat} (hf : s.foreign = []) (hr : s.rst = .low)
include hf hr

theorem step_sourceStreaming (sg : Sign) (j : Nat) : step (sourceStreaming sg j s) =
    sourceStep { sign := sg, scan := scanAt (pulledByte s.source) j } (sourceStreaming sg j s) :=
  (step_low (s := sourceStreaming sg j s) hf hr).trans (blockStep_busy (s := sourceStreaming sg j s) rfl)

/-- A source with bytes left yields the next one. -/
theorem step_sourceStreaming_pulls (hj : j < s.source.bytes.length) : step (sourceStreaming sg j s) =
    .next (sourcePulled sg (j + 1) s
      (scanByte sg s.cfg.pExcess (scanAt (pulledByte s.source) j) (pulledByte s.source j))) := by
  rw [step_sourceStreaming hf hr, sourceStep_byte (bytes_drop_eq_pulledByte_cons hj)]
  simp only [sourceStreaming, sourceGave_succ]
  cases scanByte sg s.cfg.pExcess (scanAt (pulledByte s.source) j) (pulledByte s.source j) with
  | more sc => rfl
  | ok acc n => rfl
  | overflow => rfl

theorem step_sourceStreaming_continues (h18 : j < 18) (hj : j < s.source.bytes.length)
    (hc : 128 ≤ (pulledByte s.source j).toNat) :
    step (sourceStreaming sg j s) = .next (sourceStreaming sg (j + 1) s) := by
  rw [step_sourceStreaming_pulls hf hr hj, scanByte_more sg _ _ h18 hc]
  rfl

/-- As long as the pulled bytes continue, a source decode streams. -/
theorem run_sourceStreaming (h18 : j ≤ 18) (hj : j ≤ s.source.bytes.length)
    (hc : ∀ k, k < j → 128 ≤ (pulledByte s.source k).toNat) :
    run j (sourceStreaming sg 0 s) = .next (sourceStreaming sg j s) := by
  induction j with
  | zero => rfl
  | succ j ih =>
    rw [run_snoc (ih (by omega) (by omega) fun k hk => hc k (by omega)),
      step_sourceStreaming_continues hf hr h18 hj (hc j (by omega))]

/-- The first step of a source decode is a step from where nothing has been pulled. -/
theorem sourceForm_eq_step (sg : Sign) : sourceForm sg s = step (sourceStreaming sg 0 s) := by
  rw [step_sourceStreaming hf hr, sourceStreaming, sourceGave_zero, sourceStep_setBusy]
  rfl

/-- A source decode takes a step for each of `j` continuing bytes, and then the step after them. -/
theorem sourceForm_run (h18 : j ≤ 18) (hj : j ≤ s.source.bytes.length)
    (hc : ∀ k, k < j → 128 ≤ (pulledByte s.source k).toNat) {u : State} (hu : step (sourceStreaming sg j s) = .next u) :
    ∃ t, sourceForm sg s = .next t ∧ run j t = .next u := by
  have hrun : run (j + 1) (sourceStreaming sg 0 s) = .next u :=
    (run_snoc (run_sourceStreaming hf hr h18 hj hc)).trans hu
  obtain ⟨t, ht⟩ := step_of_run hrun
  exact ⟨t, (sourceForm_eq_step hf hr sg).trans ht, (run_succ ht j).symm.trans hrun⟩

/-- A source decode whose bytes begin with a whole encoding. -/
theorem sourceForm_whole {n : Nat} (hn : n ≤ s.source.bytes.length)
    (hw : WholeEncoding sg s.cfg.pExcess (pulledByte s.source) n) :
    ∃ t, sourceForm sg s = .next t ∧ run (n - 1) t = .next { s with
      busy := none, source := sourceGave s.source n
      resp := valueAnswer n sg (decodedValue sg (pulledByte s.source) n) } := by
  obtain ⟨h1, h19, hc, hlast, hfit⟩ := hw
  obtain ⟨m, rfl⟩ := Nat.exists_eq_add_of_le' h1
  refine sourceForm_run hf hr (by omega) (by omega) (fun k hk => hc k (by omega)) ?_
  rw [Nat.add_sub_cancel] at hlast ⊢
  rw [step_sourceStreaming_pulls hf hr hn, scanByte_last sg _ _ hlast fun e => hfit (by omega)]
  rfl

/-- A source decode whose bytes begin with an overlong encoding. -/
theorem sourceForm_overlong (hl : 19 ≤ s.source.bytes.length)
    (ho : OverlongEncoding sg s.cfg.pExcess (pulledByte s.source)) :
    ∃ t, sourceForm sg s = .next t ∧ run 18 t = .next { s with
      busy := none, source := sourceGave s.source 19, resp := errorAnswer 3 } := by
  refine sourceForm_run hf hr le_rfl (by omega) ho.1 ?_
  rw [step_sourceStreaming_pulls hf hr hl, scanByte_overlong ho]
  rfl

/-- A source decode whose source signals exhaustion before the encoding ends (R48). -/
theorem sourceForm_exhausted (hl : s.source.bytes.length < 19)
    (hc : ∀ k, k < s.source.bytes.length → 128 ≤ (pulledByte s.source k).toNat) (he : s.source.atEnd = .exhausted) :
    ∃ t, sourceForm sg s = .next t ∧ run s.source.bytes.length t = .next { s with
      busy := none, source := sourceGave s.source s.source.bytes.length, resp := errorAnswer 2 } := by
  refine sourceForm_run hf hr (by omega) le_rfl hc ?_
  rw [step_sourceStreaming hf hr, sourceStep_exhausted (sourceStreaming_all_bytes sg s) he]
  rfl

/-- A source that has yielded all its bytes and does not signal leaves the block stuck (R48). -/
theorem step_sourceStreaming_silent (he : s.source.atEnd = .silent) :
    step (sourceStreaming sg s.source.bytes.length s) = .fault .sourceSilent := by
  rw [step_sourceStreaming hf hr]
  exact sourceStep_silent (sourceStreaming_all_bytes sg s) he

/-- A source decode whose source is silent from the beginning. -/
theorem sourceForm_silent (he : s.source.atEnd = .silent) (hl : s.source.bytes.length = 0) :
    sourceForm sg s = .fault .sourceSilent := by
  rw [sourceForm_eq_step hf hr, ← hl]
  exact step_sourceStreaming_silent hf hr he

/-- A source decode whose source falls silent before the encoding ends (R48, R218). -/
theorem sourceForm_stuck (hl : s.source.bytes.length < 19)
    (hc : ∀ k, k < s.source.bytes.length → 128 ≤ (pulledByte s.source k).toNat) (he : s.source.atEnd = .silent)
    (h0 : 0 < s.source.bytes.length) :
    ∃ t u, sourceForm sg s = .next t ∧ run (s.source.bytes.length - 1) t = .next u ∧
      u.source = sourceGave s.source s.source.bytes.length ∧ u.resp = s.resp ∧ step u = .fault .sourceSilent := by
  have hlast : step (sourceStreaming sg (s.source.bytes.length - 1) s) =
      .next (sourceStreaming sg s.source.bytes.length s) := by
    rw [step_sourceStreaming_continues hf hr (by omega) (by omega) (hc _ (by omega)), Nat.sub_add_cancel h0]
  obtain ⟨t, ht, hrun⟩ := sourceForm_run hf hr (by omega) (by omega) (fun k hk => hc k (by omega)) hlast
  exact ⟨t, _, ht, hrun, rfl, rfl, step_sourceStreaming_silent hf hr he⟩

end

/-- Settles O17: UDEC.SRC is the source form; the clauses are the ways in which what the source yields ends. -/
theorem udecSrcPullsAndAnswers : Obligations.UdecSrcPullsAndAnswers := by
  intro s hf hr
  rw [show exec .udecSrc s = sourceForm .unsigned s from rfl]
  exact ⟨fun _ => sourceForm_whole hf hr, sourceForm_overlong hf hr, fun hl hc =>
    ⟨sourceForm_exhausted hf hr hl hc, sourceForm_silent hf hr, sourceForm_stuck hf hr hl hc⟩⟩

end Sys2Proof.Machine
end

section
/-! PROOF. The signed encoder (spec/42_signed_encoder.md): the signed instances of the forms that both encoders share, and what
a stored encoding leaves of the memory around it. -/

namespace Sys2Proof.Machine

/-! ### The round trip -/

/-- Settles O22: the signed case of `exec_decode_after_encode`. -/
theorem signedRoundTrip : Obligations.SignedRoundTrip := by
  intro s t e d hwf he hd h hok
  have ⟨hdst, hsign⟩ : e.readsDst = true ∧ e.sign = .signed := by obtain rfl | rfl := he <;> exact ⟨rfl, rfl⟩
  have ⟨hsrc, hsame⟩ : d.readsSrc = true ∧ d.sign = .signed := by obtain rfl | rfl := hd <;> exact ⟨rfl, rfl⟩
  rw [← hsign] at hsame ⊢
  exact exec_decode_after_encode hdst hsrc hsame hwf h hok

/-! ### The count -/

/-- Settles O9: what is counted is an encoding, and its length is the least one (`encodingOf_spec`). -/
theorem sencCountIsLeastLength : Obligations.SencCountIsLeastLength := by
  intro s
  obtain ⟨n, -, h19, hl, hb⟩ := encodingOf_spec .signed s.req.val
  have hcount : exec .sencCount s = answerForm (fun x => encodedAnswer (encodingOf .signed x).length) s :=
    next_respondCount .signed s
  rw [answerForm, hb, encBytes_length] at hcount
  exact ⟨n, h19, hl, hcount⟩

/-! ### Buffer encodes -/

/-- A stored encoding leaves every byte outside `DST[0 .. n-1]` as it was (R46). -/
theorem memRead_outside_stored {m : List Host.Cell} (h : Memory.wf m = true) {base : Nat} (sg : Sign) (x : Word)
    {n a : Nat} (ha : a < base ∨ base + n ≤ a) :
    memRead (memWriteBytes m base (encBytes sg x n n)) a = memRead m a := by
  rw [memRead_memWriteBytes_encBytes h, if_neg (by omega)]

/-- Settles O11: with room for the encoding both commands store it in the memory before, without room each gives its own
failure. -/
theorem signedBufferEncodeStoresEncoding : Obligations.SignedBufferEncodeStoresEncoding := by
  intro s hwf hf
  obtain ⟨n, -, h19, hl, -⟩ := encodingOf_spec .signed s.req.val
  refine ⟨n, h19, hl, ?_⟩
  rw [exec_sencTry, exec_senc]
  constructor
  · intro hsmall
    exact ⟨encodeForm_small hl hsmall hf, encodeForm_small hl hsmall hf⟩
  · intro hroom
    exact ⟨_, encodeForm_stores hl hroom hf, encodeForm_stores hl hroom hf, fun _ => memRead_stored hwf _ _ _,
      fun _ => memRead_outside_stored hwf _ _⟩

/-! ### The sink encode -/

/-- Settles O13: SENC.SINK is the signed sink form; its sink accepts the whole encoding, nothing, or a part. -/
theorem sencSinkHandsOverEncoding : Obligations.SencSinkHandsOverEncoding := by
  intro s hf hr
  obtain ⟨n, h1, h19, hl, -⟩ := encodingOf_spec .signed s.req.val
  have hform : exec .sencSink s = sinkForm .signed s := rfl
  rw [hform]
  exact ⟨n, h1, h19, hl, sinkForm_accepted hf hr hl h1, sinkForm_held hf hr, fun _ => sinkForm_stuck hf hr hl⟩

end Sys2Proof.Machine
end


section
/-! PROOF. The signed decoder (spec/43_signed_decoder.md): the signed instances of the forms that both decoders share, and how a
signed decode differs from the unsigned one of the same window. -/

namespace Sys2Proof.Machine

/-! ### Buffer decodes -/

theorem exec_sdecTry (s : State) : exec .sdecTry s = decodeForm .signed (scanAnswer .signed 0 0) s :=
  bufferDecode_eq_form (finishSafe_eq .signed · s)

theorem exec_sdec (s : State) : exec .sdec s = decodeForm .signed (scanAnswer .signed 2 3) s :=
  bufferDecode_eq_form (finishStrict_eq .signed · s)

/-- Settles O16: a scan of the window finds a whole encoding, runs past the window, or is overlong; the two commands
differ in the codes of their failures. -/
theorem signedBufferDecodeAnswers : Obligations.SignedBufferDecodeAnswers := by
  intro s hf
  refine ⟨fun n hn hw => ?whole, fun hl hc => ?incomplete, fun hl ho => ?overlong⟩
  case whole => constructor <;> exact exec_decode_whole rfl hf hw hn fun _ _ => rfl
  case incomplete =>
    rw [exec_sdecTry, exec_sdec]
    constructor <;> exact decodeForm_incomplete hf hl hc fun _ _ => rfl
  case overlong =>
    rw [exec_sdecTry, exec_sdec]
    constructor <;> exact decodeForm_overlong hf hl ho fun _ _ => rfl

/-! ### The source decode -/

/-- Settles O18: SDEC.SRC is the signed source form; the source yields a whole encoding, an overlong one, or ends before
either and then signals exhaustion or is silent. -/
theorem sdecSrcPullsAndAnswers : Obligations.SdecSrcPullsAndAnswers := by
  intro s hf hr
  have hform : exec .sdecSrc s = sourceForm .signed s := rfl
  rw [hform]
  refine ⟨fun n hn hw => sourceForm_whole hf hr hn hw, fun hl ho => sourceForm_overlong hf hr hl ho, fun hl hc => ?_⟩
  exact ⟨sourceForm_exhausted hf hr hl hc, sourceForm_silent hf hr, sourceForm_stuck hf hr hl hc⟩

/-! ### Signed and unsigned decodes of one window (R165(d)) -/

/-- A buffer decode that succeeds has found a whole encoding inside its window. -/
theorem exec_decode_ok {i : Instr} {s t : State} (hi : i.readsSrc = true) (h : exec i s = .next t)
    (hok : t.resp.ok = true) : ∃ n, WholeEncoding i.sign s.cfg.pExcess (srcByte s) n ∧
      t.resp = valueAnswer n i.sign (decodedValue i.sign (srcByte s) n) := by
  obtain ⟨incomplete, overflow, form⟩ := exec_eq_scanAnswer hi
  have hf := decodeForm_next_fits (form s ▸ h)
  rcases scan_trichotomy i.sign s.cfg.pExcess (srcByte s) s.req.slen with ⟨n, hn, hw⟩ | ⟨hl, hc⟩ | ⟨hl, ho⟩
  · cases (exec_decode_whole hi hf hw hn fun _ _ => rfl).symm.trans h
    exact ⟨n, hw, rfl⟩
  · cases (decodeForm_incomplete hf hl hc fun _ _ => rfl).symm.trans (form s ▸ h)
    cases hok
  · cases (decodeForm_overlong hf hl ho fun _ _ => rfl).symm.trans (form s ▸ h)
    cases hok

/-- The signed value of `n` bytes is the unsigned one with the sign fill of R160. -/
theorem decodedValue_signed_eq_signFill {get : Nat → Byte} {n : Nat} (h1 : 1 ≤ n) :
    decodedValue .signed get n = signFill (decodedValue .unsigned get n) (7 * n) (get (n - 1)) := by
  obtain ⟨j, rfl⟩ := Nat.exists_eq_add_of_le' h1
  exact (scanValue_eq .signed get j).symm

/-- Of at most 19 bytes, the ones that leave bits to fill are those short of 19: `7 * 18 < 128 ≤ 7 * 19`. -/
theorem signFill_seven_mul {n : Nat} (h19 : n ≤ 19) (acc : Word) (b : Byte) :
    signFill acc (7 * n) b = if b.getLsbD 6 = true ∧ n ≠ 19 then acc ||| (ones <<< (7 * n)) else acc := by
  have hroom : 7 * n < 128 ↔ n ≠ 19 := by omega
  simp only [signFill, hroom, and_comm]

/-- The count of a success, of at most 19 bytes, fits RESP.n's five bits. -/
theorem valueAnswer_count_ne_nineteen_iff {n : Nat} (sg : Sign) (x : Word) (h : n ≤ 19) :
    (valueAnswer n sg x).n ≠ 19 ↔ n ≠ 19 := by
  rw [ne_eq, ← BitVec.toNat_inj, valueAnswer_count sg x h]
  rfl

/-- Settles O20: both decodes have found the same whole encoding (R64), and its two values differ by the sign fill. -/
theorem signedAndUnsignedDecodesAgreeUpToFill : Obligations.SignedAndUnsignedDecodesAgreeUpToFill := by
  intro s t u ht hu htok huok
  obtain ⟨n, hw, htresp⟩ := exec_decode_ok (i := .udec) rfl ht htok
  obtain ⟨m, hw', huresp⟩ := exec_decode_ok (i := .sdec) rfl hu huok
  obtain rfl := wholeEncoding_unique hw hw'
  have ⟨h1, h19, _⟩ := hw
  rw [htresp, huresp]
  refine ⟨rfl, ?_⟩
  simp only [valueAnswer_count _ _ h19, valueAnswer_count_ne_nineteen_iff _ _ h19]
  exact (decodedValue_signed_eq_signFill h1).trans (signFill_seven_mul h19 _ _)

end Sys2Proof.Machine
end

section
/-! PROOF. The classifier (spec/44_classifier.md): a checked narrowing accessor answers by the range of its width, the
ranges nest, and a value in the range of a width is its low bits, extended. -/

namespace Sys2Proof.Machine

/-! ### Accessors that always answer -/

/-- Settles O23: each of the four is `answerClassified` in its signedness. -/
theorem classificationAndWidestAccessorsAnswer : Obligations.ClassificationAndWidestAccessorsAnswer := fun s =>
  ⟨next_answerClassified .unsigned s, next_answerClassified .signed s, next_answerClassified .unsigned s,
    next_answerClassified .signed s⟩

/-! ### Checked narrowing accessors (R184) -/

/-- The answer of a checked narrowing accessor of width `w`. -/
def rangeAnswer (sg : Sign) (w : Nat) (x : Word) : Resp := if inRange sg w x then valueAnswer 0 sg x else errorAnswer 4

/-- `i` is the checked narrowing accessor of width `w` in the signedness `sg`. -/
def NarrowsTo (i : Instr) (sg : Sign) (w : Nat) : Prop := ∀ s, exec i s = answerForm (rangeAnswer sg w) s

theorem narrowU8_narrowsTo : NarrowsTo .narrowU8 .unsigned 8 := next_narrow .unsigned ResultRec.fits8
theorem narrowU32_narrowsTo : NarrowsTo .narrowU32 .unsigned 32 := next_narrow .unsigned ResultRec.fits32
theorem narrowU64_narrowsTo : NarrowsTo .narrowU64 .unsigned 64 := next_narrow .unsigned ResultRec.fits64
theorem narrowS8_narrowsTo : NarrowsTo .narrowS8 .signed 8 := next_narrow .signed ResultRec.fits8
theorem narrowS32_narrowsTo : NarrowsTo .narrowS32 .signed 32 := next_narrow .signed ResultRec.fits32
theorem narrowS64_narrowsTo : NarrowsTo .narrowS64 .signed 64 := next_narrow .signed ResultRec.fits64

theorem inRange_unsigned_iff (w : Nat) (x : Word) : inRange .unsigned w x = true ↔ x.toNat < 2 ^ w := by
  simp [inRange]

theorem inRange_signed_iff (w : Nat) (x : Word) :
    inRange .signed w x = true ↔ -(2 ^ (w - 1)) ≤ x.toInt ∧ x.toInt < 2 ^ (w - 1) := by
  simp [inRange]

/-- The range check of an unsigned accessor, with the largest value of its width. -/
theorem rangeAnswer_unsigned {w top : Nat} (htop : top + 1 = 2 ^ w) (x : Word) :
    rangeAnswer .unsigned w x = if top < x.toNat then errorAnswer 4 else valueAnswer 0 .unsigned x := by
  have h : inRange .unsigned w x = true ↔ ¬top < x.toNat := by rw [inRange_unsigned_iff]; omega
  simp only [rangeAnswer, h, ite_not]

/-- The range check of a signed accessor, with the largest value of its width; the least one is one further from 0. -/
theorem rangeAnswer_signed {w : Nat} {top : Int} (htop : top + 1 = 2 ^ (w - 1)) (x : Word) :
    rangeAnswer .signed w x =
      if x.toInt < -top - 1 ∨ top < x.toInt then errorAnswer 4 else valueAnswer 0 .signed x := by
  have h : inRange .signed w x = true ↔ ¬(x.toInt < -top - 1 ∨ top < x.toInt) := by rw [inRange_signed_iff]; omega
  simp only [rangeAnswer, h, ite_not]

theorem NarrowsTo.exec_unsigned {i : Instr} {w top : Nat} (h : NarrowsTo i .unsigned w) (htop : top + 1 = 2 ^ w)
    (s : State) :
    exec i s = .next { s with
      busy := none
      resp := if top < s.req.val.toNat then errorAnswer 4 else valueAnswer 0 .unsigned s.req.val } := by
  rw [h s, answerForm, rangeAnswer_unsigned htop]

theorem NarrowsTo.exec_signed {i : Instr} {w : Nat} {top : Int} (h : NarrowsTo i .signed w)
    (htop : top + 1 = 2 ^ (w - 1)) (s : State) :
    exec i s = .next { s with
      busy := none
      resp := if s.req.val.toInt < -top - 1 ∨ top < s.req.val.toInt then errorAnswer 4
        else valueAnswer 0 .signed s.req.val } := by
  rw [h s, answerForm, rangeAnswer_signed htop]

/-- Settles O24: 255, 4294967295 and 18446744073709551615 are the largest values of the widths 8, 32 and 64. -/
theorem unsignedNarrowingChecksItsRange : Obligations.UnsignedNarrowingChecksItsRange := by
  intro s w hw
  simp only [List.mem_cons, List.not_mem_nil, or_false] at hw
  obtain rfl | rfl | rfl := hw
  · exact narrowU8_narrowsTo.exec_unsigned rfl s
  · exact narrowU32_narrowsTo.exec_unsigned rfl s
  · exact narrowU64_narrowsTo.exec_unsigned rfl s

/-- Settles O25: 127, 2147483647 and 9223372036854775807 are the largest signed values of the widths 8, 32 and 64. -/
theorem signedNarrowingChecksItsRange : Obligations.SignedNarrowingChecksItsRange := by
  intro s w hw
  simp only [List.mem_cons, List.not_mem_nil, or_false] at hw
  obtain rfl | rfl | rfl := hw
  · exact narrowS8_narrowsTo.exec_signed rfl s
  · exact narrowS32_narrowsTo.exec_signed rfl s
  · exact narrowS64_narrowsTo.exec_signed rfl s

/-! ### The low bits of a value in range (R196(b)) -/

/-- A narrowing that succeeds answers `val`, and `val` is in its range. -/
theorem NarrowsTo.of_ok {i : Instr} {sg : Sign} {w : Nat} (h : NarrowsTo i sg w) {s t : State}
    (ht : exec i s = .next t) (hok : t.resp.ok = true) :
    t.resp.res.rval = s.req.val ∧ inRange sg w s.req.val = true := by
  cases (h s).symm.trans ht
  by_cases hr : inRange sg w s.req.val = true
  · exact ⟨by simp only [rangeAnswer, if_pos hr, valueAnswer, resultOf], hr⟩
  · simp [rangeAnswer, hr, errorAnswer] at hok

theorem zeroExtend_low_of_inRange {w : Nat} {x : Word} (h : inRange .unsigned w x = true) :
    (x.extractLsb' 0 w).setWidth 128 = x := by
  rw [inRange_unsigned_iff] at h
  apply BitVec.eq_of_toNat_eq
  rw [BitVec.toNat_setWidth, BitVec.extractLsb'_toNat, Nat.shiftRight_zero, Nat.mod_eq_of_lt h, Nat.mod_eq_of_lt x.isLt]

/-- The range of width `w` is where taking the value modulo `2^w` into that range changes nothing. -/
theorem signExtend_low_of_inRange {w : Nat} (h1 : 1 ≤ w) (h128 : w ≤ 128) {x : Word}
    (h : inRange .signed w x = true) : (x.extractLsb' 0 w).signExtend 128 = x := by
  obtain ⟨hlo, hhi⟩ := (inRange_signed_iff w x).1 h
  have hlow : x.extractLsb' 0 w = x.signExtend w := by
    rw [← BitVec.setWidth_eq_extractLsb' h128, BitVec.signExtend_eq_setWidth_of_le x h128]
  obtain ⟨v, rfl⟩ := Nat.exists_eq_add_of_le' h1
  have hpow : ((2 ^ (v + 1) : Nat) : Int) = 2 ^ v * 2 := by push_cast; ring
  rw [Nat.add_sub_cancel] at hlo hhi
  apply BitVec.eq_of_toInt_eq
  rw [hlow, BitVec.toInt_signExtend_of_le h128, BitVec.toInt_signExtend_eq_toInt_bmod_of_le x h128]
  exact Int.bmod_eq_of_le (by omega) (by omega)

theorem NarrowsTo.zeroExtend_low {i : Instr} {w : Nat} (h : NarrowsTo i .unsigned w) {s t : State}
    (hok : t.resp.ok = true) (ht : exec i s = .next t) :
    (t.resp.res.rval.extractLsb' 0 w).setWidth 128 = s.req.val := by
  obtain ⟨hval, hr⟩ := h.of_ok ht hok
  rw [hval, zeroExtend_low_of_inRange hr]

theorem NarrowsTo.signExtend_low {i : Instr} {w : Nat} (h : NarrowsTo i .signed w) (h1 : 1 ≤ w) (h128 : w ≤ 128)
    {s t : State} (hok : t.resp.ok = true) (ht : exec i s = .next t) :
    (t.resp.res.rval.extractLsb' 0 w).signExtend 128 = s.req.val := by
  obtain ⟨hval, hr⟩ := h.of_ok ht hok
  rw [hval, signExtend_low_of_inRange h1 h128 hr]

/-- Settles O26: a success has `val` in the range of its width, where the low bits determine it. -/
theorem narrowingIsLossless : Obligations.NarrowingIsLossless := fun _ _ hok =>
  ⟨narrowU8_narrowsTo.zeroExtend_low hok, narrowU32_narrowsTo.zeroExtend_low hok,
    narrowU64_narrowsTo.zeroExtend_low hok, narrowS8_narrowsTo.signExtend_low (by decide) (by decide) hok,
    narrowS32_narrowsTo.signExtend_low (by decide) (by decide) hok,
    narrowS64_narrowsTo.signExtend_low (by decide) (by decide) hok⟩

/-! ### The tiers (R181, R196(a)) -/

/-- The ranges nest. -/
theorem inRange_mono {sg : Sign} {v w : Nat} (hvw : v ≤ w) {x : Word} (h : inRange sg v x = true) :
    inRange sg w x = true := by
  cases sg with
  | unsigned =>
    rw [inRange_unsigned_iff] at h ⊢
    exact h.trans_le (Nat.pow_le_pow_right (by decide) hvw)
  | signed =>
    rw [inRange_signed_iff] at h ⊢
    have hpow : (2 : Int) ^ (v - 1) ≤ 2 ^ (w - 1) := pow_le_pow_right₀ (by decide) (by omega)
    omega

/-- Where the flags nest, the least tier that holds is numbered by how many do not. -/
theorem sizeClassOf_code {f8 f32 f64 : Bool} (h32 : f8 = true → f32 = true) (h64 : f32 = true → f64 = true) :
    (sizeClassOf f8 f32 f64).code.toNat = (if f8 then 0 else 1) + (if f32 then 0 else 1) + (if f64 then 0 else 1) := by
  revert f8 f32 f64
  decide

/-- Settles O27: the flags are the ranges of rising widths, and the SizeClass is read off them. -/
theorem sizeClassIsLeastTier : Obligations.SizeClassIsLeastTier := by
  intro sg x
  have h32 : (classify sg x).fits8 = true → (classify sg x).fits32 = true := by
    rw [classify_eq_resultOf]
    exact inRange_mono (by decide)
  have h64 : (classify sg x).fits32 = true → (classify sg x).fits64 = true := by
    rw [classify_eq_resultOf]
    exact inRange_mono (by decide)
  exact ⟨h32, h64, sizeClassOf_code h32 h64⟩

end Sys2Proof.Machine
end

section
/-! PROOF. Errors and stops (spec/60_exceptions.md): what a command that ends may report, what a reserved opcode answers, and
where a step has no next state. -/

namespace Sys2Proof.Machine

/-! ### What a command may report (R201, R203) -/

/-- A failure of the command `i` reports the code `c`. -/
abbrev MayReport (i : Instr) (c : BitVec 3) : Prop :=
  (c = 0 ∧ (i = .uencTry ∨ i = .sencTry ∨ i = .udecTry ∨ i = .sdecTry)) ∨
  (c = 1 ∧ (i = .uenc ∨ i = .senc)) ∨
  ((c = 2 ∨ c = 3) ∧ (i = .udec ∨ i = .udecSrc ∨ i = .sdec ∨ i = .sdecSrc)) ∨
  (c = 4 ∧ (i = .narrowU8 ∨ i = .narrowU32 ∨ i = .narrowU64 ∨ i = .narrowS8 ∨ i = .narrowS32 ∨ i = .narrowS64))

/-- `a` is a coherent answer of the command `i`, with a code of its own where it is a failure. -/
structure AnswerOf (i : Instr) (a : Resp) : Prop where
  valid : a.valid = true
  coherent : a.Coherent
  kind : a.ok = false → MayReport i a.err

theorem encodedAnswer_answerOf (i : Instr) {n : Nat} (h : n ≤ 19) : AnswerOf i (encodedAnswer n) :=
  ⟨rfl, encodedAnswer_coherent h, nofun⟩

theorem valueAnswer_answerOf (i : Instr) (sg : Sign) (x : Word) {n : Nat} (h : n ≤ 19) :
    AnswerOf i (valueAnswer n sg x) :=
  ⟨rfl, valueAnswer_coherent sg x h, nofun⟩

theorem MayReport.code_le_five {i : Instr} {c : BitVec 3} (h : MayReport i c) : c.toNat ≤ 5 := by
  obtain ⟨rfl, -⟩ | ⟨rfl, -⟩ | ⟨rfl | rfl, -⟩ | ⟨rfl, -⟩ := h <;> decide

theorem errorAnswer_answerOf {i : Instr} {c : BitVec 3} (h : MayReport i c) : AnswerOf i (errorAnswer c) :=
  ⟨rfl, errorAnswer_coherent h.code_le_five, fun _ => h⟩

theorem rangeAnswer_answerOf {i : Instr} (h : MayReport i 4) (sg : Sign) (w : Nat) (x : Word) :
    AnswerOf i (rangeAnswer sg w x) := by
  unfold rangeAnswer
  split
  · exact valueAnswer_answerOf i sg x (Nat.zero_le 19)
  · exact errorAnswer_answerOf h

theorem scanAnswer_answerOf {i : Instr} {incomplete overflow : BitVec 3} (hi : MayReport i incomplete)
    (ho : MayReport i overflow) (sg : Sign) (p : PExcess) (get : Nat → Option Byte) :
    AnswerOf i (scanAnswer sg incomplete overflow (scanLoop sg p get maxLen Scan.start)) := by
  cases h : scanLoop sg p get maxLen Scan.start with
  | ok acc n => exact valueAnswer_answerOf i sg acc (scanLoop_count (by decide) h).2
  | incomplete => exact errorAnswer_answerOf hi
  | overflow => exact errorAnswer_answerOf ho

/-! ### The answer of each form of command -/

theorem encodingOf_ne_nil (sg : Sign) (x : Word) : encodingOf sg x ≠ [] :=
  List.length_pos_iff.1 (encodingOf_length sg x).1

section
variable {i : Instr} {sg : Sign} {s t : State}

theorem answerForm_answerOf {a : Word → Resp} (ha : ∀ x, AnswerOf i (a x)) (h : answerForm a s = .next t) :
    AnswerOf i t.resp := by
  cases h
  exact ha s.req.val

theorem count_answerOf (h : answerForm (fun x => encodedAnswer (encodingOf sg x).length) s = .next t) :
    AnswerOf i t.resp :=
  answerForm_answerOf (fun x => encodedAnswer_answerOf i (encodingOf_length sg x).2) h

theorem value_answerOf (h : answerForm (valueAnswer 0 sg) s = .next t) : AnswerOf i t.resp :=
  answerForm_answerOf (fun x => valueAnswer_answerOf i sg x (Nat.zero_le 19)) h

theorem encodeForm_answerOf {c : BitVec 3} (hc : MayReport i c) (h : encodeForm sg (errorAnswer c) s = .next t) :
    AnswerOf i t.resp := by
  simp only [encodeForm] at h
  split at h
  · split at h
    · cases h
      exact errorAnswer_answerOf hc
    · cases h
      exact encodedAnswer_answerOf i (encodingOf_length sg s.req.val).2
  · cases h

theorem decodeForm_answerOf {incomplete overflow : BitVec 3} (hi : MayReport i incomplete) (ho : MayReport i overflow)
    (h : decodeForm sg (scanAnswer sg incomplete overflow) s = .next t) : AnswerOf i t.resp := by
  cases (decodeForm_fits (decodeForm_next_fits h)).symm.trans h
  exact scanAnswer_answerOf hi ho sg s.cfg.pExcess (getBuf s)

theorem sinkForm_answerOf (h : sinkForm sg s = .next t) (ht : t.busy = none) : AnswerOf i t.resp := by
  obtain ⟨hnil, -⟩ | ⟨b, rest, -, -, ⟨-, rfl⟩ | ⟨-, rfl⟩⟩ := sinkStep_next h
  · exact absurd hnil (encodingOf_ne_nil sg s.req.val)
  · exact encodedAnswer_answerOf i (n := 1) (by decide)
  · cases ht

theorem sourceForm_answerOf (h2 : MayReport i 2) (h3 : MayReport i 3) (h : sourceForm sg s = .next t)
    (ht : t.busy = none) : AnswerOf i t.resp := by
  obtain ⟨-, -, rfl⟩ | ⟨b, bs, -, ⟨-, -, rfl⟩ | ⟨-, acc, rfl⟩ | rfl⟩ := sourceStep_next h
  · exact errorAnswer_answerOf h2
  · cases ht
  · exact valueAnswer_answerOf i sg acc (n := 1) (by decide)
  · exact errorAnswer_answerOf h3

theorem NarrowsTo.answerOf {w : Nat} (hn : NarrowsTo i sg w) (hc : MayReport i 4) (h : exec i s = .next t) :
    AnswerOf i t.resp :=
  answerForm_answerOf (rangeAnswer_answerOf hc sg w) ((hn s).symm.trans h)

end

/-- A command that ends has given an answer of its own. -/
theorem exec_answerOf {i : Instr} {s t : State} (h : exec i s = .next t) (ht : t.busy = none) : AnswerOf i t.resp := by
  cases i
  case uencCount => exact count_answerOf (sg := .unsigned) h
  case sencCount => exact count_answerOf (sg := .signed) h
  case uencTry => exact encodeForm_answerOf (by decide) ((exec_uencTry s).symm.trans h)
  case sencTry => exact encodeForm_answerOf (by decide) ((exec_sencTry s).symm.trans h)
  case uenc => exact encodeForm_answerOf (by decide) ((exec_uenc s).symm.trans h)
  case senc => exact encodeForm_answerOf (by decide) ((exec_senc s).symm.trans h)
  case udecTry => exact decodeForm_answerOf (by decide) (by decide) ((exec_udecTry s).symm.trans h)
  case sdecTry => exact decodeForm_answerOf (by decide) (by decide) ((exec_sdecTry s).symm.trans h)
  case udec => exact decodeForm_answerOf (by decide) (by decide) ((exec_udec s).symm.trans h)
  case sdec => exact decodeForm_answerOf (by decide) (by decide) ((exec_sdec s).symm.trans h)
  case uencSink => exact sinkForm_answerOf (sg := .unsigned) h ht
  case sencSink => exact sinkForm_answerOf (sg := .signed) h ht
  case udecSrc => exact sourceForm_answerOf (sg := .unsigned) (by decide) (by decide) h ht
  case sdecSrc => exact sourceForm_answerOf (sg := .signed) (by decide) (by decide) h ht
  case clsU | narrowU128 => exact value_answerOf ((next_answerClassified .unsigned s).symm.trans h)
  case clsS | narrowS128 => exact value_answerOf ((next_answerClassified .signed s).symm.trans h)
  case narrowU8 => exact narrowU8_narrowsTo.answerOf (by decide) h
  case narrowU32 => exact narrowU32_narrowsTo.answerOf (by decide) h
  case narrowU64 => exact narrowU64_narrowsTo.answerOf (by decide) h
  case narrowS8 => exact narrowS8_narrowsTo.answerOf (by decide) h
  case narrowS32 => exact narrowS32_narrowsTo.answerOf (by decide) h
  case narrowS64 => exact narrowS64_narrowsTo.answerOf (by decide) h

/-- Settles O29, command by command: each form fails only with the codes that it is filled with. -/
theorem errorKindsByCommand : Obligations.ErrorKindsByCommand :=
  fun _ _ _ h ht =>
    have ha := exec_answerOf h ht
    ⟨ha.valid, ha.coherent, ha.kind⟩

/-! ### Reserved opcodes (R205) -/

theorem blockStep_reserved {s : State} {r : Request} {rest : List Request} (hb : s.busy = none)
    (hp : s.port = r :: rest) (hd : decode r.op = .error .reserved) :
    blockStep s = .next (raiseError .illegalCommand (takeRequest r rest s)) := by
  rw [blockStep_request hb hp, runRequest, takeRequest_req, hd]
  rfl

/-- Settles O5: with no other agent, the step is the block's own. -/
theorem reservedOpcodeAnswersIllegalCommand : Obligations.ReservedOpcodeAnswersIllegalCommand :=
  fun _ _ _ hf hr hb hp hd => (step_low hf hr).trans (blockStep_reserved hb hp hd)

/-! ### Where a command stops -/

theorem sinkStep_fault_iff (t : SinkTransfer) (s : State) (e : Fault) :
    sinkStep t s = .fault e ↔ e = .sinkHolds ∧ s.sink.room = some 0 ∧ t.left ≠ [] := by
  obtain ⟨left, n⟩ := t
  cases left with
  | nil => exact iff_of_false nofun fun h => h.2.2 rfl
  | cons b rest =>
    by_cases hr : s.sink.room = some 0
    · rw [sinkStep_holds hr]
      simp [hr, eq_comm]
    · rw [sinkStep_accepts hr]
      split <;> simp [hr]

theorem sourceStep_fault_iff (t : SourceTransfer) (s : State) (e : Fault) :
    sourceStep t s = .fault e ↔ e = .sourceSilent ∧ s.source.bytes = [] ∧ s.source.atEnd = .silent := by
  cases hb : s.source.bytes with
  | nil =>
    cases he : s.source.atEnd with
    | exhausted => simp [sourceStep_exhausted hb he]
    | silent => simp [sourceStep_silent hb he, eq_comm]
  | cons b bs =>
    rw [sourceStep_byte hb]
    split <;> simp

theorem transferStep_ne_refused (t : Transfer) (s : State) (e : Refusal) : transferStep t s ≠ .refused e := by
  cases t with
  | sink t => exact sinkStep_ne_refused t s e
  | source t => exact sourceStep_ne_refused t s e

theorem transferStep_sinkHolds_iff (t : Transfer) (s : State) :
    transferStep t s = .fault .sinkHolds ↔ s.sink.room = some 0 ∧ ∃ k, t = .sink k ∧ k.left ≠ [] := by
  cases t with
  | sink t => simp [transferStep, sinkStep_fault_iff]
  | source t => simp [transferStep, sourceStep_fault_iff]

theorem transferStep_sourceSilent_iff (t : Transfer) (s : State) :
    transferStep t s = .fault .sourceSilent ↔
      (s.source.bytes = [] ∧ s.source.atEnd = .silent) ∧ ∃ c, t = .source c := by
  cases t with
  | sink t => simp [transferStep, sinkStep_fault_iff]
  | source t => simp [transferStep, sourceStep_fault_iff]

/-- A buffer encode reaches no collaborator (R22). -/
theorem exec_ne_fault_of_readsDst {i : Instr} (h : i.readsDst = true) (s : State) (e : Fault) : exec i s ≠ .fault e := by
  obtain ⟨small, form⟩ := exec_of_readsDst h
  rw [form, encodeForm]
  split
  · split <;> exact nofun
  · exact nofun

/-- A buffer decode reaches no collaborator (R22). -/
theorem exec_ne_fault_of_readsSrc {i : Instr} (h : i.readsSrc = true) (s : State) (e : Fault) : exec i s ≠ .fault e := by
  obtain ⟨answer, form⟩ := exec_of_readsSrc h
  rw [form, decodeForm]
  split <;> exact nofun

/-- A command that reaches no collaborator does not get stuck (R218). -/
theorem exec_ne_fault {i : Instr} (hk : i.usesSink ≠ true) (hc : i.usesSource ≠ true) (s : State) (e : Fault) :
    exec i s ≠ .fault e := by
  cases i
  case uencSink | sencSink => exact absurd rfl hk
  case udecSrc | sdecSrc => exact absurd rfl hc
  case uencTry | uenc | sencTry | senc => exact exec_ne_fault_of_readsDst rfl s e
  case udecTry | udec | sdecTry | sdec => exact exec_ne_fault_of_readsSrc rfl s e
  all_goals exact nofun

theorem exec_of_usesSink {i : Instr} (h : i.usesSink = true) (s : State) : exec i s = sinkForm i.sign s := by
  cases i
  case uencSink | sencSink => rfl
  all_goals cases h

theorem exec_of_usesSource {i : Instr} (h : i.usesSource = true) (s : State) : exec i s = sourceForm i.sign s := by
  cases i
  case udecSrc | sdecSrc => rfl
  all_goals cases h

/-- No command reaches both collaborators (R22). -/
theorem usesSource_of_usesSink {i : Instr} (h : i.usesSink = true) : i.usesSource = false := by
  revert h; cases i <;> decide

/-- A sink encode has at least one byte to hand over. -/
theorem sinkForm_fault_iff (sg : Sign) (s : State) (e : Fault) :
    sinkForm sg s = .fault e ↔ e = .sinkHolds ∧ s.sink.room = some 0 := by
  rw [sinkForm, sinkStep_fault_iff]
  simp [encodingOf_ne_nil]

/-- A command gets stuck on the collaborator that it reaches (R218). -/
theorem exec_fault_iff (i : Instr) (s : State) (e : Fault) : exec i s = .fault e ↔
    (e = .sinkHolds ∧ s.sink.room = some 0 ∧ i.usesSink = true) ∨
      (e = .sourceSilent ∧ s.source.bytes = [] ∧ s.source.atEnd = .silent ∧ i.usesSource = true) := by
  by_cases hk : i.usesSink = true
  · rw [exec_of_usesSink hk, sinkForm_fault_iff]
    simp [hk, usesSource_of_usesSink hk]
  · by_cases hc : i.usesSource = true
    · rw [exec_of_usesSource hc, sourceForm, sourceStep_fault_iff]
      simp [hk, hc]
    · exact iff_of_false (exec_ne_fault hk hc s e) (by simp [hk, hc])

/-! ### Where a step stops (R218) -/

/-- The idle block's oldest request is a command, and `p` holds of the command and the request. -/
def Begins (s : State) (p : Instr → Request → Prop) : Prop :=
  s.busy = none ∧ ∃ r rest i, s.port = r :: rest ∧ decode r.op = .ok i ∧ p i r

theorem begins_and_iff {s : State} {q : Prop} {p : Instr → Request → Prop} :
    Begins s (fun i r => q ∧ p i r) ↔ q ∧ Begins s p := by
  constructor
  · rintro ⟨hb, r, rest, i, hp, hd, hq, h⟩
    exact ⟨hq, hb, r, rest, i, hp, hd, h⟩
  · rintro ⟨hq, hb, r, rest, i, hp, hd, h⟩
    exact ⟨hb, r, rest, i, hp, hd, hq, h⟩

/-- A step with reset not raised stops only in a stream command in progress or in the command it begins. -/
theorem blockStep_stop_iff {s : State} {o : Host.Outcome State Fault Refusal} (ho : ∀ t, o ≠ .next t) :
    blockStep s = o ↔ (∃ t, s.busy = some t ∧ transferStep t s = o) ∨
      Begins s fun i r => exec i (takeRequest r s.port.tail s) = o := by
  obtain ⟨t, hb, he⟩ | ⟨r, rest, hb, hp, he⟩ | ⟨hb, hp, he⟩ := blockStep_cases s
  · simp [he, hb, Begins]
  · cases hd : decode r.op with
    | ok i =>
      rw [blockStep_command hb hp hd]
      simp [Begins, hb, hp, hd]
    | error e =>
      cases e
      rw [blockStep_reserved hb hp hd]
      simp [Begins, hb, hp, hd, (ho _).symm]
  · rw [he]
    simp [Begins, hb, hp, (ho s).symm]

/-- Where a step stops beside other agents: as the block does on the memory it sees. -/
theorem step_stop_iff {s : State} (hr : s.rst = .low) {o : Host.Outcome State Fault Refusal} (ho : ∀ t, o ≠ .next t) :
    step s = o ↔ (∃ t, s.busy = some t ∧ transferStep t (seenState s) = o) ∨
      Begins s fun i r => exec i (takeRequest r s.port.tail (seenState s)) = o := by
  refine Iff.trans ?_ (blockStep_stop_iff (s := seenState s) ho)
  rw [step_eq, stepAlone_low (s := seenState s) hr]
  cases blockStep (seenState s) with
  | next t => exact iff_of_false (ho _).symm (ho _).symm
  | fault e => rfl
  | refused e => rfl

theorem step_refused_iff {s : State} (hr : s.rst = .low) (e : Refusal) :
    step s = .refused e ↔ e = .windowDoesNotFit ∧ Begins s fun i r =>
      (i.readsDst = true ∧ 2 ^ s.cfg.addrW < r.dbase + r.dcap) ∨
        (i.readsSrc = true ∧ 2 ^ s.cfg.addrW < r.sbase + r.slen) := by
  have hexec (i : Instr) (r : Request) := misfitWindowIsRefused i (takeRequest r s.port.tail (seenState s)) e
  rw [step_stop_iff (o := .refused e) hr (fun _ h => by cases h), ← begins_and_iff]
  simp only [transferStep_ne_refused, hexec, and_false, exists_false, false_or]
  rfl

theorem step_sinkHolds_iff {s : State} (hr : s.rst = .low) :
    step s = .fault .sinkHolds ↔ s.sink.room = some 0 ∧
      ((∃ t, s.busy = some (.sink t) ∧ t.left ≠ []) ∨ Begins s fun i _ => i.usesSink = true) := by
  have hexec (i : Instr) (u : State) :
      exec i u = .fault .sinkHolds ↔ u.sink.room = some 0 ∧ i.usesSink = true := by simp [exec_fault_iff]
  rw [step_stop_iff (o := .fault .sinkHolds) hr (fun _ h => by cases h), and_or_left, ← begins_and_iff]
  simp only [transferStep_sinkHolds_iff, hexec]
  refine or_congr ⟨?_, ?_⟩ Iff.rfl
  · rintro ⟨_, hb, hroom, k, rfl, hleft⟩
    exact ⟨hroom, k, hb, hleft⟩
  · rintro ⟨hroom, k, hb, hleft⟩
    exact ⟨_, hb, hroom, k, rfl, hleft⟩

theorem step_sourceSilent_iff {s : State} (hr : s.rst = .low) :
    step s = .fault .sourceSilent ↔ s.source.bytes = [] ∧ s.source.atEnd = .silent ∧
      ((∃ t, s.busy = some (.source t)) ∨ Begins s fun i _ => i.usesSource = true) := by
  have hexec (i : Instr) (u : State) : exec i u = .fault .sourceSilent ↔
      (u.source.bytes = [] ∧ u.source.atEnd = .silent) ∧ i.usesSource = true := by simp [exec_fault_iff, and_assoc]
  rw [step_stop_iff (o := .fault .sourceSilent) hr (fun _ h => by cases h), ← and_assoc, and_or_left, ← begins_and_iff]
  simp only [transferStep_sourceSilent_iff, hexec]
  refine or_congr ⟨?_, ?_⟩ Iff.rfl
  · rintro ⟨_, hb, hsource, c, rfl⟩
    exact ⟨hsource, c, hb⟩
  · rintro ⟨hsource, c, hb⟩
    exact ⟨_, hb, hsource, c, rfl⟩

/-- Settles O34: a stop is one of the transfer in progress or of the command that begins, on the memory the block sees; no
stop depends on that memory. -/
theorem stepStopsExactlyWhere : Obligations.StepStopsExactlyWhere :=
  fun _ hr => ⟨step_refused_iff hr, step_sinkHolds_iff hr, step_sourceSilent_iff hr⟩

end Sys2Proof.Machine
end

section
/-! PROOF. A stream command in progress (R234, R239): what one step of it does, and that it ends. -/

namespace Sys2Proof.Machine

/-! ### One step of a stream command in progress -/

/-- How many bytes a stream command in progress may still move: the rest of its encoding, or what is left of the 19 bytes that
a source decode may pull. -/
def Transfer.bytesLeft : Transfer → Nat
  | .sink t => t.left.length
  | .source t => 19 - t.scan.i

/-- What a step of the stream command `t`, which leads from `s` to `u`, has done. -/
structure Moved (t : Transfer) (s u : State) : Prop where
  /-- it reaches its collaborator, the working registers and RESP, and nothing else -/
  frame : u = { s with sink := u.sink, source := u.source, busy := u.busy, resp := u.resp }
  /-- it has answered, or it goes on with a byte less to move -/
  progress : u.busy = none ∧ u.resp.valid = true ∨
    u.resp = s.resp ∧ ∃ t', u.busy = some t' ∧ t'.bytesLeft + 1 = t.bytesLeft
  received_le : u.sink.received.length ≤ s.sink.received.length + 1
  pos_le : u.source.pos ≤ s.source.pos + 1
  room_open : s.sink.room = none → u.sink.room = none
  atEnd_eq : u.source.atEnd = s.source.atEnd

theorem sinkStep_moved {t : SinkTransfer} {s u : State} (h : sinkStep t s = .next u) : Moved (.sink t) s u := by
  have hreceived (b : Byte) : (sinkGot s.sink [b] 1).received.length ≤ s.sink.received.length + 1 := by simp [sinkGot]
  have hroom (b : Byte) (hk : s.sink.room = none) : (sinkGot s.sink [b] 1).room = none := by simp [sinkGot, hk]
  obtain ⟨-, rfl⟩ | ⟨b, rest, hl, -, ⟨-, rfl⟩ | ⟨-, rfl⟩⟩ := sinkStep_next h
  · exact ⟨rfl, .inl ⟨rfl, rfl⟩, Nat.le_succ _, Nat.le_succ _, id, rfl⟩
  · exact ⟨rfl, .inl ⟨rfl, rfl⟩, hreceived b, Nat.le_succ _, hroom b, rfl⟩
  · exact ⟨rfl, .inr ⟨rfl, _, rfl, by simp [Transfer.bytesLeft, hl]⟩, hreceived b, Nat.le_succ _, hroom b, rfl⟩

theorem sourceStep_moved {t : SourceTransfer} {s u : State} (h : sourceStep t s = .next u) : Moved (.source t) s u := by
  obtain ⟨-, -, rfl⟩ | ⟨b, bs, -, ⟨hi, -, rfl⟩ | ⟨-, acc, rfl⟩ | rfl⟩ := sourceStep_next h
  · exact ⟨rfl, .inl ⟨rfl, rfl⟩, Nat.le_succ _, Nat.le_succ _, id, rfl⟩
  · exact ⟨rfl, .inr ⟨rfl, _, rfl, by simp only [Transfer.bytesLeft]; omega⟩, Nat.le_succ _, le_rfl, id, rfl⟩
  · exact ⟨rfl, .inl ⟨rfl, rfl⟩, Nat.le_succ _, le_rfl, id, rfl⟩
  · exact ⟨rfl, .inl ⟨rfl, rfl⟩, Nat.le_succ _, le_rfl, id, rfl⟩

theorem transferStep_moved {t : Transfer} {s u : State} (h : transferStep t s = .next u) : Moved t s u := by
  cases t with
  | sink t => exact sinkStep_moved h
  | source t => exact sourceStep_moved h

/-! ### The held requests (R234) -/

/-- What does not look at the frame of `reframe` does not look at the held requests, and keeps them. -/
theorem setPort_of_reframe {F : State → Host.Outcome State Fault Refusal}
    (hF : ∀ f s, F (reframe f s) = mapNext (reframe f) (F s)) (s : State) (held : List Request) :
    F { s with port := held } = mapNext (fun u => { u with port := held }) (F s) := by
  calc F { s with port := held }
    _ = mapNext (reframe { s with port := held }) (F s) := hF { s with port := held } s
    _ = mapNext (fun u => { u with port := held }) (mapNext (reframe s) (F s)) := by rw [mapNext_mapNext]; rfl
    _ = mapNext (fun u => { u with port := held }) (F s) := by rw [← hF]; rfl

/-- Settles O7: the step is one of the transfer in progress, and that looks at no held request. -/
theorem heldRequestsWait : Obligations.HeldRequestsWait := by
  intro s t hf hr hb
  have hstep (held : List Request) : step { s with port := held } = transferStep t { s with port := held } :=
    (step_low (s := { s with port := held }) hf hr).trans (blockStep_busy (s := { s with port := held }) hb)
  rw [show step s = transferStep t s from hstep s.port]
  refine ⟨fun held => (hstep held).trans (setPort_of_reframe (transferStep_reframe t) s held), fun u hu => ?_⟩
  obtain ⟨hframe, hprogress, -, -, -, -⟩ := transferStep_moved hu
  refine ⟨by rw [hframe], by rw [hframe], by rw [hframe], by rw [hframe], ?_⟩
  obtain ⟨hnone, hvalid⟩ | ⟨hresp, t', hsome, -⟩ := hprogress
  · exact ⟨fun hgo => absurd hnone hgo, fun _ => hvalid⟩
  · exact ⟨fun _ => hresp, fun hend => absurd (hsome.symm.trans hend) nofun⟩

/-! ### A stream command ends (R239) -/

theorem Transfer.InProgress.bytesLeft_bounds : ∀ {t : Transfer}, t.InProgress → 1 ≤ t.bytesLeft ∧ t.bytesLeft ≤ 18
  | .sink _, ⟨_, hl, _⟩ => ⟨hl, by simp only [Transfer.bytesLeft]; omega⟩
  | .source _, ⟨_, _, _, _⟩ => by simp only [Transfer.bytesLeft]; omega

/-- With a sink that accepts and a source that does not fall silent a stream command is not stuck (R237). -/
theorem transferStep_goes_on (t : Transfer) {s : State} (hk : s.sink.room ≠ some 0) (hc : s.source.atEnd ≠ .silent) :
    ∃ u, transferStep t s = .next u := by
  cases h : transferStep t s with
  | next u => exact ⟨u, rfl⟩
  | refused e => exact absurd h (transferStep_ne_refused t s e)
  | fault e =>
    cases e with
    | sinkHolds => exact absurd ((transferStep_sinkHolds_iff t s).1 h).1 hk
    | sourceSilent => exact absurd ((transferStep_sourceSilent_iff t s).1 h).1.2 hc

/-- A step of a stream command in progress, beside other agents too. -/
theorem step_busy {s : State} {t : Transfer} (hr : s.rst = .low) (hb : s.busy = some t) :
    step s = mapNext (afterOthers s) (transferStep t (seenState s)) := by
  rw [step_eq, stepAlone_low (s := seenState s) hr, blockStep_busy (s := seenState s) hb]

/-- A stream command in progress with reset low, a sink that accepts and a source that signals exhaustion. -/
structure Streaming (t : Transfer) (s : State) : Prop where
  inv : s.Inv
  rst : s.rst = .low
  busy : s.busy = some t
  room : s.sink.room = none
  atEnd : s.source.atEnd = .exhausted

theorem Streaming.bytesLeft_bounds {t : Transfer} {s : State} (h : Streaming t s) : 1 ≤ t.bytesLeft ∧ t.bytesLeft ≤ 18 :=
  (h.inv.transfer_in_progress t h.busy).bytesLeft_bounds

/-- The stream command has answered after `k` steps from `s`, in which at most `k` bytes went to the sink or came from the
source; the held requests are all there. -/
structure EndsAfter (k : Nat) (s u : State) : Prop where
  run_eq : run k s = .next u
  busy : u.busy = none
  valid : u.resp.valid = true
  port : u.port = s.port
  received_le : u.sink.received.length ≤ s.sink.received.length + k
  pos_le : u.source.pos ≤ s.source.pos + k

/-- A stream command that is not stuck ends with its next step, or streams on with a byte less to move. -/
theorem Streaming.step_cases {t : Transfer} {s : State} (h : Streaming t s) :
    ∃ u, step s = .next u ∧ u.port = s.port ∧ u.sink.received.length ≤ s.sink.received.length + 1 ∧
      u.source.pos ≤ s.source.pos + 1 ∧
      (u.busy = none ∧ u.resp.valid = true ∨ ∃ t', Streaming t' u ∧ t'.bytesLeft + 1 = t.bytesLeft) := by
  obtain ⟨hinv, hr, hb, hk, hc⟩ := h
  obtain ⟨v, hv⟩ := transferStep_goes_on t (s := seenState s) (hk ▸ nofun) (hc ▸ nofun)
  have hs : step s = .next (afterOthers s v) := by rw [step_busy hr hb, hv]; rfl
  obtain ⟨hframe, hprogress, hreceived, hpos, hroom, hend⟩ := transferStep_moved hv
  have hport : v.port = s.port := by rw [hframe]; rfl
  have hrst : v.rst = .low := by rw [hframe]; exact hr
  refine ⟨_, hs, hport, hreceived, hpos, hprogress.imp id ?_⟩
  rintro ⟨-, t', hb', hless⟩
  exact ⟨t', ⟨(step_safe hinv hs).inv, hrst, hb', hroom hk, hend.trans hc⟩, hless⟩

/-- A stream command ends within as many steps as it has bytes left. -/
theorem Streaming.ends {m : Nat} {t : Transfer} {s : State} (h : Streaming t s) (hm : t.bytesLeft ≤ m) :
    ∃ k u, 1 ≤ k ∧ k ≤ m ∧ EndsAfter k s u := by
  induction m generalizing t s with
  | zero => exact absurd (h.bytesLeft_bounds.1.trans hm) (Nat.not_succ_le_zero 0)
  | succ m ih =>
    obtain ⟨v, hs, hport, hreceived, hsource, ⟨hb, hvalid⟩ | ⟨t', hgo, hless⟩⟩ := h.step_cases
    · exact ⟨1, v, le_rfl, by omega, ⟨run_succ hs 0, hb, hvalid, hport, hreceived, hsource⟩⟩
    · obtain ⟨k, u, -, hk, hu⟩ := ih hgo (by omega)
      have := hu.received_le
      have := hu.pos_le
      exact ⟨k + 1, u, by omega, by omega,
        ⟨(run_succ hs k).trans hu.run_eq, hu.busy, hu.valid, hu.port.trans hport, by omega, by omega⟩⟩

/-- Settles O35: in a safe state at most 18 bytes are left to move, and every step moves one or ends the command. -/
theorem streamCommandsEnd : Obligations.StreamCommandsEnd := by
  intro s t hinv hr hb hk hc
  have hstart : Streaming t s := ⟨hinv, hr, hb, hk, hc⟩
  obtain ⟨k, u, h1, h18, hu⟩ := hstart.ends hstart.bytesLeft_bounds.2
  have := hu.received_le
  have := hu.pos_le
  exact ⟨k, u, h1, h18, hu.run_eq, hu.busy, hu.valid, hu.port, by omega, by omega⟩

end Sys2Proof.Machine
end

section
/-! PROOF. Reset and idling (R230-R232): the state after reset, the block between commands, and what a reset leaves of a
command it hits. -/

namespace Sys2Proof.Machine

/-! ### After reset and between commands -/

/-- Settles O39: nothing is listed, held or in progress, and RESP is not valid. -/
theorem resetStateIsSafe : Obligations.ResetStateIsSafe :=
  ⟨{ memory_canonical := rfl
     memory_in_space := rfl
     resp_coherent := nofun
     transfer_in_progress := nofun
     port_carries := nofun
     foreign_in_space := nofun }, rfl⟩

theorem hostAct_present {r : Request} {s : State} (h : r.wf s.cfg = true) :
    hostAct (.present r) s = { s with port := s.port ++ [r] } :=
  if_pos h

/-- Settles O6: on the empty port the presented request is the oldest one. -/
theorem idleBlockTakesNextPresented : Obligations.IdleBlockTakesNextPresented := by
  intro s r hf hr hb hp hw
  refine ⟨(step_low hf hr).trans (blockStep_idle hb hp), ?_⟩
  rw [hostAct_present hw, hp]
  exact (step_low (s := { s with port := [r] }) hf hr).trans (blockStep_request (s := { s with port := [r] }) hb rfl)

/-! ### What a reset does to the block -/

/-- A reset leaves some RESP that is not valid, drops the stream command in progress and touches nothing else but the draws
(R230, R31). -/
theorem resetBlock_eq (s : State) : ∃ a d, a.valid = false ∧
    resetBlock s = { s with rst := .low, busy := none, resp := a, draws := d } :=
  ⟨_, _, rfl, rfl⟩

theorem resetBlock_idle {s : State} (hb : s.busy = none) : ∃ a d, a.valid = false ∧
    resetBlock s = { s with rst := .low, resp := a, draws := d } := by
  obtain ⟨a, d, ha, he⟩ := resetBlock_eq s
  exact ⟨a, d, ha, by rw [he, hb]⟩

theorem resetStep_busy {s : State} {t : Transfer} (hb : s.busy = some t) :
    resetStep s = .next (resetBlock (abortTransfer t s)) := by
  simp only [resetStep, hb]

theorem resetStep_between {s : State} (hb : s.busy = none) (hr : s.rst = .between) :
    resetStep s = .next (resetBlock s) := by
  simp only [resetStep, hb, hr]

theorem resetStep_nothing_presented {s : State} (hb : s.busy = none) (hp : s.port = []) :
    resetStep s = .next (resetBlock s) := by
  cases hr : s.rst <;> simp only [resetStep, hb, hp, hr]

theorem resetStep_during {s : State} {r : Request} {rest : List Request} (hb : s.busy = none) (hr : s.rst = .during)
    (hp : s.port = r :: rest) : resetStep s = resetDuring r rest s := by
  simp only [resetStep, hb, hr, hp]

theorem resetDuring_reserved {r : Request} (hd : decode r.op = .error .reserved) (rest : List Request) (s : State) :
    resetDuring r rest s = .next (resetBlock (takeRequest r rest s)) := by
  simp only [resetDuring, hd]

theorem resetDuring_command {r : Request} {rest : List Request} {i : Instr} {s u : State} (hd : decode r.op = .ok i)
    (hu : abortCommand i (takeRequest r rest s) = .next u) : resetDuring r rest s = .next (resetBlock u) := by
  simp only [resetDuring, hd, hu]

/-- Settles O42: in each case the step is a reset of the block and no more. -/
theorem resetClearsValid : Obligations.ResetClearsValid := by
  intro s hf hb
  refine ⟨fun hr => ?idle, fun r rest hr hp hd => ?reserved⟩
  case idle =>
    have hraised : s.rst ≠ .low := by
      obtain hr | ⟨hr, -⟩ := hr <;> rw [hr] <;> nofun
    have hreset : resetStep s = .next (resetBlock s) :=
      hr.elim (resetStep_between hb) fun h => resetStep_nothing_presented hb h.2
    obtain ⟨a, d, ha, he⟩ := resetBlock_idle hb
    exact ⟨a, d, ha, by rw [step_raised hf hraised, hreset, he]⟩
  case reserved =>
    obtain ⟨a, d, ha, he⟩ := resetBlock_idle (s := takeRequest r rest s) hb
    refine ⟨a, d, ha, ?_⟩
    rw [step_raised hf (hr ▸ nofun), resetStep_during hb hr hp, resetDuring_reserved hd, he]
    rfl

/-! ### What a reset leaves of a command (R231) -/

section
variable {i : Instr} (s : State)

theorem abortCommand_of_readsDst (h : i.readsDst = true) :
    abortCommand i s = abortEncode (encodingOf i.sign s.req.val) s := by
  cases i
  case uencTry | uenc | sencTry | senc => rfl
  all_goals cases h

theorem abortCommand_of_readsSrc (h : i.readsSrc = true) : abortCommand i s = abortDecode s := by
  cases i
  case udecTry | udec | sdecTry | sdec => rfl
  all_goals cases h

theorem abortCommand_of_usesSink (h : i.usesSink = true) : abortCommand i s =
    .next (abortTransfer (.sink { left := encodingOf i.sign s.req.val, sent := 0 }) s) := by
  cases i
  case uencSink | sencSink => rfl
  all_goals cases h

theorem abortCommand_of_usesSource (h : i.usesSource = true) : abortCommand i s =
    .next (abortTransfer (.source { sign := i.sign, scan := Scan.start }) s) := by
  cases i
  case udecSrc | sdecSrc => rfl
  all_goals cases h

/-- A count, a CLS or a NARROW leaves nothing (R231(d)). -/
theorem abortCommand_of_no_space (hd : i.readsDst ≠ true) (hs : i.readsSrc ≠ true) (hk : i.usesSink = false)
    (hc : i.usesSource = false) : abortCommand i s = .next s := by
  cases i
  case uencTry | uenc | sencTry | senc => exact absurd rfl hd
  case udecTry | udec | sdecTry | sdec => exact absurd rfl hs
  case uencSink | sencSink => cases hk
  case udecSrc | sdecSrc => cases hc
  all_goals rfl

end

/-- A step whose reset hits a presented command resets the block after what is left of the command. -/
theorem step_reset_command {s u : State} {r : Request} {rest : List Request} {i : Instr} (hf : s.foreign = [])
    (hr : s.rst = .during) (hb : s.busy = none) (hp : s.port = r :: rest) (hd : decode r.op = .ok i)
    (hu : abortCommand i (takeRequest r rest s) = .next u) : step s = .next (resetBlock u) := by
  rw [step_raised hf (hr ▸ nofun), resetStep_during hb hr hp, resetDuring_command hd hu]

/-- `m` is host memory after a reset during the command `i` of the state `s`: only a buffer encode whose encoding fits its
capacity may have changed it, and only in the bytes of the encoding (R231(a), (d)). -/
structure CutMemory (i : Instr) (s : State) (m : Memory) : Prop where
  no_dst : i.readsDst = false → m = s.mem
  too_small : ∀ {n}, EncLen i.sign s.req.val n → s.req.dcap < n → m = s.mem
  outside : ∀ {n}, EncLen i.sign s.req.val n → ∀ x, x < s.req.dbase ∨ s.req.dbase + n ≤ x →
    memRead m x = memRead s.mem x

theorem CutMemory.refl (i : Instr) (s : State) : CutMemory i s s.mem :=
  ⟨fun _ => rfl, fun _ _ => rfl, fun _ _ _ => rfl⟩

theorem abortEncode_fits {bytes : List Byte} {s : State} (h : s.req.dbase + s.req.dcap ≤ 2 ^ s.cfg.addrW) :
    abortEncode bytes s = if s.req.dcap < bytes.length then .next s
      else .next { s with mem := memWriteBytes s.mem s.req.dbase (freeBytes s.draws bytes.length) } :=
  if_pos ((dstFits_iff s).2 h)

theorem abortDecode_fits {s : State} (h : s.req.sbase + s.req.slen ≤ 2 ^ s.cfg.addrW) : abortDecode s = .next s :=
  if_pos ((srcFits_iff s).2 h)

theorem abortCommand_encode {i : Instr} {s : State} (hi : i.readsDst = true) (hwf : Memory.wf s.mem = true)
    (hfit : s.req.dbase + s.req.dcap ≤ 2 ^ s.cfg.addrW) :
    ∃ m, abortCommand i s = .next { s with mem := m } ∧ CutMemory i s m := by
  rw [abortCommand_of_readsDst s hi, abortEncode_fits hfit]
  have hlen {n : Nat} (hl : EncLen i.sign s.req.val n) : (encodingOf i.sign s.req.val).length = n := by
    rw [encodingOf_eq_encBytes hl, encBytes_length]
  by_cases hsmall : s.req.dcap < (encodingOf i.sign s.req.val).length
  · exact ⟨s.mem, if_pos hsmall, .refl i s⟩
  · refine ⟨_, if_neg hsmall, ?_, fun hl hn => ?_, fun hl x hx => ?_⟩
    · exact fun hn => absurd (hi.symm.trans hn) nofun
    · exact absurd (hlen hl ▸ hn) hsmall
    · exact memRead_memWriteBytes_outside _ hwf (by rwa [freeBytes_length, hlen hl])

/-- A command that is no stream command, hit by reset, changes host memory at most. -/
theorem abortCommand_cuts {i : Instr} {s : State} (hk : i.usesSink = false) (hc : i.usesSource = false)
    (hwf : Memory.wf s.mem = true) (hdst : i.readsDst = true → s.req.dbase + s.req.dcap ≤ 2 ^ s.cfg.addrW)
    (hsrc : i.readsSrc = true → s.req.sbase + s.req.slen ≤ 2 ^ s.cfg.addrW) :
    ∃ m, abortCommand i s = .next { s with mem := m } ∧ CutMemory i s m := by
  by_cases hd : i.readsDst = true
  · exact abortCommand_encode hd hwf (hdst hd)
  · refine ⟨s.mem, ?_, .refl i s⟩
    by_cases hs : i.readsSrc = true
    · rw [abortCommand_of_readsSrc s hs, abortDecode_fits (hsrc hs)]
    · exact abortCommand_of_no_space s hd hs hk hc

/-- Settles O43: the step resets the block after `abortCommand_cuts`. -/
theorem resetDuringCommandKeepsOtherBytes : Obligations.ResetDuringCommandKeepsOtherBytes := by
  intro s r rest i hf hr hb hp hd hwf hk hc hdst hsrc
  obtain ⟨m, hu, hm⟩ := abortCommand_cuts (s := takeRequest r rest s) hk hc hwf hdst hsrc
  obtain ⟨a, d, ha, he⟩ := resetBlock_idle (s := { takeRequest r rest s with mem := m }) hb
  refine ⟨m, a, d, ha, ?_, hm.no_dst, fun n hl => ⟨hm.too_small hl, hm.outside hl⟩⟩
  rw [step_reset_command hf hr hb hp hd hu, he]
  rfl

/-! ### What a reset leaves of a stream command (R231(b), (c)) -/

theorem drawUpTo_le (most : Nat) (s : State) : drawUpTo most s ≤ most :=
  Nat.le_of_lt_succ (Nat.mod_lt _ (Nat.succ_pos most))

theorem sinkLimit_le (k : Sink) (n : Nat) : sinkLimit k n ≤ n := by
  unfold sinkLimit
  split
  · exact le_rfl
  · exact min_le_left _ _

/-- A sink encode cut short has handed over the first bytes of what was left. -/
theorem abortTransfer_sink (t : SinkTransfer) (s : State) : ∃ k, k ≤ t.left.length ∧
    abortTransfer (.sink t) s = { s with sink := sinkGot s.sink (t.left.take k) k } := by
  have hk := (sinkLimit_le s.sink (drawUpTo t.left.length s)).trans (drawUpTo_le t.left.length s)
  refine ⟨_, hk, ?_⟩
  simp only [abortTransfer, sinkAfter, sinkGot, List.length_take_of_le hk]

/-- A source decode that has pulled `i` bytes may pull `k` of `bytes`: each of them but the last continues, and none lies past
the 19th of the command. -/
structure PullsAtMost (i : Nat) (bytes : List Byte) (k : Nat) : Prop where
  le_length : k ≤ bytes.length
  le_ceiling : i + k ≤ 19
  continuing : ∀ j, j + 1 < k → 128 ≤ (bytes.getD j 0).toNat

theorem PullsAtMost.mono {i k m : Nat} {bytes : List Byte} (h : PullsAtMost i bytes m) (hk : k ≤ m) :
    PullsAtMost i bytes k :=
  ⟨hk.trans h.le_length, by have := h.le_ceiling; omega, fun j hj => h.continuing j (hj.trans_le hk)⟩

theorem pullsAtMost_zero {i : Nat} (hi : i ≤ 18) (bytes : List Byte) : PullsAtMost i bytes 0 :=
  ⟨Nat.zero_le _, by omega, fun _ h => by omega⟩

theorem pullsAtMost_one {i : Nat} (hi : i ≤ 18) (b : Byte) (bs : List Byte) : PullsAtMost i (b :: bs) 1 :=
  ⟨Nat.le_add_left 1 _, by omega, fun _ h => by omega⟩

/-- A continuing byte below the ceiling lets the decode pull on. -/
theorem PullsAtMost.cons {i k : Nat} {b : Byte} {bs : List Byte} (hb : 128 ≤ b.toNat) (h : PullsAtMost (i + 1) bs k) :
    PullsAtMost i (b :: bs) (k + 1) := by
  refine ⟨Nat.succ_le_succ h.le_length, by have := h.le_ceiling; omega, fun j hj => ?_⟩
  cases j with
  | zero => exact hb
  | succ j => exact h.continuing j (Nat.lt_of_succ_lt_succ hj)

theorem pullCount_pullsAtMost (sg : Sign) (p : PExcess) : ∀ (bytes : List Byte) (sc : Scan), sc.i ≤ 18 →
    PullsAtMost sc.i bytes (pullCount sg p sc bytes)
  | [], _, hi => pullsAtMost_zero hi []
  | b :: bs, sc, hi => by
    unfold pullCount
    obtain ⟨hlt, hc, hs⟩ | hs | ⟨-, acc, hs⟩ := scanByte_cases sg p sc b <;> rw [hs]
    · have hrest (acc : Word) (shift : Nat) :
          PullsAtMost (sc.i + 1) bs (pullCount sg p { acc := acc, shift := shift, i := sc.i + 1 } bs) :=
        pullCount_pullsAtMost sg p bs { acc := acc, shift := shift, i := sc.i + 1 } hlt
      exact .cons hc (hrest _ _)
    · exact pullsAtMost_one hi b bs
    · exact pullsAtMost_one hi b bs

/-- A source decode cut short has pulled some of the bytes that it would have pulled. -/
theorem abortTransfer_source {t : SourceTransfer} (hi : t.scan.i ≤ 18) (s : State) :
    ∃ k, PullsAtMost t.scan.i s.source.bytes k ∧
      abortTransfer (.source t) s = { s with source := sourceGave s.source k } :=
  ⟨_, (pullCount_pullsAtMost t.sign s.cfg.pExcess s.source.bytes t.scan hi).mono (drawUpTo_le _ s), rfl⟩

theorem step_reset_busy {s : State} {t : Transfer} (hf : s.foreign = []) (hr : s.rst ≠ .low) (hb : s.busy = some t) :
    step s = .next (resetBlock (abortTransfer t s)) :=
  (step_raised hf hr).trans (resetStep_busy hb)

/-- Settles O44: a stream command is cut alike in progress and presented; a presented one has its whole encoding left or its
scan at the start. -/
theorem resetDuringStreamCutsIt : Obligations.ResetDuringStreamCutsIt := by
  intro s hf hr
  refine ⟨fun t hb => ?sink, fun t hb hi => ?source, fun r rest i hr hb hp hd =>
    ⟨fun hk => ?sinkStart, fun hc => ?sourceStart⟩⟩
  case sink =>
    obtain ⟨k, hk, hcut⟩ := abortTransfer_sink t s
    obtain ⟨a, d, ha, he⟩ := resetBlock_eq (abortTransfer (.sink t) s)
    exact ⟨k, a, d, hk, ha, by rw [step_reset_busy hf hr hb, he, hcut]⟩
  case source =>
    obtain ⟨k, hk, hcut⟩ := abortTransfer_source hi s
    obtain ⟨a, d, ha, he⟩ := resetBlock_eq (abortTransfer (.source t) s)
    exact ⟨k, a, d, hk.le_length, hk.le_ceiling, hk.continuing, ha, by rw [step_reset_busy hf hr hb, he, hcut]⟩
  case sinkStart =>
    obtain ⟨n, -, -, hl, hbytes⟩ := encodingOf_spec i.sign r.val
    obtain ⟨k, hkn, hcut⟩ := abortTransfer_sink { left := encodingOf i.sign r.val, sent := 0 } (takeRequest r rest s)
    rw [hbytes, encBytes_length] at hkn
    have hu := abortCommand_of_usesSink (takeRequest r rest s) hk
    obtain ⟨a, d, ha, he⟩ := resetBlock_idle (s := { takeRequest r rest s with
      sink := sinkGot s.sink ((encodingOf i.sign r.val).take k) k }) hb
    refine ⟨n, k, a, d, hl, hkn, ha, ?_⟩
    rw [step_reset_command hf hr hb hp hd (hu.trans (congrArg _ hcut)), ← encBytes_take i.sign r.val hkn, ← hbytes]
    exact congrArg _ he
  case sourceStart =>
    obtain ⟨k, hk, hcut⟩ := abortTransfer_source (t := { sign := i.sign, scan := Scan.start }) (Nat.zero_le 18)
      (takeRequest r rest s)
    have hu := abortCommand_of_usesSource (takeRequest r rest s) hc
    obtain ⟨a, d, ha, he⟩ := resetBlock_idle (s := { takeRequest r rest s with source := sourceGave s.source k }) hb
    refine ⟨k, a, d, hk.le_length, by simpa [Scan.start] using hk.le_ceiling, hk.continuing, ha, ?_⟩
    rw [step_reset_command hf hr hb hp hd (hu.trans (congrArg _ hcut))]
    exact congrArg _ he

end Sys2Proof.Machine
end

section
/-! PROOF. A failed encode beside other agents (R236(b)). -/

namespace Sys2Proof.Machine

/-- A buffer encode and the code with which it fails (R103, R104, R143, R144). -/
theorem exec_encode {i : Instr} (h : i.readsDst = true) (s : State) :
    exec i s = encodeForm i.sign (errorAnswer (if i = .uenc ∨ i = .senc then 1 else 0)) s := by
  cases i
  case uencTry => exact exec_uencTry s
  case uenc => exact exec_uenc s
  case sencTry => exact exec_sencTry s
  case senc => exact exec_senc s
  all_goals cases h

/-- Settles O48: an encode that fails writes no byte, so a raced byte of DST may hold any value and every other byte its other
writer's, if it has one. -/
theorem racedFailedEncodeKeepsOtherBytes : Obligations.RacedFailedEncodeKeepsOtherBytes := by
  intro s r rest i n hr hb hp hd hi hwf hl hn hfit
  have hc : startedCommand s = some (i, r) := (startedCommand_eq_some hr).2 ⟨hb, ⟨rest, hp⟩, hd⟩
  have hsrc : i.readsSrc = false := readsSrc_of_readsDst hi
  have hread (a : Nat) : mayRead s a = false := by simp [mayRead, hc, hsrc]
  have hwrites (a : Nat) : writesByte s a = false := by
    rw [Bool.eq_false_iff, Ne, writesByte_iff hc, encodingOf_eq_encBytes hl, encBytes_length]
    omega
  have hany (a : Nat) : anyValueAfter s a = true ↔ r.dbase ≤ a ∧ a < r.dbase + r.dcap := by
    simp [anyValueAfter_iff, hread, hwrites, inDst_iff hc, hi]
  have hseen : memSeen s s.draws s.foreign s.mem = s.mem := memSeen_eq_self s _ _ _ fun c _ => hread c.1
  refine ⟨memAfter s (s.draws + s.foreign.length) s.foreign s.mem, s.draws + 2 * s.foreign.length, ?_, fun a => ?_⟩
  · rw [step_command hr hb hp hd, exec_encode hi, encodeForm_small (s := takeRequest r rest (seenState s)) hl hn hfit]
    simp [mapNext, afterOthers, startsDecode_eq hc, hsrc, seenState, takeRequest, hseen]
  · have hafter := memRead_memAfter_cases s a (s.draws + s.foreign.length) hwf
    rw [hany, hwrites] at hafter
    simpa using hafter

end Sys2Proof.Machine
end
